-- ==== Sys2Proof/Word.lean ====
section
/-! DEFINITION. The word types of the core (`00_scope.md` rules R5, R8) and the numbers of its general registers
(`10_state.md` rules R20, R21). Nothing here computes: shifts, fields and byte order live in the files that can be
mended. -/

namespace Sys2Proof

/-- A Word: 32 bits, bit 0 the least significant (rules R5, R8). -/
abbrev Word := BitVec 32

/-- A Byte: 8 bits, the unit of memory (rule R5). -/
abbrev Byte := BitVec 8

/-- The number of a general register, R0 to R15 (rule R20). -/
abbrev Reg := Fin 16

/-- R13, the stack pointer by role only: the hardware never treats it apart (rule R21). -/
abbrev Reg.sp : Reg := 13

/-- R14, the link register: the only place the hardware itself writes it is BL (rule R21). -/
abbrev Reg.lr : Reg := 14

/-- R15, the program counter: there is no other (rule R24). -/
abbrev Reg.pc : Reg := 15

end Sys2Proof
end

