-- ==== Sys2Proof/Config.lean ====
section
/-! DEFINITION. What the spec leaves to the implementation (`00_scope.md` rule R6): the open parameters, as data a
machine is constructed from, and the draws, as free values without a body. -/

namespace Sys2Proof.Config

/-- The bits of the status word that nothing consults (`10_state.md` rule R29). Their width is unspecified (rule R26);
the model carries eight (log entry 2). -/
abbrev OpaqueBits := BitVec 8

/-- The open parameters of rule R6 that are fixed when a machine is constructed. -/
structure Params where
  /-- Base of the 32 KiB fast RAM (decision D11). -/
  iwramBase : Word
  /-- Base of the 256 KiB main RAM (decision D11). -/
  ewramBase : Word
  /-- The bytes loaded at 0x00000000 (decision D26). -/
  firmwareImage : List Byte
  /-- The bytes loaded at 0x08000000 (decision D26). -/
  romImage : List Byte
  /-- Whether a store inside a loaded image changes it (decision D12). -/
  roRegionsWritable : Bool
  /-- The opaque status bits at reset (decision D7). -/
  resetStatusOpaque : OpaqueBits
deriving DecidableEq, Repr

/-- The parameters of `State.reset`: the RAM bases the spec gives as defaults (rule R49), nothing loaded, stores into an
image dropped (log entry 4), the opaque bits the spec suggests (rule R35, decision D7; log entry 2). -/
def defaultParams : Params where
  iwramBase := 0x03000000
  ewramBase := 0x02000000
  firmwareImage := []
  romImage := []
  roRegionsWritable := false
  resetStatusOpaque := 0xD3

/-! The draws (`00_scope.md` rule R14, `43_multiply.md` rule R150): a free bit for each flag a multiply leaves
meaningless, a fresh one at each value of the counter `State.draws`. Log entry 1. -/

/-- C after MUL and MLA with S = 1. -/
opaque mulCarryDraw : Nat → Bool

/-- C after UMULL, UMLAL, SMULL and SMLAL with S = 1. -/
opaque mullCarryDraw : Nat → Bool

/-- V after UMULL, UMLAL, SMULL and SMLAL with S = 1. -/
opaque mullOverflowDraw : Nat → Bool

end Sys2Proof.Config
end

