-- ==== Sys2Proof/Syntax.lean ====
section
/-! DEFINITION. The instructions as typed data (`30_encoding.md` rule R76): one constructor of `Instr` per row of
`spec/opcode_table.json` (rule R83). The six error rows of the table are constructors too: a word of an error bucket
is kept whole, because the error it stands for carries it. -/

namespace Sys2Proof

/-- The 15 condition codes, in the order of their values 0 to 14 (`41_condition_codes.md` rule R110). Value 15 is no
condition (rule R61). -/
inductive Cond where
  | eq | ne | cs | cc | mi | pl | vs | vc | hi | ls | ge | lt | gt | le | al
deriving DecidableEq, Repr

/-- The shift types of a shift descriptor, in the order of their values 0 to 3 (rule R64). -/
inductive ShiftKind where
  | lsl | lsr | asr | ror
deriving DecidableEq, Repr

/-- The rotated immediate of data processing: bits 11:8 and 7:0 (rule R63). -/
structure RotImm where
  rotate : BitVec 4
  imm8 : BitVec 8
deriving DecidableEq, Repr

/-- A shift descriptor with its register (rules R64, R68, R72): the amount is as encoded, its value 0 gets its
special meaning in the shifter. -/
structure ShiftedReg where
  rm : Reg
  kind : ShiftKind
  amount : BitVec 5
deriving DecidableEq, Repr

/-- The control bits of a single data transfer that are not part of its mnemonic (rule R68): P pre-index (bit 24),
U up (bit 23), W write-back (bit 21). -/
structure Indexing where
  p : Bool
  u : Bool
  w : Bool
deriving DecidableEq, Repr

/-- The control bits of a block data transfer that are not part of its mnemonic (rule R70): P pre-index (bit 24),
U up (bit 23), S force-mode-bits (bit 22), W write-back (bit 21). -/
structure BlockMode where
  p : Bool
  u : Bool
  s : Bool
  w : Bool
deriving DecidableEq, Repr

/-- The reason tags of a DecodeError (rule R76; the names are the spec's decision D22). -/
inductive DecodeReason where
  | reservedCondition
  | halfwordTransfer
  | undefinedEncoding
  | coprocessorOrSwi
deriving DecidableEq, Repr

/-- One constructor per row of the opcode table. The first field of an instruction is its condition; `s` is the
alter-flags bit 20. Fields that an instruction ignores but the decoder still delivers (Rd of TST, TEQ, CMP, CMN; Rn of
MOV, MVN; Rn of MUL) are kept (rules R76, R124, R152); the bits of rule R80 that reach no field are not. -/
inductive Instr where
  -- data processing, immediate operand2 (rule R63)
  | andImm (c : Cond) (s : Bool) (rn rd : Reg) (op2 : RotImm)
  | eorImm (c : Cond) (s : Bool) (rn rd : Reg) (op2 : RotImm)
  | subImm (c : Cond) (s : Bool) (rn rd : Reg) (op2 : RotImm)
  | rsbImm (c : Cond) (s : Bool) (rn rd : Reg) (op2 : RotImm)
  | addImm (c : Cond) (s : Bool) (rn rd : Reg) (op2 : RotImm)
  | adcImm (c : Cond) (s : Bool) (rn rd : Reg) (op2 : RotImm)
  | sbcImm (c : Cond) (s : Bool) (rn rd : Reg) (op2 : RotImm)
  | rscImm (c : Cond) (s : Bool) (rn rd : Reg) (op2 : RotImm)
  | tstImm (c : Cond) (s : Bool) (rn rd : Reg) (op2 : RotImm)
  | teqImm (c : Cond) (s : Bool) (rn rd : Reg) (op2 : RotImm)
  | cmpImm (c : Cond) (s : Bool) (rn rd : Reg) (op2 : RotImm)
  | cmnImm (c : Cond) (s : Bool) (rn rd : Reg) (op2 : RotImm)
  | orrImm (c : Cond) (s : Bool) (rn rd : Reg) (op2 : RotImm)
  | movImm (c : Cond) (s : Bool) (rn rd : Reg) (op2 : RotImm)
  | bicImm (c : Cond) (s : Bool) (rn rd : Reg) (op2 : RotImm)
  | mvnImm (c : Cond) (s : Bool) (rn rd : Reg) (op2 : RotImm)
  -- data processing, register operand2 (rule R64)
  | andReg (c : Cond) (s : Bool) (rn rd : Reg) (op2 : ShiftedReg)
  | eorReg (c : Cond) (s : Bool) (rn rd : Reg) (op2 : ShiftedReg)
  | subReg (c : Cond) (s : Bool) (rn rd : Reg) (op2 : ShiftedReg)
  | rsbReg (c : Cond) (s : Bool) (rn rd : Reg) (op2 : ShiftedReg)
  | addReg (c : Cond) (s : Bool) (rn rd : Reg) (op2 : ShiftedReg)
  | adcReg (c : Cond) (s : Bool) (rn rd : Reg) (op2 : ShiftedReg)
  | sbcReg (c : Cond) (s : Bool) (rn rd : Reg) (op2 : ShiftedReg)
  | rscReg (c : Cond) (s : Bool) (rn rd : Reg) (op2 : ShiftedReg)
  | tstReg (c : Cond) (s : Bool) (rn rd : Reg) (op2 : ShiftedReg)
  | teqReg (c : Cond) (s : Bool) (rn rd : Reg) (op2 : ShiftedReg)
  | cmpReg (c : Cond) (s : Bool) (rn rd : Reg) (op2 : ShiftedReg)
  | cmnReg (c : Cond) (s : Bool) (rn rd : Reg) (op2 : ShiftedReg)
  | orrReg (c : Cond) (s : Bool) (rn rd : Reg) (op2 : ShiftedReg)
  | movReg (c : Cond) (s : Bool) (rn rd : Reg) (op2 : ShiftedReg)
  | bicReg (c : Cond) (s : Bool) (rn rd : Reg) (op2 : ShiftedReg)
  | mvnReg (c : Cond) (s : Bool) (rn rd : Reg) (op2 : ShiftedReg)
  -- multiply and multiply long (rule R67)
  | mul (c : Cond) (s : Bool) (rd rn rs rm : Reg)
  | mla (c : Cond) (s : Bool) (rd rn rs rm : Reg)
  | umull (c : Cond) (s : Bool) (rdHi rdLo rs rm : Reg)
  | umlal (c : Cond) (s : Bool) (rdHi rdLo rs rm : Reg)
  | smull (c : Cond) (s : Bool) (rdHi rdLo rs rm : Reg)
  | smlal (c : Cond) (s : Bool) (rdHi rdLo rs rm : Reg)
  -- swap (rule R67)
  | swp (c : Cond) (rn rd rm : Reg)
  | swpb (c : Cond) (rn rd rm : Reg)
  -- branch (rules R65, R70)
  | b (c : Cond) (offset24 : BitVec 24)
  | bl (c : Cond) (offset24 : BitVec 24)
  | bx (c : Cond) (rm : Reg)
  -- single data transfer, immediate and register offset (rule R68)
  | ldrImm (c : Cond) (ix : Indexing) (rn rd : Reg) (imm12 : BitVec 12)
  | strImm (c : Cond) (ix : Indexing) (rn rd : Reg) (imm12 : BitVec 12)
  | ldrbImm (c : Cond) (ix : Indexing) (rn rd : Reg) (imm12 : BitVec 12)
  | strbImm (c : Cond) (ix : Indexing) (rn rd : Reg) (imm12 : BitVec 12)
  | ldrReg (c : Cond) (ix : Indexing) (rn rd : Reg) (off : ShiftedReg)
  | strReg (c : Cond) (ix : Indexing) (rn rd : Reg) (off : ShiftedReg)
  | ldrbReg (c : Cond) (ix : Indexing) (rn rd : Reg) (off : ShiftedReg)
  | strbReg (c : Cond) (ix : Indexing) (rn rd : Reg) (off : ShiftedReg)
  -- block data transfer (rule R70)
  | ldm (c : Cond) (bm : BlockMode) (rn : Reg) (list : BitVec 16)
  | stm (c : Cond) (bm : BlockMode) (rn : Reg) (list : BitVec 16)
  -- the error rows of the table: the word itself, which the error carries (rules R61, R66, R68, R69, R79)
  | errReservedCondition (w : Word)
  | errHalfword01 (w : Word)
  | errHalfword10 (w : Word)
  | errHalfword11 (w : Word)
  | errUndefined (w : Word)
  | errCoprocessorOrSwi (w : Word)
deriving DecidableEq, Repr

end Sys2Proof
end

