-- ==== Sys2Proof/WellFormed.lean ====
section
/-! DEFINITION. Which terms of `Instr` the decoder can deliver. Every field of an instruction is typed at exactly the
width its encoding has, so a term of a non-error constructor is always well formed; an error constructor is well formed
when the word it carries belongs to its row of the opcode table (`30_encoding.md` rules R79, R83). -/

namespace Sys2Proof

/-- The word belongs to the table row with this mask and match (rule R83). -/
abbrev inRow (mask matched w : Word) : Bool := w &&& mask == matched

/-- The word's condition field is not the reserved value 15, so the reserved-condition row does not take it first
(rules R78, R83). -/
abbrev hasCondition (w : Word) : Bool := !inRow 0xF0000000 0xF0000000 w

/-- The terms the decoder delivers, constructor by constructor. -/
def Instr.wellFormed : Instr → Bool
  | .andImm .. => true
  | .eorImm .. => true
  | .subImm .. => true
  | .rsbImm .. => true
  | .addImm .. => true
  | .adcImm .. => true
  | .sbcImm .. => true
  | .rscImm .. => true
  | .tstImm .. => true
  | .teqImm .. => true
  | .cmpImm .. => true
  | .cmnImm .. => true
  | .orrImm .. => true
  | .movImm .. => true
  | .bicImm .. => true
  | .mvnImm .. => true
  | .andReg .. => true
  | .eorReg .. => true
  | .subReg .. => true
  | .rsbReg .. => true
  | .addReg .. => true
  | .adcReg .. => true
  | .sbcReg .. => true
  | .rscReg .. => true
  | .tstReg .. => true
  | .teqReg .. => true
  | .cmpReg .. => true
  | .cmnReg .. => true
  | .orrReg .. => true
  | .movReg .. => true
  | .bicReg .. => true
  | .mvnReg .. => true
  | .mul .. => true
  | .mla .. => true
  | .umull .. => true
  | .umlal .. => true
  | .smull .. => true
  | .smlal .. => true
  | .swp .. => true
  | .swpb .. => true
  | .b .. => true
  | .bl .. => true
  | .bx .. => true
  | .ldrImm .. => true
  | .strImm .. => true
  | .ldrbImm .. => true
  | .strbImm .. => true
  | .ldrReg .. => true
  | .strReg .. => true
  | .ldrbReg .. => true
  | .strbReg .. => true
  | .ldm .. => true
  | .stm .. => true
  | .errReservedCondition w => inRow 0xF0000000 0xF0000000 w
  | .errHalfword01 w => hasCondition w && inRow 0x0E0000F0 0x000000B0 w
  | .errHalfword10 w => hasCondition w && inRow 0x0E0000F0 0x000000D0 w
  | .errHalfword11 w => hasCondition w && inRow 0x0E0000F0 0x000000F0 w
  | .errUndefined w => hasCondition w && inRow 0x0E000010 0x06000010 w
  | .errCoprocessorOrSwi w => hasCondition w && inRow 0x0C000000 0x0C000000 w

end Sys2Proof
end

