-- ==== Sys2Proof/Decode.lean ====
section
/-! DEFINITION. The decoder of `30_encoding.md` (the tree of rule R62 and the field tables of rules R63 to R70), total
on any word and on any list of bytes, the encoder written from the same tables, and the opcode table's masks. -/

namespace Sys2Proof

/-- Bit i of a word (rule R8). -/
abbrev bitAt (w : Word) (i : Nat) : Bool := w.getLsbD i

/-- The n bits of a word from bit lo upward (rule R8). -/
abbrev fieldAt (w : Word) (lo n : Nat) : BitVec n := w.extractLsb' lo n

/-- A 4-bit register field (rules R63 to R70). -/
def regAt (w : Word) (lo : Nat) : Reg := (fieldAt w lo 4).toFin

/-- A register number as its 4-bit field. -/
def Reg.bits (r : Reg) : BitVec 4 := BitVec.ofFin r

/-- A field placed with its lowest bit at bit lo of a word. -/
def placeAt (lo : Nat) {n : Nat} (x : BitVec n) : Word := x.setWidth 32 <<< lo

/-! ## Conditions and shift descriptors -/

/-- Decode step 1 (rule R61), from bits 31, 30, 29, 28: value 15 is no condition. -/
def Cond.ofBits (b31 b30 b29 b28 : Bool) : Option Cond :=
  match b31, b30, b29, b28 with
  | false, false, false, false => some .eq
  | false, false, false, true => some .ne
  | false, false, true, false => some .cs
  | false, false, true, true => some .cc
  | false, true, false, false => some .mi
  | false, true, false, true => some .pl
  | false, true, true, false => some .vs
  | false, true, true, true => some .vc
  | true, false, false, false => some .hi
  | true, false, false, true => some .ls
  | true, false, true, false => some .ge
  | true, false, true, true => some .lt
  | true, true, false, false => some .gt
  | true, true, false, true => some .le
  | true, true, true, false => some .al
  | true, true, true, true => none

/-- The value of a condition code (rule R110). -/
def Cond.bits : Cond → BitVec 4
  | .eq => 0
  | .ne => 1
  | .cs => 2
  | .cc => 3
  | .mi => 4
  | .pl => 5
  | .vs => 6
  | .vc => 7
  | .hi => 8
  | .ls => 9
  | .ge => 10
  | .lt => 11
  | .gt => 12
  | .le => 13
  | .al => 14

/-- The shift type of bits 6 and 5 (rule R64). -/
def ShiftKind.ofBits (b6 b5 : Bool) : ShiftKind :=
  match b6, b5 with
  | false, false => .lsl
  | false, true => .lsr
  | true, false => .asr
  | true, true => .ror

/-- The value of a shift type (rule R64). -/
def ShiftKind.bits : ShiftKind → BitVec 2
  | .lsl => 0
  | .lsr => 1
  | .asr => 2
  | .ror => 3

/-- The rotated immediate of rule R63. -/
def rotImmOf (w : Word) : RotImm := ⟨fieldAt w 8 4, fieldAt w 0 8⟩

/-- The shift descriptor of rules R64 and R68. -/
def shiftedRegOf (w : Word) : ShiftedReg :=
  ⟨regAt w 0, ShiftKind.ofBits (bitAt w 6) (bitAt w 5), fieldAt w 7 5⟩

/-- The control bits P, U, W of rule R68. -/
def indexingOf (w : Word) : Indexing := ⟨bitAt w 24, bitAt w 23, bitAt w 21⟩

/-- The control bits P, U, S, W of rule R70. -/
def blockModeOf (w : Word) : BlockMode := ⟨bitAt w 24, bitAt w 23, bitAt w 22, bitAt w 21⟩

/-! ## The decode tree -/

/-- The opcode table of rule R63 for an immediate operand2, from bits 24, 23, 22, 21. -/
def dpImmOf (b24 b23 b22 b21 : Bool) : Cond → Bool → Reg → Reg → RotImm → Instr :=
  match b24, b23, b22, b21 with
  | false, false, false, false => .andImm
  | false, false, false, true => .eorImm
  | false, false, true, false => .subImm
  | false, false, true, true => .rsbImm
  | false, true, false, false => .addImm
  | false, true, false, true => .adcImm
  | false, true, true, false => .sbcImm
  | false, true, true, true => .rscImm
  | true, false, false, false => .tstImm
  | true, false, false, true => .teqImm
  | true, false, true, false => .cmpImm
  | true, false, true, true => .cmnImm
  | true, true, false, false => .orrImm
  | true, true, false, true => .movImm
  | true, true, true, false => .bicImm
  | true, true, true, true => .mvnImm

/-- The same table for a register operand2 (rule R64). -/
def dpRegOf (b24 b23 b22 b21 : Bool) : Cond → Bool → Reg → Reg → ShiftedReg → Instr :=
  match b24, b23, b22, b21 with
  | false, false, false, false => .andReg
  | false, false, false, true => .eorReg
  | false, false, true, false => .subReg
  | false, false, true, true => .rsbReg
  | false, true, false, false => .addReg
  | false, true, false, true => .adcReg
  | false, true, true, false => .sbcReg
  | false, true, true, true => .rscReg
  | true, false, false, false => .tstReg
  | true, false, false, true => .teqReg
  | true, false, true, false => .cmpReg
  | true, false, true, true => .cmnReg
  | true, true, false, false => .orrReg
  | true, true, false, true => .movReg
  | true, true, true, false => .bicReg
  | true, true, true, true => .mvnReg

/-- DataProcessing with an immediate operand2 (rule R63). -/
def decodeDpImm (c : Cond) (w : Word) : Instr :=
  dpImmOf (bitAt w 24) (bitAt w 23) (bitAt w 22) (bitAt w 21) c (bitAt w 20) (regAt w 16) (regAt w 12) (rotImmOf w)

/-- DataProcessing with a register operand2 (rule R64). -/
def decodeDpReg (c : Cond) (w : Word) : Instr :=
  dpRegOf (bitAt w 24) (bitAt w 23) (bitAt w 22) (bitAt w 21) c (bitAt w 20) (regAt w 16) (regAt w 12)
    (shiftedRegOf w)

/-- BranchExchange (rule R65): bits 24:8 and 6:5 are not looked at. -/
def decodeBx (c : Cond) (w : Word) : Instr := .bx c (regAt w 0)

/-- Swap (rule R67): bit 22 is B; bits 23, 21:20 and 11:8 are not looked at. -/
def decodeSwap (c : Cond) (w : Word) : Instr :=
  match bitAt w 22 with
  | false => .swp c (regAt w 16) (regAt w 12) (regAt w 0)
  | true => .swpb c (regAt w 16) (regAt w 12) (regAt w 0)

/-- MultiplyLong (rule R67): bit 22 is signed, bit 21 accumulate. -/
def decodeMulLong (c : Cond) (w : Word) : Instr :=
  match bitAt w 22, bitAt w 21 with
  | false, false => .umull c (bitAt w 20) (regAt w 16) (regAt w 12) (regAt w 8) (regAt w 0)
  | false, true => .umlal c (bitAt w 20) (regAt w 16) (regAt w 12) (regAt w 8) (regAt w 0)
  | true, false => .smull c (bitAt w 20) (regAt w 16) (regAt w 12) (regAt w 8) (regAt w 0)
  | true, true => .smlal c (bitAt w 20) (regAt w 16) (regAt w 12) (regAt w 8) (regAt w 0)

/-- Multiply (rule R67): bit 21 is accumulate; bit 22 is not looked at. -/
def decodeMul (c : Cond) (w : Word) : Instr :=
  match bitAt w 21 with
  | false => .mul c (bitAt w 20) (regAt w 16) (regAt w 12) (regAt w 8) (regAt w 0)
  | true => .mla c (bitAt w 20) (regAt w 16) (regAt w 12) (regAt w 8) (regAt w 0)

/-- The words with bit 4 and bit 7 set in class 000: the halfword bucket (rule R66), Swap, MultiplyLong, Multiply. -/
def decodeExtension (c : Cond) (w : Word) : Instr :=
  match bitAt w 6, bitAt w 5 with
  | false, true => .errHalfword01 w
  | true, false => .errHalfword10 w
  | true, true => .errHalfword11 w
  | false, false =>
    if bitAt w 24 then decodeSwap c w else if bitAt w 23 then decodeMulLong c w else decodeMul c w

/-- SingleDataTransfer with an immediate offset (rule R68, I = 0), by L (bit 20) and B (bit 22). -/
def decodeSingleImm (c : Cond) (w : Word) : Instr :=
  match bitAt w 20, bitAt w 22 with
  | true, false => .ldrImm c (indexingOf w) (regAt w 16) (regAt w 12) (fieldAt w 0 12)
  | false, false => .strImm c (indexingOf w) (regAt w 16) (regAt w 12) (fieldAt w 0 12)
  | true, true => .ldrbImm c (indexingOf w) (regAt w 16) (regAt w 12) (fieldAt w 0 12)
  | false, true => .strbImm c (indexingOf w) (regAt w 16) (regAt w 12) (fieldAt w 0 12)

/-- SingleDataTransfer with a register offset (rule R68, I = 1). -/
def decodeSingleReg (c : Cond) (w : Word) : Instr :=
  match bitAt w 20, bitAt w 22 with
  | true, false => .ldrReg c (indexingOf w) (regAt w 16) (regAt w 12) (shiftedRegOf w)
  | false, false => .strReg c (indexingOf w) (regAt w 16) (regAt w 12) (shiftedRegOf w)
  | true, true => .ldrbReg c (indexingOf w) (regAt w 16) (regAt w 12) (shiftedRegOf w)
  | false, true => .strbReg c (indexingOf w) (regAt w 16) (regAt w 12) (shiftedRegOf w)

/-- BlockDataTransfer (rule R70), by L (bit 20). -/
def decodeBlock (c : Cond) (w : Word) : Instr :=
  match bitAt w 20 with
  | true => .ldm c (blockModeOf w) (regAt w 16) (fieldAt w 0 16)
  | false => .stm c (blockModeOf w) (regAt w 16) (fieldAt w 0 16)

/-- Branch (rule R70), by L (bit 24). -/
def decodeBranch (c : Cond) (w : Word) : Instr :=
  match bitAt w 24 with
  | false => .b c (fieldAt w 0 24)
  | true => .bl c (fieldAt w 0 24)

/-- Decode step 2 (rule R62), in the order of its tests. -/
def decodeBody (c : Cond) (w : Word) : Instr :=
  match bitAt w 27, bitAt w 26 with
  | false, false =>
    if bitAt w 25 then decodeDpImm c w
    else if bitAt w 4 = false then decodeDpReg c w
    else if bitAt w 7 = false then decodeBx c w
    else decodeExtension c w
  | false, true =>
    if bitAt w 25 = false then decodeSingleImm c w
    else if bitAt w 4 then .errUndefined w
    else decodeSingleReg c w
  | true, false => if bitAt w 25 then decodeBranch c w else decodeBlock c w
  | true, true => .errCoprocessorOrSwi w

/-- The decoder on one word: the condition first (rules R61, R78), then the body. Every word belongs to exactly one row
of the opcode table (rule R83), and this is that row's constructor with its fields. -/
def decodeWord (w : Word) : Instr :=
  match Cond.ofBits (bitAt w 31) (bitAt w 30) (bitAt w 29) (bitAt w 28) with
  | none => .errReservedCondition w
  | some c => decodeBody c w

/-! ## The decoder's result as the spec types it -/

/-- A DecodeError carries the offending word and a reason (rule R76). -/
structure DecodeError where
  word : Word
  reason : DecodeReason
deriving DecidableEq, Repr

/-- The condition bits a DecodeError carries for diagnostics (rule R76). -/
def DecodeError.condBits (e : DecodeError) : BitVec 4 := fieldAt e.word 28 4

/-- The error an error row stands for; none for an instruction (rule R79). -/
def Instr.decodeError : Instr → Option DecodeError
  | .errReservedCondition w => some ⟨w, .reservedCondition⟩
  | .errHalfword01 w => some ⟨w, .halfwordTransfer⟩
  | .errHalfword10 w => some ⟨w, .halfwordTransfer⟩
  | .errHalfword11 w => some ⟨w, .halfwordTransfer⟩
  | .errUndefined w => some ⟨w, .undefinedEncoding⟩
  | .errCoprocessorOrSwi w => some ⟨w, .coprocessorOrSwi⟩
  | .andImm .. => none
  | .eorImm .. => none
  | .subImm .. => none
  | .rsbImm .. => none
  | .addImm .. => none
  | .adcImm .. => none
  | .sbcImm .. => none
  | .rscImm .. => none
  | .tstImm .. => none
  | .teqImm .. => none
  | .cmpImm .. => none
  | .cmnImm .. => none
  | .orrImm .. => none
  | .movImm .. => none
  | .bicImm .. => none
  | .mvnImm .. => none
  | .andReg .. => none
  | .eorReg .. => none
  | .subReg .. => none
  | .rsbReg .. => none
  | .addReg .. => none
  | .adcReg .. => none
  | .sbcReg .. => none
  | .rscReg .. => none
  | .tstReg .. => none
  | .teqReg .. => none
  | .cmpReg .. => none
  | .cmnReg .. => none
  | .orrReg .. => none
  | .movReg .. => none
  | .bicReg .. => none
  | .mvnReg .. => none
  | .mul .. => none
  | .mla .. => none
  | .umull .. => none
  | .umlal .. => none
  | .smull .. => none
  | .smlal .. => none
  | .swp .. => none
  | .swpb .. => none
  | .b .. => none
  | .bl .. => none
  | .bx .. => none
  | .ldrImm .. => none
  | .strImm .. => none
  | .ldrbImm .. => none
  | .strbImm .. => none
  | .ldrReg .. => none
  | .strReg .. => none
  | .ldrbReg .. => none
  | .strbReg .. => none
  | .ldm .. => none
  | .stm .. => none

/-- The condition an instruction is paired with (rule R76); an error row has none. -/
def Instr.cond : Instr → Option Cond
  | .andImm c .. => some c
  | .eorImm c .. => some c
  | .subImm c .. => some c
  | .rsbImm c .. => some c
  | .addImm c .. => some c
  | .adcImm c .. => some c
  | .sbcImm c .. => some c
  | .rscImm c .. => some c
  | .tstImm c .. => some c
  | .teqImm c .. => some c
  | .cmpImm c .. => some c
  | .cmnImm c .. => some c
  | .orrImm c .. => some c
  | .movImm c .. => some c
  | .bicImm c .. => some c
  | .mvnImm c .. => some c
  | .andReg c .. => some c
  | .eorReg c .. => some c
  | .subReg c .. => some c
  | .rsbReg c .. => some c
  | .addReg c .. => some c
  | .adcReg c .. => some c
  | .sbcReg c .. => some c
  | .rscReg c .. => some c
  | .tstReg c .. => some c
  | .teqReg c .. => some c
  | .cmpReg c .. => some c
  | .cmnReg c .. => some c
  | .orrReg c .. => some c
  | .movReg c .. => some c
  | .bicReg c .. => some c
  | .mvnReg c .. => some c
  | .mul c .. => some c
  | .mla c .. => some c
  | .umull c .. => some c
  | .umlal c .. => some c
  | .smull c .. => some c
  | .smlal c .. => some c
  | .swp c .. => some c
  | .swpb c .. => some c
  | .b c .. => some c
  | .bl c .. => some c
  | .bx c .. => some c
  | .ldrImm c .. => some c
  | .strImm c .. => some c
  | .ldrbImm c .. => some c
  | .strbImm c .. => some c
  | .ldrReg c .. => some c
  | .strReg c .. => some c
  | .ldrbReg c .. => some c
  | .strbReg c .. => some c
  | .ldm c .. => some c
  | .stm c .. => some c
  | .errReservedCondition _ => none
  | .errHalfword01 _ => none
  | .errHalfword10 _ => none
  | .errHalfword11 _ => none
  | .errUndefined _ => none
  | .errCoprocessorOrSwi _ => none

/-- The contract of the decoder (rules R76, R77): every word yields an instruction or a DecodeError by name. -/
def decode (w : Word) : Except DecodeError Instr :=
  match (decodeWord w).decodeError with
  | some e => .error e
  | none => .ok (decodeWord w)

/-! ## Bytes -/

/-- Why bytes do not hold an instruction word: fewer than four of them (rule R60, there is one length). -/
inductive BytesReject where
  | truncated
deriving DecidableEq, Repr

/-- The word of four bytes, the first at the lowest address and least significant (rules R42, R60). -/
def wordOfBytes (b0 b1 b2 b3 : Byte) : Word :=
  placeAt 24 b3 ||| placeAt 16 b2 ||| placeAt 8 b1 ||| placeAt 0 b0

/-- The instruction at the head of a list of bytes, and the bytes after it. -/
def decodeBytes : List Byte → Except BytesReject (Instr × List Byte)
  | b0 :: b1 :: b2 :: b3 :: rest => .ok (decodeWord (wordOfBytes b0 b1 b2 b3), rest)
  | _ => .error .truncated

/-- The bytes of a word, lowest address first (rule R45). -/
def bytesOfWord (w : Word) : List Byte := [fieldAt w 0 8, fieldAt w 8 8, fieldAt w 16 8, fieldAt w 24 8]

/-- The decoder's answer for a row of the opcode table: the word's lowest nbits bits, laid out as the hardware stores
them, through the decoder on bytes. -/
def decodeTableWord (nbits w : Nat) : Option Instr :=
  match decodeBytes (bytesOfWord (BitVec.ofNat 32 (w % 2 ^ nbits))) with
  | .ok (i, _) => some i
  | .error _ => none

/-! ## The encoder -/

/-- The descriptor bits of a shifted register (rules R64, R68). -/
def ShiftedReg.word (o : ShiftedReg) : Word := placeAt 7 o.amount ||| placeAt 5 o.kind.bits ||| placeAt 0 (Reg.bits o.rm)

/-- Rule R63, by its table. -/
def encodeDpImm (op : BitVec 4) (c : Cond) (s : Bool) (rn rd : Reg) (o : RotImm) : Word :=
  placeAt 28 c.bits ||| placeAt 25 0b001#3 ||| placeAt 21 op ||| placeAt 20 (BitVec.ofBool s) |||
    placeAt 16 (Reg.bits rn) ||| placeAt 12 (Reg.bits rd) ||| placeAt 8 o.rotate ||| placeAt 0 o.imm8

/-- Rule R64, by its table. -/
def encodeDpReg (op : BitVec 4) (c : Cond) (s : Bool) (rn rd : Reg) (o : ShiftedReg) : Word :=
  placeAt 28 c.bits ||| placeAt 25 0b000#3 ||| placeAt 21 op ||| placeAt 20 (BitVec.ofBool s) |||
    placeAt 16 (Reg.bits rn) ||| placeAt 12 (Reg.bits rd) ||| o.word

/-- Rule R67, Multiply and MultiplyLong: `kind` is bits 24:21 (for Multiply the ignored bit 22 is written as 0). -/
def encodeMultiply (kind : BitVec 4) (c : Cond) (s : Bool) (r19 r15 rs rm : Reg) : Word :=
  placeAt 28 c.bits ||| placeAt 25 0b000#3 ||| placeAt 21 kind ||| placeAt 20 (BitVec.ofBool s) |||
    placeAt 16 (Reg.bits r19) ||| placeAt 12 (Reg.bits r15) ||| placeAt 8 (Reg.bits rs) ||| placeAt 4 0b1001#4 |||
    placeAt 0 (Reg.bits rm)

/-- Rule R67, Swap: the ignored bits are written as 0. -/
def encodeSwap (byteSize : Bool) (c : Cond) (rn rd rm : Reg) : Word :=
  placeAt 28 c.bits ||| placeAt 24 0b0001#4 ||| placeAt 22 (BitVec.ofBool byteSize) ||| placeAt 16 (Reg.bits rn) |||
    placeAt 12 (Reg.bits rd) ||| placeAt 4 0b1001#4 ||| placeAt 0 (Reg.bits rm)

/-- Rule R68: everything but the offset field. -/
def encodeSingle (i byteSize load : Bool) (c : Cond) (ix : Indexing) (rn rd : Reg) (offset : Word) : Word :=
  placeAt 28 c.bits ||| placeAt 26 0b01#2 ||| placeAt 25 (BitVec.ofBool i) ||| placeAt 24 (BitVec.ofBool ix.p) |||
    placeAt 23 (BitVec.ofBool ix.u) ||| placeAt 22 (BitVec.ofBool byteSize) ||| placeAt 21 (BitVec.ofBool ix.w) |||
    placeAt 20 (BitVec.ofBool load) ||| placeAt 16 (Reg.bits rn) ||| placeAt 12 (Reg.bits rd) ||| offset

/-- Rule R70, BlockDataTransfer. -/
def encodeBlock (load : Bool) (c : Cond) (bm : BlockMode) (rn : Reg) (list : BitVec 16) : Word :=
  placeAt 28 c.bits ||| placeAt 25 0b100#3 ||| placeAt 24 (BitVec.ofBool bm.p) ||| placeAt 23 (BitVec.ofBool bm.u) |||
    placeAt 22 (BitVec.ofBool bm.s) ||| placeAt 21 (BitVec.ofBool bm.w) ||| placeAt 20 (BitVec.ofBool load) |||
    placeAt 16 (Reg.bits rn) ||| placeAt 0 list

/-- Rule R70, Branch. -/
def encodeBranch (link : Bool) (c : Cond) (offset24 : BitVec 24) : Word :=
  placeAt 28 c.bits ||| placeAt 25 0b101#3 ||| placeAt 24 (BitVec.ofBool link) ||| placeAt 0 offset24

/-- Rule R65: the bits the decoder does not look at are written as the word `BX Rm` of that rule has them
(bits 27:4 = 0x12FFF1; log entry 9). -/
def encodeBx (c : Cond) (rm : Reg) : Word := placeAt 28 c.bits ||| placeAt 4 0x12FFF1#24 ||| placeAt 0 (Reg.bits rm)

/-- The word of a well-formed instruction. -/
def encode : Instr → Word
  | .andImm c s rn rd o => encodeDpImm 0 c s rn rd o
  | .eorImm c s rn rd o => encodeDpImm 1 c s rn rd o
  | .subImm c s rn rd o => encodeDpImm 2 c s rn rd o
  | .rsbImm c s rn rd o => encodeDpImm 3 c s rn rd o
  | .addImm c s rn rd o => encodeDpImm 4 c s rn rd o
  | .adcImm c s rn rd o => encodeDpImm 5 c s rn rd o
  | .sbcImm c s rn rd o => encodeDpImm 6 c s rn rd o
  | .rscImm c s rn rd o => encodeDpImm 7 c s rn rd o
  | .tstImm c s rn rd o => encodeDpImm 8 c s rn rd o
  | .teqImm c s rn rd o => encodeDpImm 9 c s rn rd o
  | .cmpImm c s rn rd o => encodeDpImm 10 c s rn rd o
  | .cmnImm c s rn rd o => encodeDpImm 11 c s rn rd o
  | .orrImm c s rn rd o => encodeDpImm 12 c s rn rd o
  | .movImm c s rn rd o => encodeDpImm 13 c s rn rd o
  | .bicImm c s rn rd o => encodeDpImm 14 c s rn rd o
  | .mvnImm c s rn rd o => encodeDpImm 15 c s rn rd o
  | .andReg c s rn rd o => encodeDpReg 0 c s rn rd o
  | .eorReg c s rn rd o => encodeDpReg 1 c s rn rd o
  | .subReg c s rn rd o => encodeDpReg 2 c s rn rd o
  | .rsbReg c s rn rd o => encodeDpReg 3 c s rn rd o
  | .addReg c s rn rd o => encodeDpReg 4 c s rn rd o
  | .adcReg c s rn rd o => encodeDpReg 5 c s rn rd o
  | .sbcReg c s rn rd o => encodeDpReg 6 c s rn rd o
  | .rscReg c s rn rd o => encodeDpReg 7 c s rn rd o
  | .tstReg c s rn rd o => encodeDpReg 8 c s rn rd o
  | .teqReg c s rn rd o => encodeDpReg 9 c s rn rd o
  | .cmpReg c s rn rd o => encodeDpReg 10 c s rn rd o
  | .cmnReg c s rn rd o => encodeDpReg 11 c s rn rd o
  | .orrReg c s rn rd o => encodeDpReg 12 c s rn rd o
  | .movReg c s rn rd o => encodeDpReg 13 c s rn rd o
  | .bicReg c s rn rd o => encodeDpReg 14 c s rn rd o
  | .mvnReg c s rn rd o => encodeDpReg 15 c s rn rd o
  | .mul c s rd rn rs rm => encodeMultiply 0b0000 c s rd rn rs rm
  | .mla c s rd rn rs rm => encodeMultiply 0b0001 c s rd rn rs rm
  | .umull c s rdHi rdLo rs rm => encodeMultiply 0b0100 c s rdHi rdLo rs rm
  | .umlal c s rdHi rdLo rs rm => encodeMultiply 0b0101 c s rdHi rdLo rs rm
  | .smull c s rdHi rdLo rs rm => encodeMultiply 0b0110 c s rdHi rdLo rs rm
  | .smlal c s rdHi rdLo rs rm => encodeMultiply 0b0111 c s rdHi rdLo rs rm
  | .swp c rn rd rm => encodeSwap false c rn rd rm
  | .swpb c rn rd rm => encodeSwap true c rn rd rm
  | .b c offset24 => encodeBranch false c offset24
  | .bl c offset24 => encodeBranch true c offset24
  | .bx c rm => encodeBx c rm
  | .ldrImm c ix rn rd imm12 => encodeSingle false false true c ix rn rd (placeAt 0 imm12)
  | .strImm c ix rn rd imm12 => encodeSingle false false false c ix rn rd (placeAt 0 imm12)
  | .ldrbImm c ix rn rd imm12 => encodeSingle false true true c ix rn rd (placeAt 0 imm12)
  | .strbImm c ix rn rd imm12 => encodeSingle false true false c ix rn rd (placeAt 0 imm12)
  | .ldrReg c ix rn rd off => encodeSingle true false true c ix rn rd off.word
  | .strReg c ix rn rd off => encodeSingle true false false c ix rn rd off.word
  | .ldrbReg c ix rn rd off => encodeSingle true true true c ix rn rd off.word
  | .strbReg c ix rn rd off => encodeSingle true true false c ix rn rd off.word
  | .ldm c bm rn list => encodeBlock true c bm rn list
  | .stm c bm rn list => encodeBlock false c bm rn list
  | .errReservedCondition w => w
  | .errHalfword01 w => w
  | .errHalfword10 w => w
  | .errHalfword11 w => w
  | .errUndefined w => w
  | .errCoprocessorOrSwi w => w

/-! ## The opcode table -/

/-- The mask and the match of an opcode-table row (rule R83). -/
def Instr.row : Instr → Word × Word
  | .andImm .. => (0x0FE00000, 0x02000000)
  | .eorImm .. => (0x0FE00000, 0x02200000)
  | .subImm .. => (0x0FE00000, 0x02400000)
  | .rsbImm .. => (0x0FE00000, 0x02600000)
  | .addImm .. => (0x0FE00000, 0x02800000)
  | .adcImm .. => (0x0FE00000, 0x02A00000)
  | .sbcImm .. => (0x0FE00000, 0x02C00000)
  | .rscImm .. => (0x0FE00000, 0x02E00000)
  | .tstImm .. => (0x0FE00000, 0x03000000)
  | .teqImm .. => (0x0FE00000, 0x03200000)
  | .cmpImm .. => (0x0FE00000, 0x03400000)
  | .cmnImm .. => (0x0FE00000, 0x03600000)
  | .orrImm .. => (0x0FE00000, 0x03800000)
  | .movImm .. => (0x0FE00000, 0x03A00000)
  | .bicImm .. => (0x0FE00000, 0x03C00000)
  | .mvnImm .. => (0x0FE00000, 0x03E00000)
  | .andReg .. => (0x0FE00010, 0x00000000)
  | .eorReg .. => (0x0FE00010, 0x00200000)
  | .subReg .. => (0x0FE00010, 0x00400000)
  | .rsbReg .. => (0x0FE00010, 0x00600000)
  | .addReg .. => (0x0FE00010, 0x00800000)
  | .adcReg .. => (0x0FE00010, 0x00A00000)
  | .sbcReg .. => (0x0FE00010, 0x00C00000)
  | .rscReg .. => (0x0FE00010, 0x00E00000)
  | .tstReg .. => (0x0FE00010, 0x01000000)
  | .teqReg .. => (0x0FE00010, 0x01200000)
  | .cmpReg .. => (0x0FE00010, 0x01400000)
  | .cmnReg .. => (0x0FE00010, 0x01600000)
  | .orrReg .. => (0x0FE00010, 0x01800000)
  | .movReg .. => (0x0FE00010, 0x01A00000)
  | .bicReg .. => (0x0FE00010, 0x01C00000)
  | .mvnReg .. => (0x0FE00010, 0x01E00000)
  | .mul .. => (0x0FA000F0, 0x00000090)
  | .mla .. => (0x0FA000F0, 0x00200090)
  | .umull .. => (0x0FE000F0, 0x00800090)
  | .umlal .. => (0x0FE000F0, 0x00A00090)
  | .smull .. => (0x0FE000F0, 0x00C00090)
  | .smlal .. => (0x0FE000F0, 0x00E00090)
  | .swp .. => (0x0F4000F0, 0x01000090)
  | .swpb .. => (0x0F4000F0, 0x01400090)
  | .b .. => (0x0F000000, 0x0A000000)
  | .bl .. => (0x0F000000, 0x0B000000)
  | .bx .. => (0x0E000090, 0x00000010)
  | .ldrImm .. => (0x0E500000, 0x04100000)
  | .strImm .. => (0x0E500000, 0x04000000)
  | .ldrbImm .. => (0x0E500000, 0x04500000)
  | .strbImm .. => (0x0E500000, 0x04400000)
  | .ldrReg .. => (0x0E500010, 0x06100000)
  | .strReg .. => (0x0E500010, 0x06000000)
  | .ldrbReg .. => (0x0E500010, 0x06500000)
  | .strbReg .. => (0x0E500010, 0x06400000)
  | .ldm .. => (0x0E100000, 0x08100000)
  | .stm .. => (0x0E100000, 0x08000000)
  | .errReservedCondition .. => (0xF0000000, 0xF0000000)
  | .errHalfword01 .. => (0x0E0000F0, 0x000000B0)
  | .errHalfword10 .. => (0x0E0000F0, 0x000000D0)
  | .errHalfword11 .. => (0x0E0000F0, 0x000000F0)
  | .errUndefined .. => (0x0E000010, 0x06000010)
  | .errCoprocessorOrSwi .. => (0x0C000000, 0x0C000000)

end Sys2Proof
end

