-- ==== Sys2Proof/Machine/State.lean ====
section
/-! DEFINITION. The state of the machine (`10_state.md`, `20_memory.md`), the reasons a step can stop
(`60_exceptions.md` rules R200 to R202), and the state after reset (rule R35). -/

namespace Sys2Proof.Machine

/-- The four condition flags (rule R26). -/
structure Flags where
  n : Bool
  z : Bool
  c : Bool
  v : Bool
deriving DecidableEq, Repr

/-- The execution-state tag T (rules R26, R28). -/
inductive ExecState where
  | arm
  | thumb
deriving DecidableEq, Repr

/-- The status word as a record: the spec gives it no layout and nothing moves it whole (rule R26, decision D6). -/
structure StatusWord where
  flags : Flags
  tag : ExecState
  /-- Interrupt-mask and mode bits: carried, never consulted (rule R29). -/
  opaqueBits : Config.OpaqueBits
deriving DecidableEq, Repr

/-- What the executor reports to the sequencer (rule R95). -/
inductive ExecOutcome where
  | continued
  | redirected
deriving DecidableEq, Repr

/-- The report of a call of `advance` (rule R100, decision D4). -/
inductive StepReport where
  | bubble
  | skipped
  | executed (o : ExecOutcome)
deriving DecidableEq, Repr

/-- The address map of the memory collaborator (rules R49 to R51): the parts of it that the open parameters fix. -/
structure MemMap where
  iwramBase : Word
  ewramBase : Word
  firmwareLen : Nat
  romLen : Nat
  roWritable : Bool
deriving DecidableEq, Repr

/-- Memory: its map and the bytes that are not zero, by rising address. An unlisted address reads as 0, which the spec
says of RAM, of a region beyond its image and of unmapped addresses alike (rules R49, R50). -/
structure Memory where
  map : MemMap
  cells : List Host.Cell
deriving DecidableEq, Repr

/-- All the state the spec gives the machine, and the model's own two fields `report` and `draws`. -/
structure State where
  /-- R0 to R15; R15 is the program counter (rules R20, R24). -/
  regs : Vector Word 16
  /-- The status word (rule R26). -/
  status : StatusWord
  /-- `fetched` (rule R31). -/
  fetchLatch : Option Word
  /-- `decoded` (rule R31). -/
  decodeLatch : Option Word
  /-- The memory collaborator (rule R40). -/
  mem : Memory
  /-- What the last call reported (rule R100): the model's own field, which carries the executor's outcome to the
  sequencer and the report to the host. -/
  report : StepReport
  /-- How many draws have been taken (rule R14): the model's own field. -/
  draws : Nat
deriving DecidableEq, Repr

/-- The reasons of an UnimplementedOperation (rule R202; the names are decision D22). -/
inductive UnimplementedReason where
  /-- A call of `advance` in Thumb state (rule R93). -/
  | thumbState
  /-- A non-branch instruction that would write R15 (decision D5). -/
  | writesPc
  /-- R15 in an operand position without a defined value (decision D20). -/
  | pcOperand
  /-- Coinciding operands of a multiply (rule R151). -/
  | multiplyOperandRestriction
  /-- Coinciding operands of a swap (rule R161). -/
  | swapOperandRestriction
  /-- Write-back to a base that is also transferred or is its own offset (rules R182, R192). -/
  | baseRegisterConflict
  /-- A block transfer with the force-mode-bits flag (decision D13). -/
  | forceModeBits
  /-- A block transfer with an empty list (decision D14). -/
  | emptyRegisterList
deriving DecidableEq, Repr

/-- Why the machine stops: the two error kinds of rule R200. A step that faults has no next state, which is the spec's
"no state changed by the call" (rules R13, R99): the error repeats for ever (rule R230). -/
inductive Fault where
  /-- Raised by the six error rows of the opcode table when such a word leaves the decode latch (rules R79, R201). Safe:
  the spec says the word is not an instruction. -/
  | decodeError (e : DecodeError)
  /-- Raised by the sequencer in Thumb state and by the executor for the forms of rule R202. Safe: the spec says that
  the call reports this error and changes nothing. -/
  | unimplementedOperation (r : UnimplementedReason)
deriving DecidableEq, Repr

/-- Why a step has no meaning. -/
inductive Refusal where
  /-- Raised by an arm of `exec` whose instruction has no meaning yet. Safe. -/
  | notModelled (mnemonic : String)
deriving DecidableEq, Repr

/-- What an instruction or a step answers. -/
abbrev Res := Host.Outcome State Fault Refusal

/-- The state after reset (rules R35, R220) of a machine constructed from `Config.defaultParams`, with nothing loaded:
every register 0, flags 0 and T = Arm (decision D7), both latches empty, no byte of memory listed. The report and the
count of draws are the model's own (log entries 1, 5). -/
def State.reset : State where
  regs := #v[0, 0, 0, 0, 0, 0, 0, 0, 0, 0, 0, 0, 0, 0, 0, 0]
  status := ⟨⟨false, false, false, false⟩, .arm, 0xD3⟩
  fetchLatch := none
  decodeLatch := none
  mem := ⟨⟨0x03000000, 0x02000000, 0, 0, false⟩, []⟩
  report := .bubble
  draws := 0

end Sys2Proof.Machine
end

