-- ==== Sys2Proof/Machine/Ops.lean ====
section
/-! DEFINITION. The named operations over registers, status word and memory; the two error primitives, which stand in
this hardware for taking an exception (`60_exceptions.md` rule R208: an error enters no handler and saves nothing; rule
R209: there is no return); and the ends of an instruction. -/

namespace Sys2Proof.Machine

/-! ## Registers and status word -/

/-- `x[i]` (rule R11): the stored value, R15 included. -/
def State.reg (s : State) (r : Reg) : Word := s.regs[r.val]'r.isLt

/-- `x[i] <- v` (rule R11). -/
def State.setReg (s : State) (r : Reg) (v : Word) : State := { s with regs := s.regs.set r.val v r.isLt }

/-- The stored R15 (rule R24). -/
abbrev State.pc (s : State) : Word := s.reg Reg.pc

/-- The four flags. -/
abbrev State.flags (s : State) : Flags := s.status.flags

/-- The execution-state tag. -/
abbrev State.tag (s : State) : ExecState := s.status.tag

/-- Write the four flags; T and the opaque bits stay (rules R27, R29). -/
def State.setFlags (s : State) (f : Flags) : State := { s with status := { s.status with flags := f } }

/-- Write the flags if S = 1 (rule R27). -/
def State.setFlagsIf (s : State) (alter : Bool) (f : Flags) : State := if alter then s.setFlags f else s

/-- Write T; the flags and the opaque bits stay (rule R28). -/
def State.setTag (s : State) (t : ExecState) : State := { s with status := { s.status with tag := t } }

/-- Replace the memory. -/
def State.setMem (s : State) (m : Memory) : State := { s with mem := m }

/-- Set the report of the call. -/
def State.setReport (s : State) (r : StepReport) : State := { s with report := r }

/-- The next value of the counter of draws (rule R14). -/
def State.nextDraw (s : State) : State := { s with draws := s.draws + 1 }

/-! ## The address map (rules R49 to R51) -/

/-- The four mapped regions of rule R49. -/
inductive Region where
  | firmware
  | iwram
  | ewram
  | rom
deriving DecidableEq, Repr

/-- The base of the boot-firmware region. -/
def firmwareBase : Word := 0x00000000

/-- The base of the cartridge-ROM region. -/
def romBase : Word := 0x08000000

/-- The capacity of a region in bytes (rule R49). -/
def Region.capacity : Region → Nat
  | .firmware => 0x4000
  | .iwram => 0x8000
  | .ewram => 0x40000
  | .rom => 0x2000000

/-- The base of a region (rule R49). -/
def MemMap.base (m : MemMap) : Region → Word
  | .firmware => firmwareBase
  | .iwram => m.iwramBase
  | .ewram => m.ewramBase
  | .rom => romBase

/-- How many bytes of a region hold storage: all of a RAM, an image's length of the others (rules R49, R50). -/
def MemMap.extent (m : MemMap) : Region → Nat
  | .firmware => min m.firmwareLen Region.firmware.capacity
  | .iwram => Region.iwram.capacity
  | .ewram => Region.ewram.capacity
  | .rom => min m.romLen Region.rom.capacity

/-- The address lies in the storage of the region. -/
def MemMap.within (m : MemMap) (r : Region) (a : Nat) : Bool :=
  (m.base r).toNat ≤ a && a < (m.base r).toNat + m.extent r

/-- The address is backed by storage; the others read 0 and drop writes (rule R50). -/
def MemMap.backed (m : MemMap) (a : Nat) : Bool :=
  m.within .firmware a || m.within .iwram a || m.within .ewram a || m.within .rom a

/-- A write to the address replaces its byte: RAM always, a loaded image as RO_REGIONS_WRITABLE says (rules R43, R51). -/
def MemMap.writable (m : MemMap) (a : Nat) : Bool :=
  m.within .iwram a || m.within .ewram a || (m.roWritable && (m.within .firmware a || m.within .rom a))

/-- Two regions, taken at full capacity, share no address. -/
def MemMap.apart (m : MemMap) (r q : Region) : Bool :=
  (m.base r).toNat + r.capacity ≤ (m.base q).toNat || (m.base q).toNat + q.capacity ≤ (m.base r).toNat

/-- What rule R49 requires of a map: the regions disjoint, inside the address space, images no longer than their
region. -/
def MemMap.wf (m : MemMap) : Bool :=
  m.firmwareLen ≤ Region.firmware.capacity && m.romLen ≤ Region.rom.capacity &&
    m.iwramBase.toNat + Region.iwram.capacity ≤ 2 ^ 32 && m.ewramBase.toNat + Region.ewram.capacity ≤ 2 ^ 32 &&
    m.apart .firmware .iwram && m.apart .firmware .ewram && m.apart .iwram .ewram && m.apart .iwram .rom &&
    m.apart .ewram .rom

/-! ## The list of cells -/

/-- The byte a list of cells holds at a key; an unlisted key holds 0. -/
def cellAt : List Host.Cell → Nat → Byte
  | [], _ => 0
  | (k, v) :: rest, a => if k = a then v else cellAt rest a

/-- Put a byte at a key of a rising list: in its place, and no entry for 0. -/
def setCell : List Host.Cell → Nat → Byte → List Host.Cell
  | [], a, v => if v = 0#8 then [] else [(a, v)]
  | (k, u) :: rest, a, v =>
    if k < a then (k, u) :: setCell rest a v
    else if k = a then (if v = 0#8 then rest else (a, v) :: rest)
    else (if v = 0#8 then (k, u) :: rest else (a, v) :: (k, u) :: rest)

/-- Every key of the list is above the bound, the keys rise strictly, and no entry is 0. -/
def cellsAbove : Option Nat → List Host.Cell → Bool
  | _, [] => true
  | lo, (k, v) :: rest => (match lo with | none => true | some l => decide (l < k)) && v != 0#8 && cellsAbove (some k) rest

/-- The canonical form of memory: keys rising, no entry equal to what an unlisted address reads as, every entry at an
address that the map backs with storage. -/
def Memory.wf (m : Memory) : Bool :=
  cellsAbove none m.cells && m.cells.all fun cell => decide (cell.1 < 2 ^ 32) && m.map.backed cell.1

/-! ## The memory port (rules R41 to R44, R50, R51) -/

/-- `read_byte` (rules R41, R50). -/
def Memory.readByte (m : Memory) (a : Word) : Byte := if m.map.backed a.toNat then cellAt m.cells a.toNat else 0

/-- `write_byte` (rules R43, R50, R51): it does nothing where the address is not writable. -/
def Memory.writeByte (m : Memory) (a : Word) (v : Byte) : Memory :=
  if m.map.writable a.toNat then { m with cells := setCell m.cells a.toNat v } else m

/-- `read_word` (rule R42): little-endian, at any address, the additions modulo 2^32. -/
def Memory.readWord (m : Memory) (a : Word) : Word :=
  m.readByte (a + 3#32) ++ m.readByte (a + 2#32) ++ m.readByte (a + 1#32) ++ m.readByte a

/-- A word store (rule R44): four byte writes, the least significant byte first, at rising addresses. -/
def Memory.writeWord (m : Memory) (a v : Word) : Memory :=
  (((m.writeByte a (v.extractLsb' 0 8)).writeByte (a + 1#32) (v.extractLsb' 8 8)).writeByte (a + 2#32)
    (v.extractLsb' 16 8)).writeByte (a + 3#32) (v.extractLsb' 24 8)

/-- The two access widths (rules R12, R47). -/
inductive Width where
  | byte
  | word
deriving DecidableEq, Repr

/-- `MemRead` as a register value: a byte is zero-extended (rules R12, R47). -/
def Memory.load (m : Memory) (wd : Width) (a : Word) : Word :=
  match wd with
  | .byte => (m.readByte a).setWidth 32
  | .word => m.readWord a

/-- `MemWrite` of a register value: a byte store writes bits 7:0 (rules R12, R47). -/
def Memory.store (m : Memory) (wd : Width) (a v : Word) : Memory :=
  match wd with
  | .byte => m.writeByte a (v.extractLsb' 0 8)
  | .word => m.writeWord a v

/-! ## Errors (rules R13, R99, R208) -/

/-- `raise UnimplementedOperation(reason)`: the call ends and no state changes. -/
def raiseUnimplemented (r : UnimplementedReason) : Res := .fault (.unimplementedOperation r)

/-- `raise DecodeError(word, reason)`: the call ends and no state changes. -/
def raiseDecodeError (w : Word) (r : DecodeReason) : Res := .fault (.decodeError ⟨w, r⟩)

/-- The refusal checks of a family, in their order: the first reason found is raised, else the effect happens
(rule R207). -/
def unlessRefused (r : Option UnimplementedReason) (effect : State) : Res :=
  match r with
  | some reason => raiseUnimplemented reason
  | none => .next effect

/-! ## The ends of an instruction (rules R14, R95) -/

/-- The outcome Continue. -/
def State.finish (s : State) : State := s.setReport (.executed .continued)

/-- `pc <- target` with the outcome Redirected. -/
def State.redirect (s : State) (target : Word) : State := (s.setReg Reg.pc target).setReport (.executed .redirected)

/-- The report of an instruction whose condition is false (rules R100, R112). -/
def State.skip (s : State) : State := s.setReport .skipped

end Sys2Proof.Machine
end

