-- ==== Sys2Proof/Machine/Flags.lean ====
section
/-! DEFINITION. Conditions (`41_condition_codes.md`) and the flag computations (`42_data_processing.md` rules R126 and
R127, `43_multiply.md` rule R150), with what each data-processing opcode computes (rules R129 to R144). -/

namespace Sys2Proof.Machine

/-- `ConditionHolds` (rules R110, R111). -/
def condHolds : Cond → Flags → Bool
  | .eq, f => f.z
  | .ne, f => !f.z
  | .cs, f => f.c
  | .cc, f => !f.c
  | .mi, f => f.n
  | .pl, f => !f.n
  | .vs, f => f.v
  | .vc, f => !f.v
  | .hi, f => f.c && !f.z
  | .ls, f => !f.c || f.z
  | .ge, f => f.n == f.v
  | .lt, f => f.n != f.v
  | .gt, f => !f.z && f.n == f.v
  | .le, f => f.z || f.n != f.v
  | .al, _ => true

/-- Gating (rules R94, R112): a false condition leaves everything as it is and no error is raised. -/
def whenCond (c : Cond) (s : State) (taken : Res) : Res :=
  if condHolds c s.flags then taken else .next s.skip

/-- A result with the flags that go with it. -/
structure AluOut where
  result : Word
  flags : Flags
deriving DecidableEq, Repr

/-- The flag rule of the logical opcodes (rule R126): `carry` is the shifter's carry-out, `f` the flags before. -/
def logicalOut (f : Flags) (carry : Bool) (result : Word) : AluOut :=
  ⟨result, ⟨result.msb, result == 0#32, carry, f.v⟩⟩

/-- AddWithCarry (rule R127), on unbounded integers. -/
def addWithCarry (a b : Word) (cin : Bool) : AluOut :=
  let usum := a.toNat + b.toNat + cin.toNat
  let ssum := a.toInt + b.toInt + (cin.toNat : Int)
  let result := BitVec.ofNat 32 usum
  ⟨result, ⟨result.msb, result == 0#32, decide (2 ^ 32 ≤ usum), decide (ssum ≠ result.toInt)⟩⟩

/-! ## The sixteen opcodes: `f` the flags before, `sc` the shifter's carry-out -/

/-- AND (rule R129). -/
def aluAnd (f : Flags) (op1 op2 : Word) (sc : Bool) : AluOut := logicalOut f sc (op1 &&& op2)

/-- EOR (rule R130). -/
def aluEor (f : Flags) (op1 op2 : Word) (sc : Bool) : AluOut := logicalOut f sc (op1 ^^^ op2)

/-- SUB (rule R131). -/
def aluSub (_ : Flags) (op1 op2 : Word) (_ : Bool) : AluOut := addWithCarry op1 (~~~op2) true

/-- RSB (rule R132). -/
def aluRsb (_ : Flags) (op1 op2 : Word) (_ : Bool) : AluOut := addWithCarry op2 (~~~op1) true

/-- ADD (rule R133). -/
def aluAdd (_ : Flags) (op1 op2 : Word) (_ : Bool) : AluOut := addWithCarry op1 op2 false

/-- ADC (rule R134). -/
def aluAdc (f : Flags) (op1 op2 : Word) (_ : Bool) : AluOut := addWithCarry op1 op2 f.c

/-- SBC (rule R135). -/
def aluSbc (f : Flags) (op1 op2 : Word) (_ : Bool) : AluOut := addWithCarry op1 (~~~op2) f.c

/-- RSC (rule R136). -/
def aluRsc (f : Flags) (op1 op2 : Word) (_ : Bool) : AluOut := addWithCarry op2 (~~~op1) f.c

/-- TST (rule R137). -/
def aluTst (f : Flags) (op1 op2 : Word) (sc : Bool) : AluOut := logicalOut f sc (op1 &&& op2)

/-- TEQ (rule R138). -/
def aluTeq (f : Flags) (op1 op2 : Word) (sc : Bool) : AluOut := logicalOut f sc (op1 ^^^ op2)

/-- CMP (rule R139). -/
def aluCmp (_ : Flags) (op1 op2 : Word) (_ : Bool) : AluOut := addWithCarry op1 (~~~op2) true

/-- CMN (rule R140). -/
def aluCmn (_ : Flags) (op1 op2 : Word) (_ : Bool) : AluOut := addWithCarry op1 op2 false

/-- ORR (rule R141). -/
def aluOrr (f : Flags) (op1 op2 : Word) (sc : Bool) : AluOut := logicalOut f sc (op1 ||| op2)

/-- MOV (rule R142): Rn is not read (rule R124). -/
def aluMov (f : Flags) (op2 : Word) (sc : Bool) : AluOut := logicalOut f sc op2

/-- BIC (rule R143). -/
def aluBic (f : Flags) (op1 op2 : Word) (sc : Bool) : AluOut := logicalOut f sc (op1 &&& ~~~op2)

/-- MVN (rule R144): Rn is not read (rule R124). -/
def aluMvn (f : Flags) (op2 : Word) (sc : Bool) : AluOut := logicalOut f sc (~~~op2)

/-! ## Multiply flags (rule R150) -/

/-- MUL, MLA: N and Z of the 32-bit result, C a draw, V unchanged. -/
def mulFlags (f : Flags) (draw : Nat) (result : Word) : Flags :=
  ⟨result.msb, result == 0#32, Config.mulCarryDraw draw, f.v⟩

/-- The long forms: N and Z of the 64-bit result, C and V draws. -/
def mullFlags (draw : Nat) (result : BitVec 64) : Flags :=
  ⟨result.msb, result == 0#64, Config.mullCarryDraw draw, Config.mullOverflowDraw draw⟩

end Sys2Proof.Machine
end

