-- ==== Sys2Proof/Machine/Operands.lean ====
section
/-! DEFINITION. Every operand form: the shift primitives (`00_scope.md` rule R10), operand2 of data processing
(`42_data_processing.md` rules R121 and R122), the offset and address of a single data transfer
(`46_single_data_transfer.md` rules R180 and R181), the addresses and the list of a block data transfer
(`47_block_data_transfer.md` rules R190 and R191), the branch offset (`30_encoding.md` rule R73). -/

namespace Sys2Proof.Machine

/-! ## Shift primitives (rule R10) -/

/-- `lsl`, for amounts 0 to 31. -/
def lsl (v : Word) (n : Nat) : Word := v <<< n

/-- `lsr`, for amounts 0 to 31. -/
def lsr (v : Word) (n : Nat) : Word := v >>> n

/-- `asr`, for amounts 0 to 31. -/
def asr (v : Word) (n : Nat) : Word := v.sshiftRight n

/-- `ror32`, for any amount. -/
def ror32 (v : Word) (n : Nat) : Word := lsr v (n % 32) ||| lsl v ((32 - n % 32) % 32)

/-! ## Operand2 -/

/-- The shifter's value and carry-out. -/
structure ShifterOut where
  value : Word
  carry : Bool
deriving DecidableEq, Repr

/-- Operand2, immediate form (rules R71, R121); `carry` is the C flag. -/
def rotImm (o : RotImm) (carry : Bool) : ShifterOut :=
  let v := ror32 (o.imm8.setWidth 32) (2 * o.rotate.toNat)
  ⟨v, if o.rotate = 0 then carry else v.msb⟩

/-- The barrel shifter (rule R122) on the value `m` of Rm; `carry` is the C flag. -/
def shift (kind : ShiftKind) (n : Nat) (m : Word) (carry : Bool) : ShifterOut :=
  match kind with
  | .lsl => if n = 0 then ⟨m, carry⟩ else ⟨lsl m n, m.getLsbD (32 - n)⟩
  | .lsr => if n = 0 then ⟨0, m.getLsbD 31⟩ else ⟨lsr m n, m.getLsbD (n - 1)⟩
  | .asr =>
    if n = 0 then ⟨if m.getLsbD 31 then 0xFFFFFFFF else 0, m.getLsbD 31⟩ else ⟨asr m n, m.getLsbD (n - 1)⟩
  | .ror =>
    if n = 0 then ⟨lsl (BitVec.ofBool carry |>.setWidth 32) 31 ||| lsr m 1, m.getLsbD 0⟩
    else ⟨ror32 m n, m.getLsbD (n - 1)⟩

/-- Operand2 of an immediate form in a state: it reads C only. -/
def immOperand (o : RotImm) (s : State) : ShifterOut := rotImm o s.flags.c

/-- Operand2 of a register form in a state: it reads Rm (R15 as stored, rule R123) and C. -/
def regOperand (o : ShiftedReg) (s : State) : ShifterOut := shift o.kind o.amount.toNat (s.reg o.rm) s.flags.c

/-! ## Single data transfer -/

/-- The offset of a single transfer with I = 0 (rules R74, R181). -/
def immOffset (imm12 : BitVec 12) : Word := imm12.setWidth 32

/-- The offset of a single transfer with I = 1 (rule R181): the shifter's value, its carry dropped. -/
def regOffset (o : ShiftedReg) (s : State) : Word := (regOperand o s).value

/-- `idx` of rule R180: base and offset combined by U. -/
def indexedAddress (ix : Indexing) (base off : Word) : Word := if ix.u then base + off else base - off

/-- `ea` of rule R180: pre-indexed uses `idx`, post-indexed the base. -/
def transferAddress (ix : Indexing) (base off : Word) : Word := if ix.p then indexedAddress ix base off else base

/-- `wb` of rule R180: post-indexed always writes back. -/
def writesBack (ix : Indexing) : Bool := !ix.p || ix.w

/-! ## Block data transfer -/

/-- The registers of a list, from bit 0 upward (rules R75, R191). -/
def listedRegs (list : BitVec 16) : List Reg :=
  ([0, 1, 2, 3, 4, 5, 6, 7, 8, 9, 10, 11, 12, 13, 14, 15] : List Reg).filter fun r => list.getLsbD r.val

/-- Four bytes for each listed register: `4n` of rule R190. -/
def listBytes (list : BitVec 16) : Word := BitVec.ofNat 32 (4 * (listedRegs list).length)

/-- The start address (rule R190): IA, IB, DA, DB by U and P. -/
def blockStart (bm : BlockMode) (base bytes : Word) : Word :=
  match bm.u, bm.p with
  | true, false => base
  | true, true => base + 4#32
  | false, false => base - bytes + 4#32
  | false, true => base - bytes

/-- The written-back value (rule R190). -/
def blockWriteBack (bm : BlockMode) (base bytes : Word) : Word := if bm.u then base + bytes else base - bytes

/-! ## Branch -/

/-- The byte offset of a branch (rule R73): the signed word count, times four. -/
def branchOffset (offset24 : BitVec 24) : Word := lsl (offset24.signExtend 32) 2

end Sys2Proof.Machine
end

