-- ==== Sys2Proof/Machine/BlockTransfer.lean ====
section
/-! DEFINITION. Block data transfer (`47_block_data_transfer.md`). -/

namespace Sys2Proof.Machine

/-- The refusal checks of a block transfer, in the order of rule R192. -/
def blockRefusal (load : Bool) (bm : BlockMode) (rn : Reg) (list : BitVec 16) : Option UnimplementedReason :=
  if bm.s then some .forceModeBits
  else if list = 0#16 then some .emptyRegisterList
  else if rn = Reg.pc then some .pcOperand
  else if load ∧ list.getLsbD 15 then some .writesPc
  else if bm.w ∧ list.getLsbD rn.val then some .baseRegisterConflict
  else none

/-- The register writes of a load: each register the word at its address, the addresses rising by 4 (rules R191, R193).
`m` is the memory before the instruction. -/
def loadRegs (m : Memory) : Word → List Reg → State → State
  | _, [], s => s
  | a, r :: rest, s => loadRegs m (a + 4#32) rest (s.setReg r (m.readWord a))

/-- The memory writes of a store: at each address the value of its register, the addresses rising by 4 (rules R191,
R194). `s` is the state before the instruction. -/
def storeRegs (s : State) : Word → List Reg → Memory → Memory
  | _, [], m => m
  | a, r :: rest, m => storeRegs s (a + 4#32) rest (m.writeWord a (s.reg r))

/-- The write-back of rule R190. -/
def State.blockBase (s : State) (bm : BlockMode) (rn : Reg) (base bytes : Word) : State :=
  if bm.w then s.setReg rn (blockWriteBack bm base bytes) else s

/-- LDM (rule R193): the base first, then the registers. -/
def execLdm (c : Cond) (bm : BlockMode) (rn : Reg) (list : BitVec 16) (s : State) : Res :=
  whenCond c s (unlessRefused (blockRefusal true bm rn list)
    (loadRegs s.mem (blockStart bm (s.reg rn) (listBytes list)) (listedRegs list)
      (s.blockBase bm rn (s.reg rn) (listBytes list))).finish)

/-- STM (rule R194): the stores first, then the base. -/
def execStm (c : Cond) (bm : BlockMode) (rn : Reg) (list : BitVec 16) (s : State) : Res :=
  whenCond c s (unlessRefused (blockRefusal false bm rn list)
    ((s.setMem (storeRegs s (blockStart bm (s.reg rn) (listBytes list)) (listedRegs list) s.mem)).blockBase bm rn
      (s.reg rn) (listBytes list)).finish)

end Sys2Proof.Machine
end

