-- ==== Sys2Proof/Machine/Branch.lean ====
section
/-! DEFINITION. Branch, branch with link, branch and exchange (`45_branch.md`): the only instructions that write R15
and the only ones that redirect (rules R95, R170). -/

namespace Sys2Proof.Machine

/-- B (rule R171): `x[15]` is the branch's own address plus 8 (rule R97). -/
def execB (c : Cond) (offset24 : BitVec 24) (s : State) : Res :=
  whenCond c s (.next (s.redirect (s.pc + branchOffset offset24)))

/-- BL (rule R172): R14 is written first, with `x[15] - 4`. -/
def execBl (c : Cond) (offset24 : BitVec 24) (s : State) : Res :=
  whenCond c s (.next ((s.setReg Reg.lr (s.pc - 4#32)).redirect (s.pc + branchOffset offset24)))

/-- The state tag an exchange selects: bit 0 of the source value (rule R173). -/
def exchangeTag (v : Word) : ExecState := if v.getLsbD 0 then .thumb else .arm

/-- BX (rule R173): only bit 0 of the target is cleared. -/
def execBx (c : Cond) (rm : Reg) (s : State) : Res :=
  whenCond c s (.next ((s.setTag (exchangeTag (s.reg rm))).redirect (s.reg rm &&& 0xFFFFFFFE#32)))

end Sys2Proof.Machine
end

