-- ==== Sys2Proof/Machine/DataProcessing.lean ====
section
/-! DEFINITION. Data processing (`42_data_processing.md`): one meaning per instruction and operand form, over the two
shared endings of rule R120. -/

namespace Sys2Proof.Machine

/-- Rule R120 for an opcode that writes a register: R15 as destination is refused with nothing written (rule R128). -/
def dpWrite (c : Cond) (alter : Bool) (rd : Reg) (out : AluOut) (s : State) : Res :=
  whenCond c s (unlessRefused (if rd = Reg.pc then some .writesPc else none)
    ((s.setReg rd out.result).setFlagsIf alter out.flags).finish)

/-- Rule R120 for TST, TEQ, CMP, CMN: no register is written, and with S = 0 nothing changes (rule R125). -/
def dpCompare (c : Cond) (alter : Bool) (out : AluOut) (s : State) : Res :=
  whenCond c s (.next (s.setFlagsIf alter out.flags).finish)

/-! ## Immediate operand2 -/

/-- AND, immediate operand2 (rule R129). -/
def execAndImm (c : Cond) (alter : Bool) (rn rd : Reg) (op2 : RotImm) (s : State) : Res :=
  let sh := immOperand op2 s
  dpWrite c alter rd (aluAnd s.flags (s.reg rn) sh.value sh.carry) s

/-- EOR, immediate operand2 (rule R130). -/
def execEorImm (c : Cond) (alter : Bool) (rn rd : Reg) (op2 : RotImm) (s : State) : Res :=
  let sh := immOperand op2 s
  dpWrite c alter rd (aluEor s.flags (s.reg rn) sh.value sh.carry) s

/-- SUB, immediate operand2 (rule R131). -/
def execSubImm (c : Cond) (alter : Bool) (rn rd : Reg) (op2 : RotImm) (s : State) : Res :=
  let sh := immOperand op2 s
  dpWrite c alter rd (aluSub s.flags (s.reg rn) sh.value sh.carry) s

/-- RSB, immediate operand2 (rule R132). -/
def execRsbImm (c : Cond) (alter : Bool) (rn rd : Reg) (op2 : RotImm) (s : State) : Res :=
  let sh := immOperand op2 s
  dpWrite c alter rd (aluRsb s.flags (s.reg rn) sh.value sh.carry) s

/-- ADD, immediate operand2 (rule R133). -/
def execAddImm (c : Cond) (alter : Bool) (rn rd : Reg) (op2 : RotImm) (s : State) : Res :=
  let sh := immOperand op2 s
  dpWrite c alter rd (aluAdd s.flags (s.reg rn) sh.value sh.carry) s

/-- ADC, immediate operand2 (rule R134). -/
def execAdcImm (c : Cond) (alter : Bool) (rn rd : Reg) (op2 : RotImm) (s : State) : Res :=
  let sh := immOperand op2 s
  dpWrite c alter rd (aluAdc s.flags (s.reg rn) sh.value sh.carry) s

/-- SBC, immediate operand2 (rule R135). -/
def execSbcImm (c : Cond) (alter : Bool) (rn rd : Reg) (op2 : RotImm) (s : State) : Res :=
  let sh := immOperand op2 s
  dpWrite c alter rd (aluSbc s.flags (s.reg rn) sh.value sh.carry) s

/-- RSC, immediate operand2 (rule R136). -/
def execRscImm (c : Cond) (alter : Bool) (rn rd : Reg) (op2 : RotImm) (s : State) : Res :=
  let sh := immOperand op2 s
  dpWrite c alter rd (aluRsc s.flags (s.reg rn) sh.value sh.carry) s

/-- TST, immediate operand2 (rule R137). -/
def execTstImm (c : Cond) (alter : Bool) (rn _rd : Reg) (op2 : RotImm) (s : State) : Res :=
  let sh := immOperand op2 s
  dpCompare c alter (aluTst s.flags (s.reg rn) sh.value sh.carry) s

/-- TEQ, immediate operand2 (rule R138). -/
def execTeqImm (c : Cond) (alter : Bool) (rn _rd : Reg) (op2 : RotImm) (s : State) : Res :=
  let sh := immOperand op2 s
  dpCompare c alter (aluTeq s.flags (s.reg rn) sh.value sh.carry) s

/-- CMP, immediate operand2 (rule R139). -/
def execCmpImm (c : Cond) (alter : Bool) (rn _rd : Reg) (op2 : RotImm) (s : State) : Res :=
  let sh := immOperand op2 s
  dpCompare c alter (aluCmp s.flags (s.reg rn) sh.value sh.carry) s

/-- CMN, immediate operand2 (rule R140). -/
def execCmnImm (c : Cond) (alter : Bool) (rn _rd : Reg) (op2 : RotImm) (s : State) : Res :=
  let sh := immOperand op2 s
  dpCompare c alter (aluCmn s.flags (s.reg rn) sh.value sh.carry) s

/-- ORR, immediate operand2 (rule R141). -/
def execOrrImm (c : Cond) (alter : Bool) (rn rd : Reg) (op2 : RotImm) (s : State) : Res :=
  let sh := immOperand op2 s
  dpWrite c alter rd (aluOrr s.flags (s.reg rn) sh.value sh.carry) s

/-- MOV, immediate operand2 (rule R142). -/
def execMovImm (c : Cond) (alter : Bool) (_rn rd : Reg) (op2 : RotImm) (s : State) : Res :=
  let sh := immOperand op2 s
  dpWrite c alter rd (aluMov s.flags sh.value sh.carry) s

/-- BIC, immediate operand2 (rule R143). -/
def execBicImm (c : Cond) (alter : Bool) (rn rd : Reg) (op2 : RotImm) (s : State) : Res :=
  let sh := immOperand op2 s
  dpWrite c alter rd (aluBic s.flags (s.reg rn) sh.value sh.carry) s

/-- MVN, immediate operand2 (rule R144). -/
def execMvnImm (c : Cond) (alter : Bool) (_rn rd : Reg) (op2 : RotImm) (s : State) : Res :=
  let sh := immOperand op2 s
  dpWrite c alter rd (aluMvn s.flags sh.value sh.carry) s

/-! ## Register operand2 -/

/-- AND, register operand2 (rule R129). -/
def execAndReg (c : Cond) (alter : Bool) (rn rd : Reg) (op2 : ShiftedReg) (s : State) : Res :=
  let sh := regOperand op2 s
  dpWrite c alter rd (aluAnd s.flags (s.reg rn) sh.value sh.carry) s

/-- EOR, register operand2 (rule R130). -/
def execEorReg (c : Cond) (alter : Bool) (rn rd : Reg) (op2 : ShiftedReg) (s : State) : Res :=
  let sh := regOperand op2 s
  dpWrite c alter rd (aluEor s.flags (s.reg rn) sh.value sh.carry) s

/-- SUB, register operand2 (rule R131). -/
def execSubReg (c : Cond) (alter : Bool) (rn rd : Reg) (op2 : ShiftedReg) (s : State) : Res :=
  let sh := regOperand op2 s
  dpWrite c alter rd (aluSub s.flags (s.reg rn) sh.value sh.carry) s

/-- RSB, register operand2 (rule R132). -/
def execRsbReg (c : Cond) (alter : Bool) (rn rd : Reg) (op2 : ShiftedReg) (s : State) : Res :=
  let sh := regOperand op2 s
  dpWrite c alter rd (aluRsb s.flags (s.reg rn) sh.value sh.carry) s

/-- ADD, register operand2 (rule R133). -/
def execAddReg (c : Cond) (alter : Bool) (rn rd : Reg) (op2 : ShiftedReg) (s : State) : Res :=
  let sh := regOperand op2 s
  dpWrite c alter rd (aluAdd s.flags (s.reg rn) sh.value sh.carry) s

/-- ADC, register operand2 (rule R134). -/
def execAdcReg (c : Cond) (alter : Bool) (rn rd : Reg) (op2 : ShiftedReg) (s : State) : Res :=
  let sh := regOperand op2 s
  dpWrite c alter rd (aluAdc s.flags (s.reg rn) sh.value sh.carry) s

/-- SBC, register operand2 (rule R135). -/
def execSbcReg (c : Cond) (alter : Bool) (rn rd : Reg) (op2 : ShiftedReg) (s : State) : Res :=
  let sh := regOperand op2 s
  dpWrite c alter rd (aluSbc s.flags (s.reg rn) sh.value sh.carry) s

/-- RSC, register operand2 (rule R136). -/
def execRscReg (c : Cond) (alter : Bool) (rn rd : Reg) (op2 : ShiftedReg) (s : State) : Res :=
  let sh := regOperand op2 s
  dpWrite c alter rd (aluRsc s.flags (s.reg rn) sh.value sh.carry) s

/-- TST, register operand2 (rule R137). -/
def execTstReg (c : Cond) (alter : Bool) (rn _rd : Reg) (op2 : ShiftedReg) (s : State) : Res :=
  let sh := regOperand op2 s
  dpCompare c alter (aluTst s.flags (s.reg rn) sh.value sh.carry) s

/-- TEQ, register operand2 (rule R138). -/
def execTeqReg (c : Cond) (alter : Bool) (rn _rd : Reg) (op2 : ShiftedReg) (s : State) : Res :=
  let sh := regOperand op2 s
  dpCompare c alter (aluTeq s.flags (s.reg rn) sh.value sh.carry) s

/-- CMP, register operand2 (rule R139). -/
def execCmpReg (c : Cond) (alter : Bool) (rn _rd : Reg) (op2 : ShiftedReg) (s : State) : Res :=
  let sh := regOperand op2 s
  dpCompare c alter (aluCmp s.flags (s.reg rn) sh.value sh.carry) s

/-- CMN, register operand2 (rule R140). -/
def execCmnReg (c : Cond) (alter : Bool) (rn _rd : Reg) (op2 : ShiftedReg) (s : State) : Res :=
  let sh := regOperand op2 s
  dpCompare c alter (aluCmn s.flags (s.reg rn) sh.value sh.carry) s

/-- ORR, register operand2 (rule R141). -/
def execOrrReg (c : Cond) (alter : Bool) (rn rd : Reg) (op2 : ShiftedReg) (s : State) : Res :=
  let sh := regOperand op2 s
  dpWrite c alter rd (aluOrr s.flags (s.reg rn) sh.value sh.carry) s

/-- MOV, register operand2 (rule R142). -/
def execMovReg (c : Cond) (alter : Bool) (_rn rd : Reg) (op2 : ShiftedReg) (s : State) : Res :=
  let sh := regOperand op2 s
  dpWrite c alter rd (aluMov s.flags sh.value sh.carry) s

/-- BIC, register operand2 (rule R143). -/
def execBicReg (c : Cond) (alter : Bool) (rn rd : Reg) (op2 : ShiftedReg) (s : State) : Res :=
  let sh := regOperand op2 s
  dpWrite c alter rd (aluBic s.flags (s.reg rn) sh.value sh.carry) s

/-- MVN, register operand2 (rule R144). -/
def execMvnReg (c : Cond) (alter : Bool) (_rn rd : Reg) (op2 : ShiftedReg) (s : State) : Res :=
  let sh := regOperand op2 s
  dpWrite c alter rd (aluMvn s.flags sh.value sh.carry) s

end Sys2Proof.Machine
end

