-- ==== Sys2Proof/Machine/DecodeErrors.lean ====
section
/-! DEFINITION. The error rows of the opcode table (`30_encoding.md` rule R79, `60_exceptions.md` rule R201). Such a word
raises its DecodeError before its condition is looked at (`40_pipeline_sequencer.md` rule R94), so no meaning here reads
a flag. -/

namespace Sys2Proof.Machine

/-- Condition field 15 (rule R61, decision D1). -/
def execErrReservedCondition (w : Word) (_ : State) : Res := raiseDecodeError w .reservedCondition

/-- The halfword bucket, bits 6:5 = 01 (rule R66). -/
def execErrHalfword01 (w : Word) (_ : State) : Res := raiseDecodeError w .halfwordTransfer

/-- The halfword bucket, bits 6:5 = 10 (rule R66). -/
def execErrHalfword10 (w : Word) (_ : State) : Res := raiseDecodeError w .halfwordTransfer

/-- The halfword bucket, bits 6:5 = 11 (rule R66). -/
def execErrHalfword11 (w : Word) (_ : State) : Res := raiseDecodeError w .halfwordTransfer

/-- The undefined bucket (rule R68). -/
def execErrUndefined (w : Word) (_ : State) : Res := raiseDecodeError w .undefinedEncoding

/-- The coprocessor and software-interrupt class (rule R69). -/
def execErrCoprocessorOrSwi (w : Word) (_ : State) : Res := raiseDecodeError w .coprocessorOrSwi

end Sys2Proof.Machine
end

