-- ==== Sys2Proof/Machine/Multiply.lean ====
section
/-! DEFINITION. Multiply and multiply long (`43_multiply.md`). -/

namespace Sys2Proof.Machine

/-- The refusal checks of MUL and MLA, in the order of rule R151; `acc` is Rn where it is read (MLA). -/
def mulRefusal (rd rs rm : Reg) (acc : Option Reg) : Option UnimplementedReason :=
  if rd = Reg.pc then some .writesPc
  else if rm = Reg.pc ∨ rs = Reg.pc ∨ acc = some Reg.pc then some .pcOperand
  else if rd = rm then some .multiplyOperandRestriction
  else none

/-- The refusal checks of the long forms, in the order of rule R151. -/
def mullRefusal (rdHi rdLo rs rm : Reg) : Option UnimplementedReason :=
  if rdHi = Reg.pc ∨ rdLo = Reg.pc then some .writesPc
  else if rm = Reg.pc ∨ rs = Reg.pc then some .pcOperand
  else if rdHi = rdLo ∨ rdHi = rm ∨ rdLo = rm then some .multiplyOperandRestriction
  else none

/-- The flags of a multiply and the draws they take, if S = 1 (rule R150). -/
def State.multiplyFlags (s : State) (alter : Bool) (f : Flags) : State :=
  if alter then (s.setFlags f).nextDraw else s

/-- The ending of MUL and MLA: the result into Rd, the flags of rule R150. -/
def mulWrite (c : Cond) (alter : Bool) (rd : Reg) (refusal : Option UnimplementedReason) (result : Word)
    (s : State) : Res :=
  whenCond c s (unlessRefused refusal
    ((s.setReg rd result).multiplyFlags alter (mulFlags s.flags s.draws result)).finish)

/-- The ending of the long forms: the low half into RdLo, the high half into RdHi, the flags of rule R150. -/
def mullWrite (c : Cond) (alter : Bool) (rdHi rdLo : Reg) (refusal : Option UnimplementedReason) (result : BitVec 64)
    (s : State) : Res :=
  whenCond c s (unlessRefused refusal
    ((((s.setReg rdLo (result.extractLsb' 0 32)).setReg rdHi (result.extractLsb' 32 32)).multiplyFlags alter
      (mullFlags s.draws result)).finish))

/-- The exact unsigned product (rule R154). -/
def unsignedProduct (a b : Word) : BitVec 64 := BitVec.ofNat 64 (a.toNat * b.toNat)

/-- The exact signed product, modulo 2^64 (rule R156). -/
def signedProduct (a b : Word) : BitVec 64 := BitVec.ofInt 64 (a.toInt * b.toInt)

/-- The accumulator of the long forms, `x[RdHi] :: x[RdLo]` (rules R155, R157). -/
def longAccumulator (rdHi rdLo : Reg) (s : State) : BitVec 64 := s.reg rdHi ++ s.reg rdLo

/-- MUL (rule R152): the Rn field is ignored. -/
def execMul (c : Cond) (alter : Bool) (rd _rn rs rm : Reg) (s : State) : Res :=
  mulWrite c alter rd (mulRefusal rd rs rm none) (s.reg rm * s.reg rs) s

/-- MLA (rule R153). -/
def execMla (c : Cond) (alter : Bool) (rd rn rs rm : Reg) (s : State) : Res :=
  mulWrite c alter rd (mulRefusal rd rs rm (some rn)) (s.reg rm * s.reg rs + s.reg rn) s

/-- UMULL (rule R154). -/
def execUmull (c : Cond) (alter : Bool) (rdHi rdLo rs rm : Reg) (s : State) : Res :=
  mullWrite c alter rdHi rdLo (mullRefusal rdHi rdLo rs rm) (unsignedProduct (s.reg rm) (s.reg rs)) s

/-- UMLAL (rule R155). -/
def execUmlal (c : Cond) (alter : Bool) (rdHi rdLo rs rm : Reg) (s : State) : Res :=
  mullWrite c alter rdHi rdLo (mullRefusal rdHi rdLo rs rm)
    (unsignedProduct (s.reg rm) (s.reg rs) + longAccumulator rdHi rdLo s) s

/-- SMULL (rule R156). -/
def execSmull (c : Cond) (alter : Bool) (rdHi rdLo rs rm : Reg) (s : State) : Res :=
  mullWrite c alter rdHi rdLo (mullRefusal rdHi rdLo rs rm) (signedProduct (s.reg rm) (s.reg rs)) s

/-- SMLAL (rule R157). -/
def execSmlal (c : Cond) (alter : Bool) (rdHi rdLo rs rm : Reg) (s : State) : Res :=
  mullWrite c alter rdHi rdLo (mullRefusal rdHi rdLo rs rm)
    (signedProduct (s.reg rm) (s.reg rs) + longAccumulator rdHi rdLo s) s

end Sys2Proof.Machine
end

