-- ==== Sys2Proof/Machine/SingleTransfer.lean ====
section
/-! DEFINITION. Single data transfer (`46_single_data_transfer.md`). -/

namespace Sys2Proof.Machine

/-- The refusal checks of a single transfer, in the order of rule R182; `offReg` is Rm of a register offset. -/
def singleRefusal (load : Bool) (ix : Indexing) (rn rd : Reg) (offReg : Option Reg) : Option UnimplementedReason :=
  if load ∧ rd = Reg.pc then some .writesPc
  else if writesBack ix ∧ rn = Reg.pc then some .writesPc
  else if offReg = some Reg.pc then some .pcOperand
  else if writesBack ix ∧ rn = rd then some .baseRegisterConflict
  else if writesBack ix ∧ offReg = some rn then some .baseRegisterConflict
  else none

/-- The write-back of rule R180, after the transfer (rule R183). -/
def State.baseWriteBack (s : State) (ix : Indexing) (rn : Reg) (base off : Word) : State :=
  if writesBack ix then s.setReg rn (indexedAddress ix base off) else s

/-- Rule R180 with a load: the access, then Rd, then the base (rule R183). -/
def singleLoad (wd : Width) (c : Cond) (ix : Indexing) (rn rd : Reg) (offReg : Option Reg) (off : Word)
    (s : State) : Res :=
  whenCond c s (unlessRefused (singleRefusal true ix rn rd offReg)
    (((s.setReg rd (s.mem.load wd (transferAddress ix (s.reg rn) off))).baseWriteBack ix rn (s.reg rn) off).finish))

/-- Rule R180 with a store: the access, then the base (rule R183). -/
def singleStore (wd : Width) (c : Cond) (ix : Indexing) (rn rd : Reg) (offReg : Option Reg) (off : Word)
    (s : State) : Res :=
  whenCond c s (unlessRefused (singleRefusal false ix rn rd offReg)
    (((s.setMem (s.mem.store wd (transferAddress ix (s.reg rn) off) (s.reg rd))).baseWriteBack ix rn (s.reg rn)
      off).finish))

/-- LDR, immediate offset (rule R184). -/
def execLdrImm (c : Cond) (ix : Indexing) (rn rd : Reg) (imm12 : BitVec 12) (s : State) : Res :=
  singleLoad .word c ix rn rd none (immOffset imm12) s

/-- STR, immediate offset (rule R185). -/
def execStrImm (c : Cond) (ix : Indexing) (rn rd : Reg) (imm12 : BitVec 12) (s : State) : Res :=
  singleStore .word c ix rn rd none (immOffset imm12) s

/-- LDRB, immediate offset (rule R186). -/
def execLdrbImm (c : Cond) (ix : Indexing) (rn rd : Reg) (imm12 : BitVec 12) (s : State) : Res :=
  singleLoad .byte c ix rn rd none (immOffset imm12) s

/-- STRB, immediate offset (rule R187). -/
def execStrbImm (c : Cond) (ix : Indexing) (rn rd : Reg) (imm12 : BitVec 12) (s : State) : Res :=
  singleStore .byte c ix rn rd none (immOffset imm12) s

/-- LDR, register offset (rule R184). -/
def execLdrReg (c : Cond) (ix : Indexing) (rn rd : Reg) (off : ShiftedReg) (s : State) : Res :=
  singleLoad .word c ix rn rd (some off.rm) (regOffset off s) s

/-- STR, register offset (rule R185). -/
def execStrReg (c : Cond) (ix : Indexing) (rn rd : Reg) (off : ShiftedReg) (s : State) : Res :=
  singleStore .word c ix rn rd (some off.rm) (regOffset off s) s

/-- LDRB, register offset (rule R186). -/
def execLdrbReg (c : Cond) (ix : Indexing) (rn rd : Reg) (off : ShiftedReg) (s : State) : Res :=
  singleLoad .byte c ix rn rd (some off.rm) (regOffset off s) s

/-- STRB, register offset (rule R187). -/
def execStrbReg (c : Cond) (ix : Indexing) (rn rd : Reg) (off : ShiftedReg) (s : State) : Res :=
  singleStore .byte c ix rn rd (some off.rm) (regOffset off s) s

end Sys2Proof.Machine
end

