-- ==== Sys2Proof/Machine/Swap.lean ====
section
/-! DEFINITION. Swap (`44_swap.md`). -/

namespace Sys2Proof.Machine

/-- The refusal checks of a swap, in the order of rule R161. -/
def swapRefusal (rn rd rm : Reg) : Option UnimplementedReason :=
  if rd = Reg.pc then some .writesPc
  else if rn = Reg.pc ∨ rm = Reg.pc then some .pcOperand
  else if rn = rd ∨ rn = rm then some .swapOperandRestriction
  else none

/-- Rule R160: read at the address in Rn, then write Rm there, then write the value read to Rd. -/
def swapAt (wd : Width) (c : Cond) (rn rd rm : Reg) (s : State) : Res :=
  whenCond c s (unlessRefused (swapRefusal rn rd rm)
    (((s.setMem (s.mem.store wd (s.reg rn) (s.reg rm))).setReg rd (s.mem.load wd (s.reg rn))).finish))

/-- SWP (rule R162). -/
def execSwp (c : Cond) (rn rd rm : Reg) (s : State) : Res := swapAt .word c rn rd rm s

/-- SWPB (rule R163). -/
def execSwpb (c : Cond) (rn rd rm : Reg) (s : State) : Res := swapAt .byte c rn rd rm s

end Sys2Proof.Machine
end

