-- ==== Sys2Proof/Machine/Dispatch.lean ====
section
/-! DEFINITION. One arm per instruction. -/

namespace Sys2Proof.Machine

/-- The executor on a decoded instruction (`40_pipeline_sequencer.md` rules R94, R95). -/
def exec (i : Instr) (s : State) : Host.Outcome State Fault Refusal :=
  match i with
  | .andImm c a rn rd op2 => Sys2Proof.Machine.execAndImm c a rn rd op2 s
  | .eorImm c a rn rd op2 => Sys2Proof.Machine.execEorImm c a rn rd op2 s
  | .subImm c a rn rd op2 => Sys2Proof.Machine.execSubImm c a rn rd op2 s
  | .rsbImm c a rn rd op2 => Sys2Proof.Machine.execRsbImm c a rn rd op2 s
  | .addImm c a rn rd op2 => Sys2Proof.Machine.execAddImm c a rn rd op2 s
  | .adcImm c a rn rd op2 => Sys2Proof.Machine.execAdcImm c a rn rd op2 s
  | .sbcImm c a rn rd op2 => Sys2Proof.Machine.execSbcImm c a rn rd op2 s
  | .rscImm c a rn rd op2 => Sys2Proof.Machine.execRscImm c a rn rd op2 s
  | .tstImm c a rn rd op2 => Sys2Proof.Machine.execTstImm c a rn rd op2 s
  | .teqImm c a rn rd op2 => Sys2Proof.Machine.execTeqImm c a rn rd op2 s
  | .cmpImm c a rn rd op2 => Sys2Proof.Machine.execCmpImm c a rn rd op2 s
  | .cmnImm c a rn rd op2 => Sys2Proof.Machine.execCmnImm c a rn rd op2 s
  | .orrImm c a rn rd op2 => Sys2Proof.Machine.execOrrImm c a rn rd op2 s
  | .movImm c a rn rd op2 => Sys2Proof.Machine.execMovImm c a rn rd op2 s
  | .bicImm c a rn rd op2 => Sys2Proof.Machine.execBicImm c a rn rd op2 s
  | .mvnImm c a rn rd op2 => Sys2Proof.Machine.execMvnImm c a rn rd op2 s
  | .andReg c a rn rd op2 => Sys2Proof.Machine.execAndReg c a rn rd op2 s
  | .eorReg c a rn rd op2 => Sys2Proof.Machine.execEorReg c a rn rd op2 s
  | .subReg c a rn rd op2 => Sys2Proof.Machine.execSubReg c a rn rd op2 s
  | .rsbReg c a rn rd op2 => Sys2Proof.Machine.execRsbReg c a rn rd op2 s
  | .addReg c a rn rd op2 => Sys2Proof.Machine.execAddReg c a rn rd op2 s
  | .adcReg c a rn rd op2 => Sys2Proof.Machine.execAdcReg c a rn rd op2 s
  | .sbcReg c a rn rd op2 => Sys2Proof.Machine.execSbcReg c a rn rd op2 s
  | .rscReg c a rn rd op2 => Sys2Proof.Machine.execRscReg c a rn rd op2 s
  | .tstReg c a rn rd op2 => Sys2Proof.Machine.execTstReg c a rn rd op2 s
  | .teqReg c a rn rd op2 => Sys2Proof.Machine.execTeqReg c a rn rd op2 s
  | .cmpReg c a rn rd op2 => Sys2Proof.Machine.execCmpReg c a rn rd op2 s
  | .cmnReg c a rn rd op2 => Sys2Proof.Machine.execCmnReg c a rn rd op2 s
  | .orrReg c a rn rd op2 => Sys2Proof.Machine.execOrrReg c a rn rd op2 s
  | .movReg c a rn rd op2 => Sys2Proof.Machine.execMovReg c a rn rd op2 s
  | .bicReg c a rn rd op2 => Sys2Proof.Machine.execBicReg c a rn rd op2 s
  | .mvnReg c a rn rd op2 => Sys2Proof.Machine.execMvnReg c a rn rd op2 s
  | .mul c a rd rn rs rm => Sys2Proof.Machine.execMul c a rd rn rs rm s
  | .mla c a rd rn rs rm => Sys2Proof.Machine.execMla c a rd rn rs rm s
  | .umull c a rdHi rdLo rs rm => Sys2Proof.Machine.execUmull c a rdHi rdLo rs rm s
  | .umlal c a rdHi rdLo rs rm => Sys2Proof.Machine.execUmlal c a rdHi rdLo rs rm s
  | .smull c a rdHi rdLo rs rm => Sys2Proof.Machine.execSmull c a rdHi rdLo rs rm s
  | .smlal c a rdHi rdLo rs rm => Sys2Proof.Machine.execSmlal c a rdHi rdLo rs rm s
  | .swp c rn rd rm => Sys2Proof.Machine.execSwp c rn rd rm s
  | .swpb c rn rd rm => Sys2Proof.Machine.execSwpb c rn rd rm s
  | .b c offset24 => Sys2Proof.Machine.execB c offset24 s
  | .bl c offset24 => Sys2Proof.Machine.execBl c offset24 s
  | .bx c rm => Sys2Proof.Machine.execBx c rm s
  | .ldrImm c ix rn rd imm12 => Sys2Proof.Machine.execLdrImm c ix rn rd imm12 s
  | .strImm c ix rn rd imm12 => Sys2Proof.Machine.execStrImm c ix rn rd imm12 s
  | .ldrbImm c ix rn rd imm12 => Sys2Proof.Machine.execLdrbImm c ix rn rd imm12 s
  | .strbImm c ix rn rd imm12 => Sys2Proof.Machine.execStrbImm c ix rn rd imm12 s
  | .ldrReg c ix rn rd off => Sys2Proof.Machine.execLdrReg c ix rn rd off s
  | .strReg c ix rn rd off => Sys2Proof.Machine.execStrReg c ix rn rd off s
  | .ldrbReg c ix rn rd off => Sys2Proof.Machine.execLdrbReg c ix rn rd off s
  | .strbReg c ix rn rd off => Sys2Proof.Machine.execStrbReg c ix rn rd off s
  | .ldm c bm rn list => Sys2Proof.Machine.execLdm c bm rn list s
  | .stm c bm rn list => Sys2Proof.Machine.execStm c bm rn list s
  | .errReservedCondition w => Sys2Proof.Machine.execErrReservedCondition w s
  | .errHalfword01 w => Sys2Proof.Machine.execErrHalfword01 w s
  | .errHalfword10 w => Sys2Proof.Machine.execErrHalfword10 w s
  | .errHalfword11 w => Sys2Proof.Machine.execErrHalfword11 w s
  | .errUndefined w => Sys2Proof.Machine.execErrUndefined w s
  | .errCoprocessorOrSwi w => Sys2Proof.Machine.execErrCoprocessorOrSwi w s

end Sys2Proof.Machine
end

