-- ==== Sys2Proof/Machine/Pipeline.lean ====
section
/-! DEFINITION. The pipeline sequencer (`40_pipeline_sequencer.md` rule R92): the one transition `advance` over the two
latches, given the executor. -/

namespace Sys2Proof.Machine

/-- Steps 1 to 3 of rule R92: fetch at the current R15 into the fetch latch, promote the old fetch latch. -/
def fetchAndShift (s : State) : State :=
  { s with fetchLatch := some (s.mem.readWord s.pc), decodeLatch := s.fetchLatch }

/-- The flush of rule R96: both latches cleared, nothing else. -/
def flush (s : State) : State := { s with fetchLatch := none, decodeLatch := none }

/-- Step 5 of rule R92: after a redirection flush and keep R15, otherwise R15 + 4 modulo 2^32 (rules R25, R95). -/
def pcUpdate (s : State) : State :=
  match s.report with
  | .executed .redirected => flush s
  | .executed .continued => s.setReg Reg.pc (s.pc + 4#32)
  | .skipped => s.setReg Reg.pc (s.pc + 4#32)
  | .bubble => s.setReg Reg.pc (s.pc + 4#32)

/-- Apply the rest of a step to a next state; an error ends the call (rule R99). -/
def afterExec (r : Res) : Res :=
  match r with
  | .next t => .next (pcUpdate t)
  | .fault f => .fault f
  | .refused q => .refused q

/-- Steps 1 to 5 of rule R92 in ARM state: the word that leaves the decode latch is decoded and executed, if there is
one. -/
def advanceArm (run : Instr → State → Res) (s : State) : Res :=
  match s.decodeLatch with
  | none => .next (pcUpdate ((fetchAndShift s).setReport .bubble))
  | some w => afterExec (run (decodeWord w) (fetchAndShift s))

/-- `advance` (rule R92): step 0 stops a call in Thumb state before anything is fetched (rule R93). -/
def advanceWith (run : Instr → State → Res) (s : State) : Res :=
  match s.tag with
  | .thumb => raiseUnimplemented .thumbState
  | .arm => advanceArm run s

/-- The state in which the next call executes the word `w`: ARM state and a full pipeline with `w` in the decode latch.
The fetch latch keeps its word; an empty one gets the word it holds in a steady pipeline, that of the address before R15
(rules R92, R97; log entry 6). -/
def placeForExecution (s : State) (w : Word) : State :=
  { s.setTag .arm with
    fetchLatch := some (s.fetchLatch.getD (s.mem.readWord (s.pc - 4#32))), decodeLatch := some w }

end Sys2Proof.Machine
end

