-- ==== Sys2Proof/Machine/Step.lean ====
section
/-! DEFINITION. One step of the machine is one call of `advance` (`40_pipeline_sequencer.md` rule R92). -/

namespace Sys2Proof.Machine

/-- One call of `advance` with the executor of `exec`. -/
def step (s : State) : Host.Outcome State Fault Refusal := advanceWith exec s

/-- The state whose very next step runs the instruction of the opcode table's numbering (log entry 6). -/
def State.withFetchWord (s : State) (nbits w : Nat) : State := placeForExecution s (BitVec.ofNat 32 (w % 2 ^ nbits))

end Sys2Proof.Machine
end

