-- ==== Sys2Proof/Machine/HostPort.lean ====
section
/-! DEFINITION. What the host does to the machine: it constructs it from the open parameters (`10_state.md` rule R35,
`20_memory.md` rule R49), and between calls it reads and writes registers, flags and T through the register-access port
(rule R34) and bytes through the memory port (rule R43). -/

namespace Sys2Proof.Machine

/-! ## Construction -/

/-- The cells of an image placed at an address: its bytes that are not 0. -/
def imageCells : Nat → List Byte → List Host.Cell
  | _, [] => []
  | a, v :: rest => if v = 0#8 then imageCells (a + 1) rest else (a, v) :: imageCells (a + 1) rest

/-- The map of a memory constructed from the parameters. -/
def paramsMap (p : Config.Params) : MemMap :=
  ⟨p.iwramBase, p.ewramBase, p.firmwareImage.length, p.romImage.length, p.roRegionsWritable⟩

/-- What rule R49 requires of the parameters. -/
def paramsWf (p : Config.Params) : Bool := (paramsMap p).wf

/-- The memory collaborator at reset (rule R49): the images at their bases, zero everywhere else. -/
def constructMemory (p : Config.Params) : Memory :=
  ⟨paramsMap p, imageCells firmwareBase.toNat p.firmwareImage ++ imageCells romBase.toNat p.romImage⟩

/-- The state after reset of a machine constructed from the parameters (rules R35, R220): `State.reset` but for what
the parameters say. -/
def constructState (p : Config.Params) : State :=
  { State.reset with
    status := { State.reset.status with opaqueBits := p.resetStatusOpaque }, mem := constructMemory p }

/-! ## The register-access port (rule R34): a set replaces the stored value and does nothing else -/

/-- Get a register: the stored value, R15 without an offset. -/
def hostGetReg (s : State) (r : Reg) : Word := s.reg r

/-- Set a register; the latches stay, R15 included (decision D21). -/
def hostSetReg (s : State) (r : Reg) (v : Word) : State := s.setReg r v

/-- Get the condition flags. -/
def hostGetFlags (s : State) : Flags := s.flags

/-- Set the condition flags. -/
def hostSetFlags (s : State) (f : Flags) : State := s.setFlags f

/-- Get the execution-state tag. -/
def hostGetTag (s : State) : ExecState := s.tag

/-- Set the execution-state tag; the latches stay (decision D21). -/
def hostSetTag (s : State) (t : ExecState) : State := s.setTag t

/-- Write a byte of memory through the memory port between calls (rule R43). -/
def hostWriteByte (s : State) (a : Word) (v : Byte) : State := s.setMem (s.mem.writeByte a v)

end Sys2Proof.Machine
end

