-- ==== Sys2Proof/Safety.lean ====
section
/-! DEFINITION. What a safe run is, in the terms the claims use: the states a run may be in, and a step that reports no
error. -/

namespace Sys2Proof.Machine

/-- The latch occupancy that rule R32 allows: never a full decode latch beside an empty fetch latch. -/
def latchesOk (s : State) : Bool := s.fetchLatch.isSome || s.decodeLatch.isNone

/-- The states a run may be in: the memory in its canonical form over a map that rule R49 allows, and the latches as
rule R32 says. -/
def stateOk (s : State) : Bool := s.mem.wf && s.mem.map.wf && latchesOk s

/-- The call reports no error (rules R99, R200). -/
def errorFree (s : State) : Bool :=
  match step s with
  | .next _ => true
  | .fault _ => false
  | .refused _ => false

/-- Both latches empty: the pipeline state Empty, or Flushed (rules R32, R91). -/
def pipelineEmpty (s : State) : Bool := s.fetchLatch.isNone && s.decodeLatch.isNone

/-- The instructions that write R15 and redirect (rules R23, R95). -/
def isBranch : Instr → Bool
  | .b .. | .bl .. | .bx .. => true
  | .andImm .. => false
  | .eorImm .. => false
  | .subImm .. => false
  | .rsbImm .. => false
  | .addImm .. => false
  | .adcImm .. => false
  | .sbcImm .. => false
  | .rscImm .. => false
  | .tstImm .. => false
  | .teqImm .. => false
  | .cmpImm .. => false
  | .cmnImm .. => false
  | .orrImm .. => false
  | .movImm .. => false
  | .bicImm .. => false
  | .mvnImm .. => false
  | .andReg .. => false
  | .eorReg .. => false
  | .subReg .. => false
  | .rsbReg .. => false
  | .addReg .. => false
  | .adcReg .. => false
  | .sbcReg .. => false
  | .rscReg .. => false
  | .tstReg .. => false
  | .teqReg .. => false
  | .cmpReg .. => false
  | .cmnReg .. => false
  | .orrReg .. => false
  | .movReg .. => false
  | .bicReg .. => false
  | .mvnReg .. => false
  | .mul .. => false
  | .mla .. => false
  | .umull .. => false
  | .umlal .. => false
  | .smull .. => false
  | .smlal .. => false
  | .swp .. => false
  | .swpb .. => false
  | .ldrImm .. => false
  | .strImm .. => false
  | .ldrbImm .. => false
  | .strbImm .. => false
  | .ldrReg .. => false
  | .strReg .. => false
  | .ldrbReg .. => false
  | .strbReg .. => false
  | .ldm .. => false
  | .stm .. => false
  | .errReservedCondition .. => false
  | .errHalfword01 .. => false
  | .errHalfword10 .. => false
  | .errHalfword11 .. => false
  | .errUndefined .. => false
  | .errCoprocessorOrSwi .. => false

end Sys2Proof.Machine
end

