-- ==== Sys2Proof/Certificates/Slice0/Obligations.lean ====
section
/-! DEFINITION. The statements for the provers, with the vocabulary they are written in. A next state is written out
field by field, so that a statement of a result is also the statement that the instruction completes and of what it
leaves unchanged. -/

namespace Sys2Proof.Claims

open Sys2Proof.Machine

/-! ## Operand forms and groups of instructions -/

/-- Operand2 of data processing in either form (rules R63, R64). -/
inductive Op2 where
  | imm (o : RotImm)
  | reg (o : ShiftedReg)

/-- The shifter's value and carry-out for an operand2 in a state (rules R121, R122). -/
def Op2.out (s : State) : Op2 → ShifterOut
  | .imm o => rotImm o s.flags.c
  | .reg o => shift o.kind o.amount.toNat (s.reg o.rm) s.flags.c

/-- A mnemonic of data processing with its two forms. -/
structure DpMnemonic where
  imm : Cond → Bool → Reg → Reg → RotImm → Instr
  reg : Cond → Bool → Reg → Reg → ShiftedReg → Instr

/-- The instruction of a mnemonic in the form of its operand2. -/
def DpMnemonic.instr (m : DpMnemonic) (c : Cond) (a : Bool) (rn rd : Reg) : Op2 → Instr
  | .imm o => m.imm c a rn rd o
  | .reg o => m.reg c a rn rd o

def opAnd : DpMnemonic := ⟨.andImm, .andReg⟩
def opEor : DpMnemonic := ⟨.eorImm, .eorReg⟩
def opSub : DpMnemonic := ⟨.subImm, .subReg⟩
def opRsb : DpMnemonic := ⟨.rsbImm, .rsbReg⟩
def opAdd : DpMnemonic := ⟨.addImm, .addReg⟩
def opAdc : DpMnemonic := ⟨.adcImm, .adcReg⟩
def opSbc : DpMnemonic := ⟨.sbcImm, .sbcReg⟩
def opRsc : DpMnemonic := ⟨.rscImm, .rscReg⟩
def opTst : DpMnemonic := ⟨.tstImm, .tstReg⟩
def opTeq : DpMnemonic := ⟨.teqImm, .teqReg⟩
def opCmp : DpMnemonic := ⟨.cmpImm, .cmpReg⟩
def opCmn : DpMnemonic := ⟨.cmnImm, .cmnReg⟩
def opOrr : DpMnemonic := ⟨.orrImm, .orrReg⟩
def opMov : DpMnemonic := ⟨.movImm, .movReg⟩
def opBic : DpMnemonic := ⟨.bicImm, .bicReg⟩
def opMvn : DpMnemonic := ⟨.mvnImm, .mvnReg⟩

/-- The twelve mnemonics of data processing that write a register. -/
def writing : List DpMnemonic := [opAnd, opEor, opSub, opRsb, opAdd, opAdc, opSbc, opRsc, opOrr, opMov, opBic, opMvn]

/-- The four that do not (rule R125). -/
def comparing : List DpMnemonic := [opTst, opTeq, opCmp, opCmn]

/-- The offset of a single data transfer in either form (rule R68). -/
inductive Offset where
  | imm (imm12 : BitVec 12)
  | reg (o : ShiftedReg)

/-- The offset's value (rule R181). -/
def Offset.value (s : State) : Offset → Word
  | .imm imm12 => imm12.setWidth 32
  | .reg o => (shift o.kind o.amount.toNat (s.reg o.rm) s.flags.c).value

/-- The register a register offset names. -/
def Offset.rm : Offset → Option Reg
  | .imm _ => none
  | .reg o => some o.rm

def ldr (c : Cond) (ix : Indexing) (rn rd : Reg) : Offset → Instr
  | .imm o => .ldrImm c ix rn rd o
  | .reg o => .ldrReg c ix rn rd o

def ldrb (c : Cond) (ix : Indexing) (rn rd : Reg) : Offset → Instr
  | .imm o => .ldrbImm c ix rn rd o
  | .reg o => .ldrbReg c ix rn rd o

def str (c : Cond) (ix : Indexing) (rn rd : Reg) : Offset → Instr
  | .imm o => .strImm c ix rn rd o
  | .reg o => .strReg c ix rn rd o

def strb (c : Cond) (ix : Indexing) (rn rd : Reg) : Offset → Instr
  | .imm o => .strbImm c ix rn rd o
  | .reg o => .strbReg c ix rn rd o

/-! ## Next states -/

/-- The state after an executed, non-redirecting instruction that wrote these registers and flags and nothing else. -/
def after (s : State) (regs : Vector Word 16) (flags : Flags) : State :=
  { s with regs := regs, status := { s.status with flags := flags }, report := .executed .continued }

/-- The registers with one of them replaced. -/
def with1 (s : State) (r : Reg) (v : Word) : Vector Word 16 := s.regs.set r.val v r.isLt

/-- The flags of a logical opcode (rule R126). -/
def logicalFlags (s : State) (result : Word) (carry : Bool) : Flags :=
  ⟨result.msb, decide (result = 0), carry, s.flags.v⟩

/-- The outcome of an operation that writes `result` to Rd and, with S = 1, the flags. -/
def writes (s : State) (a : Bool) (rd : Reg) (result : Word) (f : Flags) : Res :=
  .next (after s (with1 s rd result) (if a then f else s.flags))

/-- The outcome of a comparison: with S = 1 the flags, and no register. -/
def compares (s : State) (a : Bool) (f : Flags) : Res := .next (after s s.regs (if a then f else s.flags))

/-- The report of an error. -/
def unimplemented (r : UnimplementedReason) : Res := .fault (.unimplementedOperation r)

/-! ## What an instruction may change -/

/-- Every byte of memory reads the same. -/
def sameBytes (s t : State) : Prop := ∀ a, t.mem.readByte a = s.mem.readByte a

/-- Every byte outside the `n` bytes from address `a` reads the same. -/
def sameBytesOutside (s t : State) (a : Word) (n : Nat) : Prop :=
  ∀ b, (∀ k, k < n → b ≠ a + BitVec.ofNat 32 k) → t.mem.readByte b = s.mem.readByte b

/-- Every register outside the list keeps its value. -/
def sameRegsBut (s t : State) (l : List Reg) : Prop := ∀ q, q ∉ l → t.reg q = s.reg q

/-- The latches and the memory map are what they were: no instruction touches them. -/
def sameHidden (s t : State) : Prop :=
  t.fetchLatch = s.fetchLatch ∧ t.decodeLatch = s.decodeLatch ∧ t.mem.map = s.mem.map

/-! ## The condition field -/

/-- The word with its condition field replaced (rule R77). -/
def overrideCond (w : Word) (c : BitVec 4) : Word := (w &&& 0x0FFFFFFF#32) ||| (c.setWidth 32 <<< 28)

/-- The instruction with its condition replaced; an error row with its word's condition field replaced. -/
def recond (c : Cond) : Instr → Instr
  | .andImm _ a rn rd o => .andImm c a rn rd o
  | .eorImm _ a rn rd o => .eorImm c a rn rd o
  | .subImm _ a rn rd o => .subImm c a rn rd o
  | .rsbImm _ a rn rd o => .rsbImm c a rn rd o
  | .addImm _ a rn rd o => .addImm c a rn rd o
  | .adcImm _ a rn rd o => .adcImm c a rn rd o
  | .sbcImm _ a rn rd o => .sbcImm c a rn rd o
  | .rscImm _ a rn rd o => .rscImm c a rn rd o
  | .tstImm _ a rn rd o => .tstImm c a rn rd o
  | .teqImm _ a rn rd o => .teqImm c a rn rd o
  | .cmpImm _ a rn rd o => .cmpImm c a rn rd o
  | .cmnImm _ a rn rd o => .cmnImm c a rn rd o
  | .orrImm _ a rn rd o => .orrImm c a rn rd o
  | .movImm _ a rn rd o => .movImm c a rn rd o
  | .bicImm _ a rn rd o => .bicImm c a rn rd o
  | .mvnImm _ a rn rd o => .mvnImm c a rn rd o
  | .andReg _ a rn rd o => .andReg c a rn rd o
  | .eorReg _ a rn rd o => .eorReg c a rn rd o
  | .subReg _ a rn rd o => .subReg c a rn rd o
  | .rsbReg _ a rn rd o => .rsbReg c a rn rd o
  | .addReg _ a rn rd o => .addReg c a rn rd o
  | .adcReg _ a rn rd o => .adcReg c a rn rd o
  | .sbcReg _ a rn rd o => .sbcReg c a rn rd o
  | .rscReg _ a rn rd o => .rscReg c a rn rd o
  | .tstReg _ a rn rd o => .tstReg c a rn rd o
  | .teqReg _ a rn rd o => .teqReg c a rn rd o
  | .cmpReg _ a rn rd o => .cmpReg c a rn rd o
  | .cmnReg _ a rn rd o => .cmnReg c a rn rd o
  | .orrReg _ a rn rd o => .orrReg c a rn rd o
  | .movReg _ a rn rd o => .movReg c a rn rd o
  | .bicReg _ a rn rd o => .bicReg c a rn rd o
  | .mvnReg _ a rn rd o => .mvnReg c a rn rd o
  | .mul _ a x y rs rm => .mul c a x y rs rm
  | .mla _ a x y rs rm => .mla c a x y rs rm
  | .umull _ a x y rs rm => .umull c a x y rs rm
  | .umlal _ a x y rs rm => .umlal c a x y rs rm
  | .smull _ a x y rs rm => .smull c a x y rs rm
  | .smlal _ a x y rs rm => .smlal c a x y rs rm
  | .swp _ rn rd rm => .swp c rn rd rm
  | .swpb _ rn rd rm => .swpb c rn rd rm
  | .b _ x => .b c x
  | .bl _ x => .bl c x
  | .bx _ x => .bx c x
  | .ldrImm _ ix rn rd o => .ldrImm c ix rn rd o
  | .strImm _ ix rn rd o => .strImm c ix rn rd o
  | .ldrbImm _ ix rn rd o => .ldrbImm c ix rn rd o
  | .strbImm _ ix rn rd o => .strbImm c ix rn rd o
  | .ldrReg _ ix rn rd o => .ldrReg c ix rn rd o
  | .strReg _ ix rn rd o => .strReg c ix rn rd o
  | .ldrbReg _ ix rn rd o => .ldrbReg c ix rn rd o
  | .strbReg _ ix rn rd o => .strbReg c ix rn rd o
  | .ldm _ bm rn l => .ldm c bm rn l
  | .stm _ bm rn l => .stm c bm rn l
  | .errReservedCondition w => .errReservedCondition (overrideCond w c.bits)
  | .errHalfword01 w => .errHalfword01 (overrideCond w c.bits)
  | .errHalfword10 w => .errHalfword10 (overrideCond w c.bits)
  | .errHalfword11 w => .errHalfword11 (overrideCond w c.bits)
  | .errUndefined w => .errUndefined (overrideCond w c.bits)
  | .errCoprocessorOrSwi w => .errCoprocessorOrSwi (overrideCond w c.bits)

/-- The alter-flags bit of an instruction; the families without one write no flag (rule R27). -/
def altersFlags : Instr → Bool
  | .andImm _ a .. => a
  | .eorImm _ a .. => a
  | .subImm _ a .. => a
  | .rsbImm _ a .. => a
  | .addImm _ a .. => a
  | .adcImm _ a .. => a
  | .sbcImm _ a .. => a
  | .rscImm _ a .. => a
  | .tstImm _ a .. => a
  | .teqImm _ a .. => a
  | .cmpImm _ a .. => a
  | .cmnImm _ a .. => a
  | .orrImm _ a .. => a
  | .movImm _ a .. => a
  | .bicImm _ a .. => a
  | .mvnImm _ a .. => a
  | .andReg _ a .. => a
  | .eorReg _ a .. => a
  | .subReg _ a .. => a
  | .rsbReg _ a .. => a
  | .addReg _ a .. => a
  | .adcReg _ a .. => a
  | .sbcReg _ a .. => a
  | .rscReg _ a .. => a
  | .tstReg _ a .. => a
  | .teqReg _ a .. => a
  | .cmpReg _ a .. => a
  | .cmnReg _ a .. => a
  | .orrReg _ a .. => a
  | .movReg _ a .. => a
  | .bicReg _ a .. => a
  | .mvnReg _ a .. => a
  | .mul _ a .. => a
  | .mla _ a .. => a
  | .umull _ a .. => a
  | .umlal _ a .. => a
  | .smull _ a .. => a
  | .smlal _ a .. => a
  | .swp .. => false
  | .swpb .. => false
  | .b .. => false
  | .bl .. => false
  | .bx .. => false
  | .ldrImm .. => false
  | .strImm .. => false
  | .ldrbImm .. => false
  | .strbImm .. => false
  | .ldrReg .. => false
  | .strReg .. => false
  | .ldrbReg .. => false
  | .strbReg .. => false
  | .ldm .. => false
  | .stm .. => false
  | .errReservedCondition .. => false
  | .errHalfword01 .. => false
  | .errHalfword10 .. => false
  | .errHalfword11 .. => false
  | .errUndefined .. => false
  | .errCoprocessorOrSwi .. => false

end Sys2Proof.Claims

section

open Sys2Proof Sys2Proof.Machine Sys2Proof.Claims

/-! ## Reset and construction -/

/-- `10_state.md` section 7: the state after reset. The flags, T and the opaque bits are the spec's decision D7 (log entries
2, 3); that RAM reads 0 is its decision D26 (log entry 8); the report and the count of draws are the model's choice (log
entries 1, 5). -/
def Obligations.ResetStateIsAsTheSpecSays : Prop :=
  (∀ r, State.reset.reg r = 0) ∧ State.reset.flags = ⟨false, false, false, false⟩ ∧ State.reset.tag = .arm ∧
    State.reset.fetchLatch = none ∧ State.reset.decodeLatch = none ∧
    (∀ a, State.reset.mem.readByte a = 0) ∧ State.reset = constructState Config.defaultParams

/-- `20_memory.md` section 6 (rule R49): a constructed memory reads an image's bytes where it was loaded and zero at
every other address, whatever the parameters; and nothing but memory and the opaque bits depends on them. That RAM reads 0
is the spec's decision D26 (log entry 8), and the flags and T at reset are its decision D7 (log entry 3). -/
def Obligations.ConstructedMemoryHoldsTheImages : Prop :=
  ∀ p : Config.Params, paramsWf p = true →
    (∀ a : Word, (constructState p).mem.readByte a =
      if a.toNat < p.firmwareImage.length then p.firmwareImage.getD a.toNat 0
      else if 0x08000000 ≤ a.toNat ∧ a.toNat < 0x08000000 + p.romImage.length then
        p.romImage.getD (a.toNat - 0x08000000) 0
      else 0) ∧
    (constructState p).regs = State.reset.regs ∧ (constructState p).flags = State.reset.flags ∧
    (constructState p).tag = .arm ∧ (constructState p).fetchLatch = none ∧ (constructState p).decodeLatch = none ∧
    (constructState p).status.opaqueBits = p.resetStatusOpaque

/-- A constructed machine starts in a state a run may be in. -/
def Obligations.ConstructedStateIsOk : Prop := ∀ p : Config.Params, paramsWf p = true → stateOk (constructState p) = true

/-- The reset state is a state a run may be in. -/
def Obligations.ResetStateIsOk : Prop := stateOk State.reset = true

/-! ## Memory -/

/-- Rule R43: a byte write replaces the byte at a writable address and otherwise does nothing; no other byte changes. -/
def Obligations.ByteWriteReplacesOneByte : Prop :=
  ∀ (m : Memory) (a : Word) (v : Byte), m.wf = true →
    (m.map.writable a.toNat = true → (m.writeByte a v).readByte a = v) ∧
    (m.map.writable a.toNat = false → m.writeByte a v = m) ∧
    (∀ b, b ≠ a → (m.writeByte a v).readByte b = m.readByte b) ∧
    (m.writeByte a v).map = m.map ∧ (m.writeByte a v).wf = true

/-- `20_memory.md` section 6: which addresses are backed by storage and which of them a store changes, from the regions,
their sizes and the open parameters (rules R49 to R51); elsewhere a read gives 0 and a write does nothing. -/
def Obligations.UnmappedReadsZeroAndDropsWrites : Prop :=
  ∀ (m : Memory) (a : Word),
    let fw := a.toNat < min m.map.firmwareLen 0x4000
    let rom := 0x08000000 ≤ a.toNat ∧ a.toNat < 0x08000000 + min m.map.romLen 0x2000000
    let ram := (m.map.iwramBase.toNat ≤ a.toNat ∧ a.toNat < m.map.iwramBase.toNat + 0x8000) ∨
      (m.map.ewramBase.toNat ≤ a.toNat ∧ a.toNat < m.map.ewramBase.toNat + 0x40000)
    (m.map.backed a.toNat = true ↔ fw ∨ rom ∨ ram) ∧
    (m.map.writable a.toNat = true ↔ ram ∨ (m.map.roWritable = true ∧ (fw ∨ rom))) ∧
    (¬ (fw ∨ rom ∨ ram) → m.readByte a = 0 ∧ ∀ v, m.writeByte a v = m)

/-- `20_memory.md` sections 2 to 4 (rules R42, R44 to R46): a word read is the four bytes from its address, little-endian, in
every memory and at every address, writable or not; a word store changes each of its four bytes that is writable and no
other byte, so a word stored in writable bytes reads back. The store as four byte writes, the absence of alignment and the
wrap are the spec's decisions D8, D9, D10 (log entry 14). -/
def Obligations.StoredWordReadsBackLittleEndian : Prop :=
  (∀ (m : Memory) (a : Word) (k : Nat), k < 4 →
    (m.readWord a).extractLsb' (8 * k) 8 = m.readByte (a + BitVec.ofNat 32 k)) ∧
  ∀ (m : Memory) (a v : Word), m.wf = true →
    (∀ k, k < 4 → (m.writeWord a v).readByte (a + BitVec.ofNat 32 k) =
      if m.map.writable (a + BitVec.ofNat 32 k).toNat then v.extractLsb' (8 * k) 8
      else m.readByte (a + BitVec.ofNat 32 k)) ∧
    (∀ b, (∀ k, k < 4 → b ≠ a + BitVec.ofNat 32 k) → (m.writeWord a v).readByte b = m.readByte b) ∧
    ((∀ k, k < 4 → m.map.writable (a + BitVec.ofNat 32 k).toNat = true) → (m.writeWord a v).readWord a = v)

/-- Memories in canonical form over one map that read alike at every address are equal data. -/
def Obligations.CanonicalMemoriesThatReadAlikeAreEqual : Prop :=
  ∀ m m' : Memory, m.wf = true → m'.wf = true → m.map = m'.map → (∀ a, m.readByte a = m'.readByte a) → m = m'

/-! ## Decoding -/

/-- No bit of an encoding is dropped: decoding an encoded well-formed instruction gives it back. -/
def Obligations.DecodeOfEncodeIsTheInstruction : Prop := ∀ i : Instr, i.wellFormed = true → decodeWord (encode i) = i

/-- The decode tree and the opcode table agree (`30_encoding.md` sections 2 and 5): the instruction read from a word is
well formed, the word lies in that instruction's row, and in no other row once its condition is not reserved. -/
def Obligations.EveryWordLiesInExactlyItsRow : Prop :=
  ∀ w : Word, (decodeWord w).wellFormed = true ∧ inRow (decodeWord w).row.1 (decodeWord w).row.2 w = true ∧
    ∀ i : Instr, hasCondition w = true → i.row ≠ (0xF0000000, 0xF0000000) → inRow i.row.1 i.row.2 w = true →
      i.row = (decodeWord w).row

/-- `30_encoding.md` section 4 (rule R77): replacing the condition field changes the condition and nothing else of the
instruction; a word of an error bucket stays in that bucket; field 15 gives the reserved-condition error. -/
def Obligations.ConditionFieldIsIndependentOfTheBody : Prop :=
  ∀ (w : Word) (c : Cond),
    (hasCondition w = true → decodeWord (overrideCond w c.bits) = recond c (decodeWord w)) ∧
    decodeWord (overrideCond w 0xF) = .errReservedCondition (overrideCond w 0xF)

/-- Rules R66 and R69: the halfword bucket and the class 11 are DecodeErrors, by exactly the bits that select them, for
every word whose condition field is not reserved. -/
def Obligations.HalfwordAndCoprocessorWordsAreDecodeErrors : Prop :=
  ∀ w : Word, hasCondition w = true →
    (decode w = .error ⟨w, .halfwordTransfer⟩ ↔
      w.extractLsb' 25 3 = 0 ∧ w.getLsbD 7 = true ∧ w.getLsbD 4 = true ∧ w.extractLsb' 5 2 ≠ 0) ∧
    (decode w = .error ⟨w, .coprocessorOrSwi⟩ ↔ w.extractLsb' 26 2 = 3)

/-- `30_encoding.md` section 5: the reserved condition is reported whatever the body (the spec's decision D1), then the
undefined bucket; these with the halfword bucket and class 11 are all the words that are not instructions. -/
def Obligations.ReservedAndUndefinedWordsAreDecodeErrors : Prop :=
  ∀ w : Word,
    (decode w = .error ⟨w, .reservedCondition⟩ ↔ w.extractLsb' 28 4 = 15) ∧
    (decode w = .error ⟨w, .undefinedEncoding⟩ ↔
      w.extractLsb' 28 4 ≠ 15 ∧ w.extractLsb' 26 2 = 1 ∧ w.getLsbD 25 = true ∧ w.getLsbD 4 = true) ∧
    ((∃ i, decode w = .ok i) ↔ w.extractLsb' 28 4 ≠ 15 ∧ w.extractLsb' 26 2 ≠ 3 ∧
      ¬ (w.extractLsb' 26 2 = 1 ∧ w.getLsbD 25 = true ∧ w.getLsbD 4 = true) ∧
      ¬ (w.extractLsb' 25 3 = 0 ∧ w.getLsbD 7 = true ∧ w.getLsbD 4 = true ∧ w.extractLsb' 5 2 ≠ 0))

/-- Words of the spec's test vectors V1, V2, V9, V14, V28, V35, V38, V39 and of the worked examples of rules R63 and
R157, one or more for each family, decode to the instructions they stand for. -/
def Obligations.WorkedWordsDecode : Prop :=
  decodeWord 0xE0833002 = .addReg .al false 3 3 ⟨2, .lsl, 0⟩ ∧ decodeWord 0xEA000032 = .b .al 50 ∧
    decodeWord 0xE1A00211 = .bx .al 1 ∧ decodeWord 0xE12FFF1E = .bx .al 14 ∧
    decodeWord 0xE3A00005 = .movImm .al false 0 0 ⟨0, 5⟩ ∧ decodeWord 0xE0400291 = .mul .al false 0 0 2 1 ∧
    decodeWord 0xE0E10392 = .smlal .al false 1 0 3 2 ∧ decodeWord 0xE1B20091 = .swp .al 2 0 1 ∧
    decodeWord 0xE7910102 = .ldrReg .al ⟨true, true, false⟩ 1 0 ⟨2, .lsl, 2⟩ ∧
    decodeWord 0xE8BD4030 = .ldm .al ⟨false, true, false, true⟩ 13 0x4030 ∧
    decodeWord 0x0F000000 = .errCoprocessorOrSwi 0x0F000000

/-! ## Operands and flags -/

/-- Rules R71 and R121: the immediate operand is the 8-bit value rotated right by twice the rotate field; the shifter's
carry-out that goes with it is the C flag for rotate = 0 and bit 31 of the value otherwise; operand2 takes both. The spec
marks the carry-out as from general knowledge (log entry 19). -/
def Obligations.ImmediateIsRotatedByTwiceItsField : Prop :=
  ∀ (o : RotImm) (c : Bool),
    (rotImm o c).value = (o.imm8.setWidth 32).rotateRight (2 * o.rotate.toNat) ∧
    (∀ i, i < 32 → (rotImm o c).value.getLsbD i = (o.imm8.setWidth 32).getLsbD ((i + 2 * o.rotate.toNat) % 32)) ∧
    (o.rotate = 0 → (rotImm o c).carry = c) ∧
    (o.rotate ≠ 0 → (rotImm o c).carry = (rotImm o c).value.getLsbD 31) ∧
    ∀ s : State, immOperand o s = rotImm o s.flags.c

/-- Rule R122, row by row and bit by bit: the shifter's value and carry-out; operand2 applies it to `x[Rm]` and the C flag,
and the register offset of a single transfer is its value. -/
def Obligations.ShifterFollowsItsTable : Prop :=
  (∀ (o : ShiftedReg) (s : State), regOperand o s = shift o.kind o.amount.toNat (s.reg o.rm) s.flags.c ∧
    regOffset o s = (shift o.kind o.amount.toNat (s.reg o.rm) s.flags.c).value) ∧
  ∀ (m : Word) (c : Bool) (n : Nat), n < 32 →
    (shift .lsl 0 m c = ⟨m, c⟩) ∧
    (shift .lsr 0 m c = ⟨0, m.msb⟩) ∧
    (shift .asr 0 m c = ⟨if m.msb then 0xFFFFFFFF else 0, m.msb⟩) ∧
    ((shift .ror 0 m c).carry = m.getLsbD 0 ∧
      ∀ i, i < 32 → (shift .ror 0 m c).value.getLsbD i = if i = 31 then c else m.getLsbD (i + 1)) ∧
    (0 < n →
      ((shift .lsl n m c).carry = m.getLsbD (32 - n) ∧
        ∀ i, i < 32 → (shift .lsl n m c).value.getLsbD i = (decide (n ≤ i) && m.getLsbD (i - n))) ∧
      ((shift .lsr n m c).carry = m.getLsbD (n - 1) ∧
        ∀ i, i < 32 → (shift .lsr n m c).value.getLsbD i = m.getLsbD (i + n)) ∧
      ((shift .asr n m c).carry = m.getLsbD (n - 1) ∧
        ∀ i, i < 32 → (shift .asr n m c).value.getLsbD i = if i + n < 32 then m.getLsbD (i + n) else m.msb) ∧
      ((shift .ror n m c).carry = m.getLsbD (n - 1) ∧ (shift .ror n m c).carry = (shift .ror n m c).value.msb ∧
        ∀ i, i < 32 → (shift .ror n m c).value.getLsbD i = m.getLsbD ((i + n) % 32)))

/-- Rule R73: the field is a signed word count, and the byte offset four times it, for every field; and every count of the
range encodes into a branch word that decodes to it. -/
def Obligations.BranchOffsetIsFourTimesTheSignedField : Prop :=
  (∀ offset24 : BitVec 24, (branchOffset offset24).toInt = 4 * offset24.toInt ∧
    -(2 ^ 25) ≤ (branchOffset offset24).toInt ∧ (branchOffset offset24).toInt ≤ 2 ^ 25 - 4) ∧
  ∀ (k : Int) (c : Cond), -(2 ^ 23) ≤ k → k ≤ 2 ^ 23 - 1 →
    ∃ offset24 : BitVec 24, offset24.toInt = k ∧ decodeWord (encode (.b c offset24)) = .b c offset24 ∧
      decodeWord (encode (.bl c offset24)) = .bl c offset24

/-- Rule R127's AddWithCarry on unbounded integers, its closed form of the overflow flag, and C as the absence of a
borrow for a subtraction. -/
def Obligations.AddWithCarryIsExact : Prop :=
  ∀ (x y : Word) (cin : Bool),
    let o := addWithCarry x y cin
    let u := x.toNat + y.toNat + cin.toNat
    o.result.toNat = u % 2 ^ 32 ∧ (o.flags.c = true ↔ 2 ^ 32 ≤ u) ∧ (o.flags.n = o.result.getLsbD 31) ∧
      (o.flags.z = true ↔ o.result = 0) ∧
      (o.flags.v = true ↔ x.toInt + y.toInt + (cin.toNat : Int) ≠ o.result.toInt) ∧
      (o.flags.v = true ↔ x.msb = y.msb ∧ o.result.msb ≠ x.msb) ∧
      (addWithCarry x (~~~y) true).result = x - y ∧
      ((addWithCarry x (~~~y) true).flags.c = true ↔ y.toNat ≤ x.toNat)

/-- Rule R110, expression by expression. -/
def Obligations.ConditionTableHolds : Prop :=
  ∀ f : Flags,
    (condHolds .eq f = true ↔ f.z = true) ∧ (condHolds .ne f = true ↔ f.z = false) ∧
    (condHolds .cs f = true ↔ f.c = true) ∧ (condHolds .cc f = true ↔ f.c = false) ∧
    (condHolds .mi f = true ↔ f.n = true) ∧ (condHolds .pl f = true ↔ f.n = false) ∧
    (condHolds .vs f = true ↔ f.v = true) ∧ (condHolds .vc f = true ↔ f.v = false) ∧
    (condHolds .hi f = true ↔ f.c = true ∧ f.z = false) ∧ (condHolds .ls f = true ↔ f.c = false ∨ f.z = true) ∧
    (condHolds .ge f = true ↔ f.n = f.v) ∧ (condHolds .lt f = true ↔ f.n ≠ f.v) ∧
    (condHolds .gt f = true ↔ f.z = false ∧ f.n = f.v) ∧ (condHolds .le f = true ↔ f.z = true ∨ f.n ≠ f.v) ∧
    condHolds .al f = true

/-! ## Data processing -/

/-- Rules R126, R129, R130, R141, R143: AND, EOR, ORR, BIC in both forms, for every destination but R15. -/
def Obligations.LogicalOpcodesComplete : Prop :=
  ∀ (c : Cond) (a : Bool) (rn rd : Reg) (o : Op2) (s : State), condHolds c s.flags = true → rd ≠ 15 →
    let x := s.reg rn
    let y := (o.out s).value
    let done := fun r => writes s a rd r (logicalFlags s r (o.out s).carry)
    exec (opAnd.instr c a rn rd o) s = done (x &&& y) ∧ exec (opEor.instr c a rn rd o) s = done (x ^^^ y) ∧
      exec (opOrr.instr c a rn rd o) s = done (x ||| y) ∧ exec (opBic.instr c a rn rd o) s = done (x &&& ~~~y)

/-- Rules R142 and R144: MOV and MVN in both forms; Rn is ignored whatever it is. -/
def Obligations.MoveOpcodesComplete : Prop :=
  ∀ (c : Cond) (a : Bool) (rn rd : Reg) (o : Op2) (s : State), condHolds c s.flags = true → rd ≠ 15 →
    let y := (o.out s).value
    let done := fun r => writes s a rd r (logicalFlags s r (o.out s).carry)
    exec (opMov.instr c a rn rd o) s = done y ∧ exec (opMvn.instr c a rn rd o) s = done (~~~y)

/-- Rules R131, R132, R133: SUB, RSB, ADD in both forms, with the result as a difference or a sum and the flags of
AddWithCarry. -/
def Obligations.AddAndSubtractComplete : Prop :=
  ∀ (c : Cond) (a : Bool) (rn rd : Reg) (o : Op2) (s : State), condHolds c s.flags = true → rd ≠ 15 →
    let x := s.reg rn
    let y := (o.out s).value
    exec (opSub.instr c a rn rd o) s = writes s a rd (x - y) (addWithCarry x (~~~y) true).flags ∧
      exec (opRsb.instr c a rn rd o) s = writes s a rd (y - x) (addWithCarry y (~~~x) true).flags ∧
      exec (opAdd.instr c a rn rd o) s = writes s a rd (x + y) (addWithCarry x y false).flags

/-- Rules R134, R135, R136: ADC, SBC, RSC in both forms, C being the flag before the instruction. -/
def Obligations.CarryOpcodesComplete : Prop :=
  ∀ (c : Cond) (a : Bool) (rn rd : Reg) (o : Op2) (s : State), condHolds c s.flags = true → rd ≠ 15 →
    let x := s.reg rn
    let y := (o.out s).value
    let k : Word := if s.flags.c then 1 else 0
    exec (opAdc.instr c a rn rd o) s = writes s a rd (x + y + k) (addWithCarry x y s.flags.c).flags ∧
      exec (opSbc.instr c a rn rd o) s = writes s a rd (x - y - (1 - k)) (addWithCarry x (~~~y) s.flags.c).flags ∧
      exec (opRsc.instr c a rn rd o) s = writes s a rd (y - x - (1 - k)) (addWithCarry y (~~~x) s.flags.c).flags

/-- Rules R137 and R138: TST and TEQ in both forms, whatever Rd is; with S = 0 nothing but the report changes. -/
def Obligations.TestOpcodesComplete : Prop :=
  ∀ (c : Cond) (a : Bool) (rn rd : Reg) (o : Op2) (s : State), condHolds c s.flags = true →
    let x := s.reg rn
    let y := (o.out s).value
    exec (opTst.instr c a rn rd o) s = compares s a (logicalFlags s (x &&& y) (o.out s).carry) ∧
      exec (opTeq.instr c a rn rd o) s = compares s a (logicalFlags s (x ^^^ y) (o.out s).carry)

/-- Rules R139 and R140: CMP and CMN in both forms, whatever Rd is; the flags of the difference and of the sum. -/
def Obligations.CompareOpcodesComplete : Prop :=
  ∀ (c : Cond) (a : Bool) (rn rd : Reg) (o : Op2) (s : State), condHolds c s.flags = true →
    let x := s.reg rn
    let y := (o.out s).value
    exec (opCmp.instr c a rn rd o) s = compares s a
        ⟨(x - y).msb, decide (x = y), decide (y.toNat ≤ x.toNat), decide (x.toInt - y.toInt ≠ (x - y).toInt)⟩ ∧
      exec (opCmn.instr c a rn rd o) s = compares s a
        ⟨(x + y).msb, decide (x + y = 0), decide (2 ^ 32 ≤ x.toNat + y.toNat),
          decide (x.toInt + y.toInt ≠ (x + y).toInt)⟩

/-- `42_data_processing.md` rule R128 (the spec's decision D5): a writing opcode with Rd = 15 reports the error, with S = 0
and with S = 1. -/
def Obligations.DataProcessingWriteToR15IsRefused : Prop :=
  ∀ m ∈ writing, ∀ (c : Cond) (a : Bool) (rn : Reg) (o : Op2) (s : State), condHolds c s.flags = true →
    exec (m.instr c a rn 15 o) s = unimplemented .writesPc

/-! ## Multiply -/

/-- `43_multiply.md` (rules R150, R152, R153): MUL and MLA. C after S = 1 is the draw at the state's count, whatever it
is (decision D18, log entry 1). -/
def Obligations.MultiplyComplete : Prop :=
  ∀ (c : Cond) (a : Bool) (rd rn rs rm : Reg) (s : State), condHolds c s.flags = true →
    rd ≠ 15 → rm ≠ 15 → rs ≠ 15 → rd ≠ rm →
    let done := fun r : Word =>
      Host.Outcome.next { after s (with1 s rd r)
          (if a then ⟨r.msb, decide (r = 0), Config.mulCarryDraw s.draws, s.flags.v⟩ else s.flags) with
        draws := if a then s.draws + 1 else s.draws }
    exec (.mul c a rd rn rs rm) s = done (BitVec.ofNat 32 ((s.reg rm).toNat * (s.reg rs).toNat)) ∧
      (rn ≠ 15 → exec (.mla c a rd rn rs rm) s =
        done (BitVec.ofNat 32 ((s.reg rm).toNat * (s.reg rs).toNat + (s.reg rn).toNat)))

/-- `43_multiply.md` (rules R150, R154 to R157): the long forms, the 64-bit result split over RdHi and RdLo. C and V
after S = 1 are draws (decision D18, log entry 1). -/
def Obligations.MultiplyLongComplete : Prop :=
  ∀ (c : Cond) (a : Bool) (hi lo rs rm : Reg) (s : State), condHolds c s.flags = true →
    hi ≠ 15 → lo ≠ 15 → rm ≠ 15 → rs ≠ 15 → hi ≠ lo → hi ≠ rm → lo ≠ rm →
    let done := fun r : BitVec 64 =>
      Host.Outcome.next { after s ((with1 s lo (r.setWidth 32)).set hi.val ((r >>> 32).setWidth 32) hi.isLt)
          (if a then ⟨r.msb, decide (r = 0), Config.mullCarryDraw s.draws, Config.mullOverflowDraw s.draws⟩
            else s.flags) with
        draws := if a then s.draws + 1 else s.draws }
    let acc : Nat := 2 ^ 32 * (s.reg hi).toNat + (s.reg lo).toNat
    let up : Nat := (s.reg rm).toNat * (s.reg rs).toNat
    let sp : Int := (s.reg rm).toInt * (s.reg rs).toInt
    exec (.umull c a hi lo rs rm) s = done (BitVec.ofNat 64 up) ∧
      exec (.umlal c a hi lo rs rm) s = done (BitVec.ofNat 64 (up + acc)) ∧
      exec (.smull c a hi lo rs rm) s = done (BitVec.ofInt 64 sp) ∧
      exec (.smlal c a hi lo rs rm) s = done (BitVec.ofInt 64 (sp + acc))

/-- `43_multiply.md` rule R151 (the spec's decisions D5, D19, D20): what each multiply refuses, the first check that
applies. -/
def Obligations.MultiplyRefusals : Prop :=
  ∀ (c : Cond) (a : Bool) (rd rn rs rm : Reg) (s : State), condHolds c s.flags = true →
    (rd = 15 → exec (.mul c a rd rn rs rm) s = unimplemented .writesPc ∧
      exec (.mla c a rd rn rs rm) s = unimplemented .writesPc) ∧
    (rd ≠ 15 → (rm = 15 ∨ rs = 15) → exec (.mul c a rd rn rs rm) s = unimplemented .pcOperand) ∧
    (rd ≠ 15 → (rm = 15 ∨ rs = 15 ∨ rn = 15) → exec (.mla c a rd rn rs rm) s = unimplemented .pcOperand) ∧
    (rd ≠ 15 → rs ≠ 15 → rd = rm → exec (.mul c a rd rn rs rm) s = unimplemented .multiplyOperandRestriction) ∧
    (rd ≠ 15 → rs ≠ 15 → rn ≠ 15 → rd = rm →
      exec (.mla c a rd rn rs rm) s = unimplemented .multiplyOperandRestriction) ∧
    ∀ mk ∈ ([Instr.umull, .umlal, .smull, .smlal] : List (Cond → Bool → Reg → Reg → Reg → Reg → Instr)),
      ((rd = 15 ∨ rn = 15) → exec (mk c a rd rn rs rm) s = unimplemented .writesPc) ∧
      (rd ≠ 15 → rn ≠ 15 → (rm = 15 ∨ rs = 15) → exec (mk c a rd rn rs rm) s = unimplemented .pcOperand) ∧
      (rd ≠ 15 → rn ≠ 15 → rm ≠ 15 → rs ≠ 15 → (rd = rn ∨ rd = rm ∨ rn = rm) →
        exec (mk c a rd rn rs rm) s = unimplemented .multiplyOperandRestriction)

/-! ## Swap -/

/-- Rules R162 and R163: SWP and SWPB read, then write, then load Rd. -/
def Obligations.SwapComplete : Prop :=
  ∀ (c : Cond) (rn rd rm : Reg) (s : State), condHolds c s.flags = true →
    rd ≠ 15 → rn ≠ 15 → rm ≠ 15 → rn ≠ rd → rn ≠ rm →
    exec (.swp c rn rd rm) s =
        .next { after s (with1 s rd (s.mem.readWord (s.reg rn))) s.flags with
          mem := s.mem.writeWord (s.reg rn) (s.reg rm) } ∧
      exec (.swpb c rn rd rm) s =
        .next { after s (with1 s rd ((s.mem.readByte (s.reg rn)).setWidth 32)) s.flags with
          mem := s.mem.writeByte (s.reg rn) ((s.reg rm).setWidth 8) }

/-- `44_swap.md` rule R161 (the spec's decisions D5, D20): what a swap refuses, the first check that applies. -/
def Obligations.SwapRefusals : Prop :=
  ∀ (c : Cond) (rn rd rm : Reg) (s : State), condHolds c s.flags = true →
    ∀ mk ∈ ([Instr.swp, .swpb] : List (Cond → Reg → Reg → Reg → Instr)),
      (rd = 15 → exec (mk c rn rd rm) s = unimplemented .writesPc) ∧
      (rd ≠ 15 → (rn = 15 ∨ rm = 15) → exec (mk c rn rd rm) s = unimplemented .pcOperand) ∧
      (rd ≠ 15 → rn ≠ 15 → rm ≠ 15 → (rn = rd ∨ rn = rm) →
        exec (mk c rn rd rm) s = unimplemented .swapOperandRestriction)

/-! ## Single data transfer -/

/-- `46_single_data_transfer.md` (rules R180, R184, R186): LDR and LDRB, every offset form and every P, U, W. That the base is
written back for P = 0 whatever W is, is the spec's decision D17 (log entry 16). -/
def Obligations.SingleLoadsComplete : Prop :=
  ∀ (c : Cond) (ix : Indexing) (rn rd : Reg) (o : Offset) (s : State), condHolds c s.flags = true →
    let wb := ix.p = false ∨ ix.w = true
    rd ≠ 15 → o.rm ≠ some 15 → (wb → rn ≠ 15 ∧ rn ≠ rd ∧ o.rm ≠ some rn) →
    let base := s.reg rn
    let idx := if ix.u then base + o.value s else base - o.value s
    let ea := if ix.p then idx else base
    let done := fun v : Word =>
      Host.Outcome.next (after s (if ix.p = false ∨ ix.w = true then (with1 s rd v).set rn.val idx rn.isLt
        else with1 s rd v) s.flags)
    exec (ldr c ix rn rd o) s = done (s.mem.readWord ea) ∧
      exec (ldrb c ix rn rd o) s = done ((s.mem.readByte ea).setWidth 32)

/-- `46_single_data_transfer.md` (rules R180, R185, R187): STR and STRB, every offset form and every P, U, W; Rd = 15 stores the
stored R15. That the base is written back for P = 0 whatever W is, is the spec's decision D17 (log entry 16). -/
def Obligations.SingleStoresComplete : Prop :=
  ∀ (c : Cond) (ix : Indexing) (rn rd : Reg) (o : Offset) (s : State), condHolds c s.flags = true →
    let wb := ix.p = false ∨ ix.w = true
    o.rm ≠ some 15 → (wb → rn ≠ 15 ∧ rn ≠ rd ∧ o.rm ≠ some rn) →
    let base := s.reg rn
    let idx := if ix.u then base + o.value s else base - o.value s
    let ea := if ix.p then idx else base
    let done := fun m : Memory =>
      Host.Outcome.next { after s (if ix.p = false ∨ ix.w = true then with1 s rn idx else s.regs) s.flags with
        mem := m }
    exec (str c ix rn rd o) s = done (s.mem.writeWord ea (s.reg rd)) ∧
      exec (strb c ix rn rd o) s = done (s.mem.writeByte ea ((s.reg rd).setWidth 8))

/-- `46_single_data_transfer.md` rule R182 (the spec's decisions D5, D16, D17, D20; log entries 15, 16): what a single
transfer refuses, the first check that applies. -/
def Obligations.SingleTransferRefusals : Prop :=
  ∀ (c : Cond) (ix : Indexing) (rn rd : Reg) (o : Offset) (s : State), condHolds c s.flags = true →
    let wb := ix.p = false ∨ ix.w = true
    (rd = 15 → exec (ldr c ix rn rd o) s = unimplemented .writesPc ∧
      exec (ldrb c ix rn rd o) s = unimplemented .writesPc) ∧
    (wb → rn = 15 → ∀ mk ∈ [ldr, ldrb, str, strb], exec (mk c ix rn rd o) s = unimplemented .writesPc) ∧
    ((wb → rn ≠ 15) → o.rm = some 15 →
      (exec (str c ix rn rd o) s = unimplemented .pcOperand ∧ exec (strb c ix rn rd o) s = unimplemented .pcOperand) ∧
      (rd ≠ 15 → exec (ldr c ix rn rd o) s = unimplemented .pcOperand ∧
        exec (ldrb c ix rn rd o) s = unimplemented .pcOperand)) ∧
    (wb → rn ≠ 15 → o.rm ≠ some 15 → (rn = rd ∨ o.rm = some rn) →
      (exec (str c ix rn rd o) s = unimplemented .baseRegisterConflict ∧
        exec (strb c ix rn rd o) s = unimplemented .baseRegisterConflict) ∧
      (rd ≠ 15 → exec (ldr c ix rn rd o) s = unimplemented .baseRegisterConflict ∧
        exec (ldrb c ix rn rd o) s = unimplemented .baseRegisterConflict))

/-! ## Block data transfer -/

/-- Rule R75: the list is the set bits of the mask, in ascending order. -/
def Obligations.RegisterListIsTheSetBitsAscending : Prop :=
  ∀ list : BitVec 16, (listedRegs list).Pairwise (· < ·) ∧
    ∀ r : Reg, r ∈ listedRegs list ↔ list.getLsbD r.val = true

/-- Rule R193 with the addresses of the four modes: LDM loads the k-th listed register from the k-th word, writes the
base back with W = 1, and changes nothing else. -/
def Obligations.LoadMultipleComplete : Prop :=
  ∀ (c : Cond) (bm : BlockMode) (rn : Reg) (list : BitVec 16) (s : State), condHolds c s.flags = true →
    bm.s = false → list ≠ 0 → rn ≠ 15 → list.getLsbD 15 = false → (bm.w = true → list.getLsbD rn.val = false) →
    let regs := listedRegs list
    let bytes := BitVec.ofNat 32 (4 * regs.length)
    let base := s.reg rn
    let start := if bm.u then (if bm.p then base + 4 else base) else (if bm.p then base - bytes else base - bytes + 4)
    let wbval := if bm.u then base + bytes else base - bytes
    ∃ t, exec (.ldm c bm rn list) s = .next t ∧
      (∀ k (h : k < regs.length), t.reg regs[k] = s.mem.readWord (start + BitVec.ofNat 32 (4 * k))) ∧
      (bm.w = true → t.reg rn = wbval) ∧
      (∀ q, q ∉ regs → (bm.w = true → q ≠ rn) → t.reg q = s.reg q) ∧
      t = { s with regs := t.regs, report := .executed .continued }

/-- Rule R194 with the addresses of the four modes, over a memory in canonical form (which every step keeps): STM
stores the k-th listed register in the k-th word where that is writable, changes no other byte, writes the base back
with W = 1, and changes nothing else. -/
def Obligations.StoreMultipleComplete : Prop :=
  ∀ (c : Cond) (bm : BlockMode) (rn : Reg) (list : BitVec 16) (s : State), condHolds c s.flags = true →
    bm.s = false → list ≠ 0 → rn ≠ 15 → (bm.w = true → list.getLsbD rn.val = false) → s.mem.wf = true →
    let regs := listedRegs list
    let bytes := BitVec.ofNat 32 (4 * regs.length)
    let base := s.reg rn
    let start := if bm.u then (if bm.p then base + 4 else base) else (if bm.p then base - bytes else base - bytes + 4)
    let wbval := if bm.u then base + bytes else base - bytes
    ∃ t, exec (.stm c bm rn list) s = .next t ∧
      (∀ k (h : k < regs.length), ∀ j, j < 4 →
        let a := start + BitVec.ofNat 32 (4 * k + j)
        s.mem.map.writable a.toNat = true → t.mem.readByte a = (s.reg regs[k]).extractLsb' (8 * j) 8) ∧
      (∀ a, (s.mem.map.writable a.toNat = false ∨ ∀ k, k < 4 * regs.length → a ≠ start + BitVec.ofNat 32 k) →
        t.mem.readByte a = s.mem.readByte a) ∧
      t.mem.map = s.mem.map ∧
      t = { s with
        regs := if bm.w then with1 s rn wbval else s.regs, mem := t.mem, report := .executed .continued }

/-- `47_block_data_transfer.md` rule R192 (the spec's decisions D5, D13, D14, D15, D20): what a block transfer refuses,
the first check that applies. -/
def Obligations.BlockTransferRefusals : Prop :=
  ∀ (c : Cond) (bm : BlockMode) (rn : Reg) (list : BitVec 16) (s : State), condHolds c s.flags = true →
    (∀ mk ∈ ([Instr.ldm, .stm] : List (Cond → BlockMode → Reg → BitVec 16 → Instr)),
      (bm.s = true → exec (mk c bm rn list) s = unimplemented .forceModeBits) ∧
      (bm.s = false → list = 0 → exec (mk c bm rn list) s = unimplemented .emptyRegisterList) ∧
      (bm.s = false → list ≠ 0 → rn = 15 → exec (mk c bm rn list) s = unimplemented .pcOperand)) ∧
    (bm.s = false → rn ≠ 15 → list.getLsbD 15 = true → exec (.ldm c bm rn list) s = unimplemented .writesPc) ∧
    (bm.s = false → rn ≠ 15 → bm.w = true → list.getLsbD rn.val = true →
      exec (.stm c bm rn list) s = unimplemented .baseRegisterConflict ∧
      (list.getLsbD 15 = false → exec (.ldm c bm rn list) s = unimplemented .baseRegisterConflict))

/-! ## Branch -/

/-- Rules R171 and R172: B and BL at address A (so that `x[15]` reads A + 8) with the word count k go to A + 8 + 4k and
redirect; BL leaves A + 4 in R14. -/
def Obligations.BranchAndLinkComplete : Prop :=
  ∀ (c : Cond) (s : State) (A : Word) (offset24 : BitVec 24), condHolds c s.flags = true → s.pc = A + 8 →
    let target := A + 8 + BitVec.ofInt 32 (4 * offset24.toInt)
    exec (.b c offset24) s = .next { s with regs := with1 s 15 target, report := .executed .redirected } ∧
      exec (.bl c offset24) s =
        .next { s with regs := (with1 s 14 (A + 4)).set 15 target, report := .executed .redirected }

/-- Rule R173: BX, whatever Rm is, clears only bit 0 of the target, takes T from that bit, and redirects. -/
def Obligations.BranchExchangeComplete : Prop :=
  ∀ (c : Cond) (rm : Reg) (s : State), condHolds c s.flags = true →
    ∃ target : Word, target.getLsbD 0 = false ∧ (∀ i, 0 < i → target.getLsbD i = (s.reg rm).getLsbD i) ∧
      exec (.bx c rm) s =
        .next { s with
          regs := with1 s 15 target
          status := { s.status with tag := if (s.reg rm).getLsbD 0 then .thumb else .arm }
          report := .executed .redirected }

/-! ## Conditions, errors -/

/-- Rule R112: an instruction whose condition is false, whatever it is, changes nothing but the report, raises nothing, and
its step advances R15 by 4 without a flush; a DecodeError does not depend on the flags. -/
def Obligations.FalseConditionLeavesTheStateAlone : Prop :=
  (∀ (i : Instr) (c : Cond) (s : State), i.cond = some c → condHolds c s.flags = false →
    exec i s = .next { s with report := .skipped }) ∧
  (∀ (s : State) (w : Word) (c : Cond), s.tag = .arm → s.decodeLatch = some w → (decodeWord w).cond = some c →
    condHolds c s.flags = false →
    step s = .next { s with
      regs := with1 s 15 (s.pc + 4), fetchLatch := some (s.mem.readWord s.pc), decodeLatch := s.fetchLatch,
      report := .skipped }) ∧
  ∀ (i : Instr) (e : DecodeError) (s : State), i.decodeError = some e → exec i s = .fault (.decodeError e)

/-- `60_exceptions.md` section 1 (rule R201): a word of an error bucket raises its DecodeError in every state, with the
word and the reason (the names of the reasons are decision D22). -/
def Obligations.ErrorWordsRaiseTheirDecodeError : Prop :=
  ∀ (w : Word) (s : State),
    exec (.errReservedCondition w) s = .fault (.decodeError ⟨w, .reservedCondition⟩) ∧
    exec (.errHalfword01 w) s = .fault (.decodeError ⟨w, .halfwordTransfer⟩) ∧
    exec (.errHalfword10 w) s = .fault (.decodeError ⟨w, .halfwordTransfer⟩) ∧
    exec (.errHalfword11 w) s = .fault (.decodeError ⟨w, .halfwordTransfer⟩) ∧
    exec (.errUndefined w) s = .fault (.decodeError ⟨w, .undefinedEncoding⟩) ∧
    exec (.errCoprocessorOrSwi w) s = .fault (.decodeError ⟨w, .coprocessorOrSwi⟩)

/-- Every instruction has a meaning: none is refused, in any state. -/
def Obligations.NoInstructionIsRefused : Prop :=
  ∀ (i : Instr) (s : State) (r : Refusal), exec i s ≠ .refused r

/-! ## Frames -/

/-- What data processing leaves unchanged: every byte of memory, every register but Rd (none for a comparison), R15, the
flags with S = 0, V for a logical opcode, T, the opaque bits, the latches, the count of draws. -/
def Obligations.DataProcessingFrame : Prop :=
  ∀ (c : Cond) (a : Bool) (rn rd : Reg) (o : Op2) (s t : State),
    (∀ m ∈ writing, exec (m.instr c a rn rd o) s = .next t → sameRegsBut s t [rd] ∧ t.pc = s.pc) ∧
    (∀ m ∈ comparing, exec (m.instr c a rn rd o) s = .next t → sameRegsBut s t []) ∧
    (∀ m ∈ [opAnd, opEor, opTst, opTeq, opOrr, opMov, opBic, opMvn], exec (m.instr c a rn rd o) s = .next t →
      t.flags.v = s.flags.v) ∧
    (∀ m ∈ writing ++ comparing, exec (m.instr c a rn rd o) s = .next t →
      sameBytes s t ∧ sameHidden s t ∧ (a = false → t.flags = s.flags) ∧ t.tag = s.tag ∧
      t.status.opaqueBits = s.status.opaqueBits ∧ t.draws = s.draws)

/-- What a multiply leaves unchanged: every byte of memory, every register but its destinations, V for MUL and MLA, the
flags with S = 0, T, the opaque bits, the latches. -/
def Obligations.MultiplyFrame : Prop :=
  ∀ (c : Cond) (a : Bool) (x y rs rm : Reg) (s t : State),
    (∀ mk ∈ ([Instr.mul, .mla] : List (Cond → Bool → Reg → Reg → Reg → Reg → Instr)),
      exec (mk c a x y rs rm) s = .next t → sameRegsBut s t [x] ∧ t.flags.v = s.flags.v) ∧
    (∀ mk ∈ ([Instr.umull, .umlal, .smull, .smlal] : List (Cond → Bool → Reg → Reg → Reg → Reg → Instr)),
      exec (mk c a x y rs rm) s = .next t → sameRegsBut s t [x, y]) ∧
    (∀ mk ∈ ([Instr.mul, .mla, .umull, .umlal, .smull, .smlal] :
        List (Cond → Bool → Reg → Reg → Reg → Reg → Instr)),
      exec (mk c a x y rs rm) s = .next t →
        sameBytes s t ∧ sameHidden s t ∧ t.pc = s.pc ∧
        (a = false → t.flags = s.flags ∧ t.draws = s.draws) ∧ t.tag = s.tag ∧
        t.status.opaqueBits = s.status.opaqueBits)

/-- What a load leaves unchanged: every byte of memory; every register but Rd and, with write-back, Rn (for LDM the
listed registers and, with W = 1, Rn); the whole status word; the latches; the count of draws. A single load with P = 0
writes back whatever W is (the spec's decision D17, log entry 16). -/
def Obligations.LoadFrame : Prop :=
  ∀ (c : Cond) (s t : State),
    (∀ (ix : Indexing) (rn rd : Reg) (o : Offset), ∀ mk ∈ [ldr, ldrb], exec (mk c ix rn rd o) s = .next t →
      sameRegsBut s t (if writesBack ix then [rd, rn] else [rd]) ∧ sameBytes s t ∧ sameHidden s t ∧ t.pc = s.pc ∧
      t.status = s.status ∧ t.draws = s.draws) ∧
    (∀ (bm : BlockMode) (rn : Reg) (list : BitVec 16), exec (.ldm c bm rn list) s = .next t →
      sameRegsBut s t (if bm.w then rn :: listedRegs list else listedRegs list) ∧ sameBytes s t ∧ sameHidden s t ∧
      t.pc = s.pc ∧ t.status = s.status ∧ t.draws = s.draws)

/-- What a store leaves unchanged, over a memory in canonical form (which every step keeps): every byte outside the
bytes at the address the meaning computes (`transferAddress`, `blockStart`); every register but, with write-back, Rn;
the whole status word; the latches; the count of draws. A single store with P = 0 writes back whatever W is (the spec's
decision D17, log entry 16). -/
def Obligations.StoreFrame : Prop :=
  ∀ (c : Cond) (s t : State), s.mem.wf = true →
    (∀ (ix : Indexing) (rn rd : Reg) (o : Offset),
      (exec (str c ix rn rd o) s = .next t →
        sameBytesOutside s t (transferAddress ix (s.reg rn) (o.value s)) 4) ∧
      (exec (strb c ix rn rd o) s = .next t →
        sameBytesOutside s t (transferAddress ix (s.reg rn) (o.value s)) 1) ∧
      (∀ mk ∈ [str, strb], exec (mk c ix rn rd o) s = .next t →
        sameRegsBut s t (if writesBack ix then [rn] else []) ∧ sameHidden s t ∧ t.pc = s.pc ∧ t.status = s.status ∧
        t.draws = s.draws)) ∧
    (∀ (bm : BlockMode) (rn : Reg) (list : BitVec 16), exec (.stm c bm rn list) s = .next t →
      sameBytesOutside s t (blockStart bm (s.reg rn) (listBytes list)) (4 * (listedRegs list).length) ∧
      sameRegsBut s t (if bm.w then [rn] else []) ∧ sameHidden s t ∧ t.pc = s.pc ∧ t.status = s.status ∧
      t.draws = s.draws)

/-- What a swap leaves unchanged, over a memory in canonical form: every byte outside those at the address in Rn; every
register but Rd; the whole status word; the latches; the count of draws. -/
def Obligations.SwapFrame : Prop :=
  ∀ (c : Cond) (rn rd rm : Reg) (s t : State), s.mem.wf = true →
    (exec (.swp c rn rd rm) s = .next t → sameBytesOutside s t (s.reg rn) 4) ∧
    (exec (.swpb c rn rd rm) s = .next t → sameBytesOutside s t (s.reg rn) 1) ∧
    (∀ mk ∈ ([Instr.swp, .swpb] : List (Cond → Reg → Reg → Reg → Instr)), exec (mk c rn rd rm) s = .next t →
      sameRegsBut s t [rd] ∧ sameHidden s t ∧ t.pc = s.pc ∧ t.status = s.status ∧ t.draws = s.draws)

/-- What a branch leaves unchanged: every byte of memory; every register but R15 and, for BL, R14; the flags and the
opaque bits, and T but for BX; the latches (which the sequencer flushes afterwards); the count of draws. -/
def Obligations.BranchFrame : Prop :=
  ∀ (c : Cond) (s t : State),
    (∀ o, exec (.b c o) s = .next t → sameRegsBut s t [15] ∧ t.status = s.status) ∧
    (∀ o, exec (.bl c o) s = .next t → sameRegsBut s t [14, 15] ∧ t.status = s.status) ∧
    (∀ rm, exec (.bx c rm) s = .next t →
      sameRegsBut s t [15] ∧ t.flags = s.flags ∧ t.status.opaqueBits = s.status.opaqueBits) ∧
    (∀ i, isBranch i = true → exec i s = .next t → sameBytes s t ∧ sameHidden s t ∧ t.draws = s.draws)

/-! ## The sequencer -/

/-- Rule R92, steps 1 to 4: a step in ARM state with a word in the decode latch is `exec` of the decoded instruction in
the state after fetch and latch promotion, followed by the PC update; an error ends it. -/
def Obligations.StepRunsTheDecodedInstruction : Prop :=
  ∀ (s : State) (w : Word), s.tag = .arm → s.decodeLatch = some w →
    let s' : State := { s with fetchLatch := some (s.mem.readWord s.pc), decodeLatch := s.fetchLatch }
    (∀ t, exec (decodeWord w) s' = .next t → step s = .next (pcUpdate t)) ∧
    (∀ f, exec (decodeWord w) s' = .fault f → step s = .fault f) ∧
    (∀ r, exec (decodeWord w) s' = .refused r → step s = .refused r)

/-- `40_pipeline_sequencer.md` section 2 (rule R93; the spec's decision D2): a step in Thumb state reports ThumbState,
whatever the latches hold. -/
def Obligations.ThumbStateStopsTheStep : Prop :=
  ∀ s : State, s.tag = .thumb → step s = unimplemented .thumbState

/-- Rule R95 as a rule of the whole machine: an instruction reports Redirected exactly when it is B, BL or BX with a
true condition, no other instruction changes R15, and the sequencer then adds 4 to R15 or leaves it. -/
def Obligations.OnlyTakenBranchesRedirect : Prop :=
  ∀ (i : Instr) (s t : State), exec i s = .next t →
    (t.report = .executed .redirected ↔ isBranch i = true ∧ ∀ c, i.cond = some c → condHolds c s.flags = true) ∧
    (t.report ≠ .executed .redirected → t.pc = s.pc ∧ (pcUpdate t).pc = t.pc + 4) ∧
    (t.report = .executed .redirected → (pcUpdate t).pc = t.pc)

/-- Rules R95 and R96: after a redirection both latches are empty and R15 is what the executor wrote; after every other
step R15 has grown by 4, the fetch latch holds the word read at the old R15 from the memory before the step, and the
decode latch the old fetch latch. -/
def Obligations.StepMovesOrFlushesThePipeline : Prop :=
  ∀ s t : State, step s = .next t →
    (t.report = .executed .redirected →
      t.fetchLatch = none ∧ t.decodeLatch = none ∧
      ∃ w u, s.decodeLatch = some w ∧ exec (decodeWord w) (fetchAndShift s) = .next u ∧ t.regs = u.regs) ∧
    (t.report ≠ .executed .redirected →
      t.pc = s.pc + 4 ∧ t.fetchLatch = some (s.mem.readWord s.pc) ∧ t.decodeLatch = s.fetchLatch)

/-- Rule R97: the pipelining offset. A word fetched at A, with two steps since that did not redirect, is the word the
next step executes, and R15 is A + 8 then: whatever the two steps executed, and whatever they stored. -/
def Obligations.ExecutingInstructionSeesItsAddressPlus8 : Prop :=
  ∀ s t u : State, step s = .next t → t.report ≠ .executed .redirected → step t = .next u →
    u.report ≠ .executed .redirected →
    u.decodeLatch = some (s.mem.readWord s.pc) ∧ u.pc = s.pc + 8 ∧ (fetchAndShift u).pc = s.pc + 8

/-- `40_pipeline_sequencer.md` section 5 (rule R101): from an empty pipeline with R15 = P two steps execute nothing, and
the third executes the word at P, reading R15 as P + 8. -/
def Obligations.PipelineRefillsInTwoSteps : Prop :=
  ∀ s : State, s.tag = .arm → pipelineEmpty s = true →
    ∃ t u, step s = .next t ∧ step t = .next u ∧ t.report = .bubble ∧ u.report = .bubble ∧
      u.mem = s.mem ∧ u.status = s.status ∧ (∀ q, q ≠ 15 → u.reg q = s.reg q) ∧ u.pc = s.pc + 8 ∧
      u.decodeLatch = some (s.mem.readWord s.pc) ∧ u.fetchLatch = some (s.mem.readWord (s.pc + 4)) ∧
      ∀ v, step u = .next v →
        ∃ x, exec (decodeWord (s.mem.readWord s.pc)) (fetchAndShift u) = .next x ∧ v = pcUpdate x

/-! ## Whole-machine rules -/

/-- Every step keeps the states a run may be in: memory in its canonical form over a map the spec allows, and no full
decode latch beside an empty fetch latch (`10_state.md` rule R32). -/
def Obligations.EveryStepKeepsTheStateOk : Prop :=
  ∀ s t : State, stateOk s = true → step s = .next t → stateOk t = true

/-- Rules R28 and R29 as rules of the whole machine: a step changes T only by executing a BX, and never the opaque bits
of the status word nor the memory map. -/
def Obligations.OnlyExchangeChangesTheStateTag : Prop :=
  ∀ s t : State, step s = .next t →
    t.status.opaqueBits = s.status.opaqueBits ∧ t.mem.map = s.mem.map ∧
    ((∀ w, s.decodeLatch = some w → ∀ c rm, decodeWord w ≠ .bx c rm) → t.tag = s.tag)

/-- `10_state.md` rule R27 as a rule of the whole machine: a step changes a flag only by executing an instruction with
S = 1 whose condition holds. -/
def Obligations.FlagsChangeOnlyWithTheAlterBit : Prop :=
  ∀ s t : State, step s = .next t → t.flags ≠ s.flags →
    ∃ w c, s.decodeLatch = some w ∧ altersFlags (decodeWord w) = true ∧ (decodeWord w).cond = some c ∧
      condHolds c s.flags = true

/-- `10_state.md` section 6 (rule R34; the spec's decision D21): what the host sets through the register-access port it
reads back, and nothing else changes, the latches included. -/
def Obligations.HostPortSetsWhatItNames : Prop :=
  ∀ (s : State) (r : Reg) (v : Word) (f : Flags) (g : ExecState),
    hostGetReg (hostSetReg s r v) r = v ∧ (∀ q, q ≠ r → hostGetReg (hostSetReg s r v) q = hostGetReg s q) ∧
    hostSetReg s r v = { s with regs := (hostSetReg s r v).regs } ∧
    hostGetFlags (hostSetFlags s f) = f ∧ hostSetFlags s f = { s with status := { s.status with flags := f } } ∧
    hostGetTag (hostSetTag s g) = g ∧ hostSetTag s g = { s with status := { s.status with tag := g } }

end
end

