-- ==== Sys2Proof/Laws/Encoding.lean ====
section
/-! SUPPORT. How a placed field reads back: the bits and the fields of `placeAt`, of which every encoding is made. -/

namespace Sys2Proof

@[simp] theorem getLsbD_placeAt (lo : Nat) {n : Nat} (x : BitVec n) (i : Nat) :
    (placeAt lo x).getLsbD i = (decide (i < 32) && (decide (lo ≤ i) && x.getLsbD (i - lo))) := by
  simp only [placeAt, BitVec.getLsbD_shiftLeft, BitVec.getLsbD_setWidth]
  by_cases h : i < 32 <;> by_cases h' : lo ≤ i
  · simp [h, h', Nat.not_lt.mpr h', Nat.lt_of_le_of_lt (Nat.sub_le i lo) h]
  · simp [h', Nat.lt_of_not_le h']
  · simp [h]
  · simp [h]

theorem fieldAt_or (a b : Word) (lo n : Nat) : fieldAt (a ||| b) lo n = fieldAt a lo n ||| fieldAt b lo n := by
  apply BitVec.eq_of_getLsbD_eq
  intro i hi
  simp [BitVec.getLsbD_extractLsb', Bool.and_or_distrib_left]

/-- A field read where it was placed. -/
theorem fieldAt_placeAt_same (lo : Nat) {n : Nat} (x : BitVec n) (h : lo + n ≤ 32) : fieldAt (placeAt lo x) lo n = x := by
  apply BitVec.eq_of_getLsbD_eq
  intro i hi
  simp only [fieldAt, BitVec.getLsbD_extractLsb', getLsbD_placeAt]
  have : lo + i < 32 := by omega
  simp [hi, this]

/-- A field read wholly below a placed one. -/
theorem fieldAt_placeAt_below (lo' : Nat) {m : Nat} (x : BitVec m) (lo n : Nat) (h : lo + n ≤ lo') :
    fieldAt (placeAt lo' x) lo n = 0 := by
  apply BitVec.eq_of_getLsbD_eq
  intro i hi
  simp only [fieldAt, BitVec.getLsbD_extractLsb', getLsbD_placeAt]
  have : ¬ lo' ≤ lo + i := by omega
  simp [this]

/-- A field read wholly above a placed one. -/
theorem fieldAt_placeAt_above (lo' : Nat) {m : Nat} (x : BitVec m) (lo n : Nat) (h : lo' + m ≤ lo) :
    fieldAt (placeAt lo' x) lo n = 0 := by
  apply BitVec.eq_of_getLsbD_eq
  intro i hi
  simp only [fieldAt, BitVec.getLsbD_extractLsb', getLsbD_placeAt]
  have : x.getLsbD (lo + i - lo') = false := BitVec.getLsbD_of_ge _ _ (by omega)
  simp [this]

theorem or_and (a b m : Word) : (a ||| b) &&& m = (a &&& m) ||| (b &&& m) := BitVec.and_or_distrib_right ..

/-- Masking a placed field masks the field. -/
theorem placeAt_and (lo : Nat) {n : Nat} (x : BitVec n) (m : Word) :
    placeAt lo x &&& m = placeAt lo (x &&& fieldAt m lo n) := by
  apply BitVec.eq_of_getLsbD_eq
  intro i hi
  rw [BitVec.getLsbD_and, getLsbD_placeAt, getLsbD_placeAt, BitVec.getLsbD_and, BitVec.getLsbD_extractLsb']
  by_cases h1 : lo ≤ i
  · by_cases h2 : i - lo < n
    · have : lo + (i - lo) = i := by omega
      simp only [hi, h1, h2, this, decide_true, Bool.true_and]
    · rw [BitVec.getLsbD_of_ge x _ (by omega)]; simp
  · simp [h1]

/-- The bits a mask selects are those of the match. -/
theorem bit_of_mask {m k w : Word} (h : w &&& m = k) (i : Nat) (hm : m.getLsbD i = true) : w.getLsbD i = k.getLsbD i := by
  rw [← h]; simp [hm]

theorem and_eq_iff (m k w : Word) : w &&& m = k ↔ ∀ i, i < 32 → (w.getLsbD i && m.getLsbD i) = k.getLsbD i := by
  constructor
  · intro h i _; rw [← h, BitVec.getLsbD_and]
  · intro h; apply BitVec.eq_of_getLsbD_eq; intro i hi; rw [BitVec.getLsbD_and, h i hi]

theorem ofBits_none_iff (w : Word) :
    Cond.ofBits (bitAt w 31) (bitAt w 30) (bitAt w 29) (bitAt w 28) = none ↔
      bitAt w 31 = true ∧ bitAt w 30 = true ∧ bitAt w 29 = true ∧ bitAt w 28 = true := by
  cases bitAt w 31 <;> cases bitAt w 30 <;> cases bitAt w 29 <;> cases bitAt w 28 <;> simp [Cond.ofBits]

/-- A word has a condition exactly when its condition field is not the reserved one. -/
theorem hasCondition_iff (w : Word) :
    hasCondition w = true ↔ ∃ c, Cond.ofBits (bitAt w 31) (bitAt w 30) (bitAt w 29) (bitAt w 28) = some c := by
  rw [← Option.isSome_iff_exists, ← not_iff_not, Option.not_isSome_iff_eq_none, ofBits_none_iff]
  simp only [hasCondition, inRow, Bool.not_eq_true, Bool.not_eq_false', beq_iff_eq]
  constructor
  · intro h
    exact ⟨bit_of_mask h 31 (by decide), bit_of_mask h 30 (by decide), bit_of_mask h 29 (by decide),
      bit_of_mask h 28 (by decide)⟩
  · rintro ⟨a, b, c, d⟩
    apply (and_eq_iff _ _ _).2
    intro i hi
    interval_cases i <;> simp_all [bitAt, -BitVec.getLsbD_eq_getElem]

@[simp] theorem toFin_bits (r : Reg) : (Reg.bits r).toFin = r := rfl

@[simp] theorem shiftKind_ofBits_bits (k : ShiftKind) :
    ShiftKind.ofBits (k.bits.getLsbD 1) (k.bits.getLsbD 0) = k := by cases k <;> rfl

@[simp] theorem cond_ofBits_bits (c : Cond) :
    Cond.ofBits (c.bits.getLsbD 3) (c.bits.getLsbD 2) (c.bits.getLsbD 1) (c.bits.getLsbD 0) = some c := by
  cases c <;> rfl

end Sys2Proof
end

