-- ==== Sys2Proof/Laws/Memory.lean ====
section
/-! SUPPORT. Memory: what a write changes and what it leaves, and that every memory operation keeps the canonical
form. -/

namespace Sys2Proof.Machine

/-! ## Cells -/

/-- Reading below every key of a rising list gives 0. -/
theorem cellAt_of_above {l : List Host.Cell} {a b : Nat} (h : cellsAbove (some b) l = true) (ha : a ≤ b) :
    cellAt l a = 0 := by
  induction l generalizing b with
  | nil => rfl
  | cons c rest ih =>
    obtain ⟨k, v⟩ := c
    simp only [cellsAbove, Bool.and_eq_true, decide_eq_true_eq] at h
    have hk : k ≠ a := by omega
    simp only [cellAt, hk, if_false]
    exact ih h.2 (by omega)

theorem cellsAbove_weaken {l : List Host.Cell} {a b : Nat} (h : cellsAbove (some b) l = true) (hab : a ≤ b) :
    cellsAbove (some a) l = true := by
  cases l with
  | nil => rfl
  | cons c rest =>
    obtain ⟨k, v⟩ := c
    simp only [cellsAbove, Bool.and_eq_true, decide_eq_true_eq] at h ⊢
    exact ⟨⟨by omega, h.1.2⟩, h.2⟩

theorem cellsAbove_none {l : List Host.Cell} {a : Nat} (h : cellsAbove (some a) l = true) : cellsAbove none l = true := by
  cases l with
  | nil => rfl
  | cons c rest =>
    obtain ⟨k, v⟩ := c
    simp only [cellsAbove, Bool.and_eq_true] at h ⊢
    exact ⟨⟨trivial, h.1.2⟩, h.2⟩

/-- A key read back gives the byte put there; every other key reads as before. -/
theorem cellAt_setCell {l : List Host.Cell} (h : cellsAbove none l = true) (a b : Nat) (v : Byte) :
    cellAt (setCell l a v) b = if b = a then v else cellAt l b := by
  induction l with
  | nil =>
    unfold setCell
    by_cases hv : v = 0#8 <;> by_cases hb : b = a <;> simp [hv, hb, cellAt, eq_comm (a := a)]
  | cons c rest ih =>
    obtain ⟨k, u⟩ := c
    simp only [cellsAbove, Bool.and_eq_true, Bool.true_and] at h
    have ih := ih (cellsAbove_none h.2)
    have low : ∀ x, x ≤ k → cellAt rest x = 0 := fun x hx => cellAt_of_above h.2 hx
    unfold setCell
    by_cases h1 : k < a
    · rw [if_pos h1]
      simp only [cellAt, ih]
      by_cases hkb : k = b
      · have : ¬ b = a := by omega
        simp [hkb, this]
      · simp [hkb]
    · rw [if_neg h1]
      by_cases h2 : k = a
      · subst h2
        by_cases hv : v = 0#8
        · by_cases hb : b = k
          · subst hb; simp [hv, low b (Nat.le_refl b)]
          · simp [hv, hb, cellAt, Ne.symm hb]
        · by_cases hb : b = k
          · subst hb; simp [hv, cellAt]
          · simp [hv, hb, cellAt, Ne.symm hb]
      · have hka : a < k := by omega
        by_cases hv : v = 0#8
        · by_cases hb : b = a
          · subst hb
            simp [hv, h2, cellAt, low b (by omega)]
          · simp [hv, hb, h2]
        · by_cases hb : b = a
          · subst hb; simp [hv, h2, cellAt]
          · simp [hv, hb, h2, cellAt, Ne.symm hb]

theorem setCell_above {l : List Host.Cell} (lo : Option Nat) (h : cellsAbove lo l = true) (a : Nat) (v : Byte)
    (ha : ∀ x, lo = some x → x < a) : cellsAbove lo (setCell l a v) = true := by
  induction l generalizing lo with
  | nil =>
    unfold setCell
    by_cases hv : v = 0#8
    · simp [hv, cellsAbove]
    · cases lo with
      | none => simp [hv, cellsAbove]
      | some x => simp [hv, cellsAbove, ha x rfl]
  | cons c rest ih =>
    obtain ⟨k, u⟩ := c
    simp only [cellsAbove, Bool.and_eq_true] at h
    have step : cellsAbove (some k) rest = true := h.2
    unfold setCell
    by_cases h1 : k < a
    · rw [if_pos h1]
      simp only [cellsAbove, Bool.and_eq_true]
      exact ⟨h.1, ih (some k) step (by intro x hx; injection hx with hx; omega)⟩
    · rw [if_neg h1]
      by_cases h2 : k = a
      · rw [if_pos h2]
        by_cases hv : v = 0#8
        · rw [if_pos hv]
          cases lo with
          | none => exact cellsAbove_none step
          | some x => exact cellsAbove_weaken step (by have := ha x rfl; omega)
        · rw [if_neg hv]
          subst h2
          simp only [cellsAbove, Bool.and_eq_true]
          exact ⟨⟨h.1.1, by simp [hv]⟩, step⟩
      · rw [if_neg h2]
        by_cases hv : v = 0#8
        · rw [if_pos hv]
          simp only [cellsAbove, Bool.and_eq_true]
          exact h
        · rw [if_neg hv]
          simp only [cellsAbove, Bool.and_eq_true]
          refine ⟨⟨?_, by simp [hv]⟩, ⟨by simp; omega, h.1.2⟩, step⟩
          cases lo with
          | none => trivial
          | some x => simp [ha x rfl]

theorem setCell_all {p : Host.Cell → Bool} {l : List Host.Cell} (h : l.all p = true) (a : Nat) (v : Byte)
    (hp : p (a, v) = true) : (setCell l a v).all p = true := by
  induction l with
  | nil => unfold setCell; split <;> simp [hp]
  | cons c rest ih =>
    obtain ⟨k, u⟩ := c
    simp only [List.all_cons, Bool.and_eq_true] at h
    unfold setCell
    split
    · simp [h.1, ih h.2]
    · split
      · split
        · exact h.2
        · simp [hp, h.2]
      · split
        · simp [h.1, h.2]
        · simp [hp, h.1, h.2]

/-- Rising lists that read alike everywhere are the same list. -/
theorem cells_ext {l l' : List Host.Cell} {lo lo' : Option Nat} (h : cellsAbove lo l = true)
    (h' : cellsAbove lo' l' = true) (e : ∀ a, cellAt l a = cellAt l' a) : l = l' := by
  induction l generalizing l' lo lo' with
  | nil =>
    cases l' with
    | nil => rfl
    | cons c rest =>
      obtain ⟨k, v⟩ := c
      simp only [cellsAbove, Bool.and_eq_true] at h'
      have := e k
      simp only [cellAt, if_true] at this
      simp [← this] at h'
  | cons c rest ih =>
    obtain ⟨k, v⟩ := c
    simp only [cellsAbove, Bool.and_eq_true] at h
    cases l' with
    | nil =>
      have := e k
      simp only [cellAt, if_true] at this
      simp [this] at h
    | cons c' rest' =>
      obtain ⟨k', v'⟩ := c'
      simp only [cellsAbove, Bool.and_eq_true] at h'
      have hk : k = k' := by
        by_contra hne
        rcases Nat.lt_or_gt_of_ne hne with hlt | hlt
        · have := e k
          simp only [cellAt, if_true, Ne.symm hne, if_false] at this
          rw [cellAt_of_above h'.2 (Nat.le_of_lt hlt)] at this
          simp [this] at h
        · have := e k'
          simp only [cellAt, if_true, hne, if_false] at this
          rw [cellAt_of_above h.2 (Nat.le_of_lt hlt)] at this
          simp [← this] at h'
      subst hk
      have hv : v = v' := by simpa [cellAt] using e k
      subst hv
      have : rest = rest' := by
        apply ih h.2 h'.2
        intro a
        by_cases ha : k = a
        · subst ha
          rw [cellAt_of_above h.2 (Nat.le_refl _), cellAt_of_above h'.2 (Nat.le_refl _)]
        · simpa [cellAt, ha] using e a
      rw [this]

/-! ## Bytes of a memory -/

/-- A writable address is backed by storage. -/
theorem backed_of_writable {m : MemMap} {a : Nat} (h : m.writable a = true) : m.backed a = true := by
  simp only [MemMap.writable, MemMap.backed, Bool.or_eq_true, Bool.and_eq_true] at h ⊢
  tauto

theorem wf_cells {m : Memory} (h : m.wf = true) : cellsAbove none m.cells = true := by
  simp only [Memory.wf, Bool.and_eq_true] at h
  exact h.1

@[simp] theorem map_writeByte (m : Memory) (a : Word) (v : Byte) : (m.writeByte a v).map = m.map := by
  unfold Memory.writeByte; split <;> rfl

@[simp] theorem map_writeWord (m : Memory) (a v : Word) : (m.writeWord a v).map = m.map := by
  simp [Memory.writeWord]

@[simp] theorem map_store (m : Memory) (wd : Width) (a v : Word) : (m.store wd a v).map = m.map := by
  cases wd <;> simp [Memory.store]

/-- `write_byte` keeps the canonical form. -/
theorem writeByte_wf {m : Memory} (h : m.wf = true) (a : Word) (v : Byte) : (m.writeByte a v).wf = true := by
  unfold Memory.writeByte
  split
  · rename_i hw
    simp only [Memory.wf, Bool.and_eq_true] at h ⊢
    refine ⟨setCell_above none h.1 _ _ (by simp), setCell_all h.2 _ _ ?_⟩
    simp [backed_of_writable hw, a.isLt]
  · exact h

/-- What `read_byte` answers after `write_byte`: the new byte at a writable address, every other byte as before. -/
theorem readByte_writeByte {m : Memory} (h : m.wf = true) (a b : Word) (v : Byte) :
    (m.writeByte a v).readByte b = if b = a ∧ m.map.writable a.toNat = true then v else m.readByte b := by
  by_cases hw : m.map.writable a.toNat = true
  · simp only [Memory.writeByte, hw, if_true, Memory.readByte, and_true]
    rw [cellAt_setCell (wf_cells h)]
    by_cases hb : b = a
    · subst hb; simp [backed_of_writable hw]
    · have : b.toNat ≠ a.toNat := fun e => hb (BitVec.eq_of_toNat_eq e)
      simp [hb, this]
  · simp [Memory.writeByte, hw]

theorem readByte_writeByte_ne {m : Memory} (h : m.wf = true) {a b : Word} (v : Byte) (hb : b ≠ a) :
    (m.writeByte a v).readByte b = m.readByte b := by
  rw [readByte_writeByte h]; simp [hb]

/-! ## Words and stores -/

/-- A word store keeps the canonical form. -/
theorem writeWord_wf {m : Memory} (h : m.wf = true) (a v : Word) : (m.writeWord a v).wf = true :=
  writeByte_wf (writeByte_wf (writeByte_wf (writeByte_wf h _ _) _ _) _ _) _ _

/-- A store keeps the canonical form. -/
theorem store_wf {m : Memory} (h : m.wf = true) (wd : Width) (a v : Word) : (m.store wd a v).wf = true := by
  cases wd
  · exact writeByte_wf h _ _
  · exact writeWord_wf h _ _

/-- The stores of a block transfer keep the canonical form. -/
theorem storeRegs_wf (s : State) {m : Memory} (h : m.wf = true) (a : Word) (l : List Reg) :
    (storeRegs s a l m).wf = true := by
  induction l generalizing a m with
  | nil => exact h
  | cons r rest ih => exact ih (writeWord_wf h _ _) _

@[simp] theorem map_storeRegs (s : State) (m : Memory) (a : Word) (l : List Reg) :
    (storeRegs s a l m).map = m.map := by
  induction l generalizing a m with
  | nil => rfl
  | cons r rest ih => simp [storeRegs, ih]

/-- A word store leaves every byte outside its four addresses. -/
theorem readByte_writeWord_outside {m : Memory} (h : m.wf = true) (a v b : Word)
    (hb : ∀ k, k < 4 → b ≠ a + BitVec.ofNat 32 k) : (m.writeWord a v).readByte b = m.readByte b := by
  have h0 : b ≠ a := by simpa using hb 0 (by omega)
  have w0 := writeByte_wf h a (v.extractLsb' 0 8)
  have w1 := writeByte_wf w0 (a + 1#32) (v.extractLsb' 8 8)
  have w2 := writeByte_wf w1 (a + 2#32) (v.extractLsb' 16 8)
  unfold Memory.writeWord
  rw [readByte_writeByte_ne w2 _ (hb 3 (by omega)), readByte_writeByte_ne w1 _ (hb 2 (by omega)),
    readByte_writeByte_ne w0 _ (hb 1 (by omega)), readByte_writeByte_ne h _ h0]

/-- Four bytes side by side, bit by bit. -/
theorem getLsbD_bytes (b3 b2 b1 b0 : Byte) (j : Nat) : (b3 ++ b2 ++ b1 ++ b0 : Word).getLsbD j =
    if j < 8 then b0.getLsbD j else if j < 16 then b1.getLsbD (j - 8) else if j < 24 then b2.getLsbD (j - 16)
      else b3.getLsbD (j - 24) := by
  refine (BitVec.getLsbD_append (x := b3 ++ b2 ++ b1) (y := b0)).trans ?_
  rw [BitVec.getLsbD_append, BitVec.getLsbD_append]
  have e1 : (j - 8 < 8) ↔ j < 16 ∨ j < 8 := by omega
  have e2 : (j - 8 - 8 < 8) ↔ j < 24 := by omega
  split_ifs <;> first | rfl | omega

/-- Byte `k` of a word read is the byte at the `k`-th address. -/
theorem extractLsb'_readWord (m : Memory) (a : Word) {k : Nat} (hk : k < 4) :
    (m.readWord a).extractLsb' (8 * k) 8 = m.readByte (a + BitVec.ofNat 32 k) := by
  apply BitVec.eq_of_getLsbD_eq
  intro i hi
  rw [BitVec.getLsbD_extractLsb', Memory.readWord, getLsbD_bytes]
  interval_cases k <;> simp +arith [hi]

/-- What the `k`-th address reads as after a word store: byte `k` of the word where it is writable, else what it was. -/
theorem readByte_writeWord {m : Memory} (h : m.wf = true) (a v : Word) {k : Nat} (hk : k < 4) :
    (m.writeWord a v).readByte (a + BitVec.ofNat 32 k) =
      if m.map.writable (a + BitVec.ofNat 32 k).toNat then v.extractLsb' (8 * k) 8
      else m.readByte (a + BitVec.ofNat 32 k) := by
  have w0 := writeByte_wf h a (v.extractLsb' 0 8)
  have w1 := writeByte_wf w0 (a + 1#32) (v.extractLsb' 8 8)
  have w2 := writeByte_wf w1 (a + 2#32) (v.extractLsb' 16 8)
  unfold Memory.writeWord
  rw [readByte_writeByte w2, readByte_writeByte w1, readByte_writeByte w0, readByte_writeByte h]
  interval_cases k <;> simp

/-- The memory of the reset state has the canonical form. -/
theorem within_iff (m : MemMap) (r : Region) (a : Nat) :
    m.within r a = true ↔ (m.base r).toNat ≤ a ∧ a < (m.base r).toNat + m.extent r := by
  simp [MemMap.within]

theorem wf_lengths {m : MemMap} (h : m.wf = true) : m.firmwareLen ≤ 0x4000 ∧ m.romLen ≤ 0x2000000 := by
  simp only [MemMap.wf, Bool.and_eq_true, decide_eq_true_eq] at h
  exact ⟨h.1.1.1.1.1.1.1.1, h.1.1.1.1.1.1.1.2⟩

/-- A byte that no write reaches stays through a word store. -/
theorem readByte_writeWord_readOnly {m : Memory} (hm : m.wf = true) (a v b : Word)
    (hb : m.map.writable b.toNat = false) : (m.writeWord a v).readByte b = m.readByte b := by
  have w0 := writeByte_wf hm a (v.extractLsb' 0 8)
  have w1 := writeByte_wf w0 (a + 1#32) (v.extractLsb' 8 8)
  have w2 := writeByte_wf w1 (a + 2#32) (v.extractLsb' 16 8)
  have key : ∀ {m' : Memory} (_ : m'.wf = true) (x : Word) (v : Byte), m'.map = m.map →
      (m'.writeByte x v).readByte b = m'.readByte b := by
    intro m' h' x v e
    by_cases hx : b = x
    · subst hx; simp [Memory.writeByte, e, hb]
    · exact readByte_writeByte_ne h' v hx
  unfold Memory.writeWord
  rw [key w2 _ _ (by simp), key w1 _ _ (by simp), key w0 _ _ (by simp), key hm _ _ rfl]

/-- What a block store does to memory: the map and the canonical form stay, each writable byte of the k-th word is the
byte of the k-th register, every other byte stays. -/
theorem storeRegs_spec (s : State) (l : List Reg) (a : Word) (m : Memory) (hm : m.wf = true) (hl : l.length ≤ 16) :
    (storeRegs s a l m).map = m.map ∧ (storeRegs s a l m).wf = true ∧
    (∀ k (h : k < l.length), ∀ j, j < 4 → m.map.writable (a + BitVec.ofNat 32 (4 * k + j)).toNat = true → (storeRegs s a l m).readByte (a + BitVec.ofNat 32 (4 * k + j)) = (s.reg l[k]).extractLsb' (8 * j) 8) ∧
    (∀ b, (m.map.writable b.toNat = false ∨ ∀ k, k < 4 * l.length → b ≠ a + BitVec.ofNat 32 k) → (storeRegs s a l m).readByte b = m.readByte b) := by
  induction l generalizing a m with
  | nil => exact ⟨rfl, hm, fun k h => absurd h (by simp), fun _ _ => rfl⟩
  | cons r rest ih =>
    have hw := writeWord_wf hm a (s.reg r)
    have hmap : (m.writeWord a (s.reg r)).map = m.map := by simp
    obtain ⟨i1, i2, i3, i4⟩ := ih (a + 4#32) (m.writeWord a (s.reg r)) hw (by simp at hl; omega)
    have addr : ∀ x : Nat, a + 4#32 + BitVec.ofNat 32 x = a + BitVec.ofNat 32 (4 + x) := by
      intro x; rw [BitVec.add_assoc, BitVec.ofNat_add]
    refine ⟨by simp only [storeRegs]; rw [i1, hmap], by simpa only [storeRegs] using i2, ?_, ?_⟩
    · intro k h j hj hwr
      cases k with
      | zero =>
        simp only [storeRegs, List.getElem_cons_zero, Nat.mul_zero, Nat.zero_add] at hwr ⊢
        rw [i4 _ (.inr ?_)]
        · have w0 := writeByte_wf hm a ((s.reg r).extractLsb' 0 8)
          have w1 := writeByte_wf w0 (a + 1#32) ((s.reg r).extractLsb' 8 8)
          have w2 := writeByte_wf w1 (a + 2#32) ((s.reg r).extractLsb' 16 8)
          unfold Memory.writeWord
          rw [readByte_writeByte w2, readByte_writeByte w1, readByte_writeByte w0, readByte_writeByte hm]
          interval_cases j <;> simp_all
        · intro k hk
          rw [addr]
          intro he
          have h2 := congrArg BitVec.toNat ((BitVec.add_right_inj a).1 he)
          simp at h2 hl
          omega
      | succ k =>
        simp only [storeRegs, List.getElem_cons_succ]
        have e : a + BitVec.ofNat 32 (4 * (k + 1) + j) = a + 4#32 + BitVec.ofNat 32 (4 * k + j) := by
          rw [addr]; congr 2; omega
        rw [e] at hwr ⊢
        exact i3 k (by simpa using h) j hj (by rw [hmap]; exact hwr)
    · intro b hb
      simp only [storeRegs]
      rw [i4 b ?_]
      · rcases hb with hb | hb
        · exact readByte_writeWord_readOnly hm a _ b hb
        · exact readByte_writeWord_outside hm a _ b fun k hk => hb k (by simp; omega)
      · rcases hb with hb | hb
        · left; rw [hmap]; exact hb
        · right; intro k hk; rw [addr]; exact hb _ (by simp; omega)

theorem reset_mem_wf : State.reset.mem.wf = true := by decide

end Sys2Proof.Machine
end

