-- ==== Sys2Proof/Laws/State.lean ====
section
/-! SUPPORT. One lemma per field of the state per update, so that no later proof unfolds a record update. -/

namespace Sys2Proof.Machine

/-! ## Reading a register after writing one -/

@[simp] theorem reg_setReg_same (s : State) (r : Reg) (v : Word) : (s.setReg r v).reg r = v := by
  simp [State.reg, State.setReg]

theorem reg_setReg_ne (s : State) {r q : Reg} (v : Word) (h : q ≠ r) : (s.setReg r v).reg q = s.reg q := by
  have h' : r.val ≠ q.val := fun e => h (Fin.ext e.symm)
  simp [State.reg, State.setReg, h']

theorem reg_setReg (s : State) (r q : Reg) (v : Word) :
    (s.setReg r v).reg q = if q = r then v else s.reg q := by
  by_cases h : q = r
  · subst h; simp
  · simp [h, reg_setReg_ne s v h]

/-- Two states that agree on every register and every other field are equal. -/
theorem state_ext {s t : State} (hr : ∀ q, s.reg q = t.reg q) (hs : s.status = t.status)
    (hf : s.fetchLatch = t.fetchLatch) (hd : s.decodeLatch = t.decodeLatch) (hm : s.mem = t.mem)
    (hp : s.report = t.report) (hn : s.draws = t.draws) : s = t := by
  have : s.regs = t.regs := by
    apply Vector.ext
    intro i hi
    exact hr ⟨i, hi⟩
  cases s; cases t; simp_all

/-! ## setReg -/

@[simp] theorem status_setReg (s : State) (r : Reg) (v : Word) : (s.setReg r v).status = s.status := rfl

@[simp] theorem fetchLatch_setReg (s : State) (r : Reg) (v : Word) : (s.setReg r v).fetchLatch = s.fetchLatch := rfl

@[simp] theorem decodeLatch_setReg (s : State) (r : Reg) (v : Word) : (s.setReg r v).decodeLatch = s.decodeLatch := rfl

@[simp] theorem mem_setReg (s : State) (r : Reg) (v : Word) : (s.setReg r v).mem = s.mem := rfl

@[simp] theorem report_setReg (s : State) (r : Reg) (v : Word) : (s.setReg r v).report = s.report := rfl

@[simp] theorem draws_setReg (s : State) (r : Reg) (v : Word) : (s.setReg r v).draws = s.draws := rfl

/-! ## setFlags -/

@[simp] theorem reg_setFlags (s : State) (f : Flags) (q : Reg) : (s.setFlags f).reg q = s.reg q := rfl

@[simp] theorem status_setFlags (s : State) (f : Flags) : (s.setFlags f).status = { s.status with flags := f } := rfl

@[simp] theorem fetchLatch_setFlags (s : State) (f : Flags) : (s.setFlags f).fetchLatch = s.fetchLatch := rfl

@[simp] theorem decodeLatch_setFlags (s : State) (f : Flags) : (s.setFlags f).decodeLatch = s.decodeLatch := rfl

@[simp] theorem mem_setFlags (s : State) (f : Flags) : (s.setFlags f).mem = s.mem := rfl

@[simp] theorem report_setFlags (s : State) (f : Flags) : (s.setFlags f).report = s.report := rfl

@[simp] theorem draws_setFlags (s : State) (f : Flags) : (s.setFlags f).draws = s.draws := rfl

/-! ## setTag -/

@[simp] theorem reg_setTag (s : State) (t : ExecState) (q : Reg) : (s.setTag t).reg q = s.reg q := rfl

@[simp] theorem status_setTag (s : State) (t : ExecState) : (s.setTag t).status = { s.status with tag := t } := rfl

@[simp] theorem fetchLatch_setTag (s : State) (t : ExecState) : (s.setTag t).fetchLatch = s.fetchLatch := rfl

@[simp] theorem decodeLatch_setTag (s : State) (t : ExecState) : (s.setTag t).decodeLatch = s.decodeLatch := rfl

@[simp] theorem mem_setTag (s : State) (t : ExecState) : (s.setTag t).mem = s.mem := rfl

@[simp] theorem report_setTag (s : State) (t : ExecState) : (s.setTag t).report = s.report := rfl

@[simp] theorem draws_setTag (s : State) (t : ExecState) : (s.setTag t).draws = s.draws := rfl

/-! ## setMem -/

@[simp] theorem reg_setMem (s : State) (m : Memory) (q : Reg) : (s.setMem m).reg q = s.reg q := rfl

@[simp] theorem status_setMem (s : State) (m : Memory) : (s.setMem m).status = s.status := rfl

@[simp] theorem fetchLatch_setMem (s : State) (m : Memory) : (s.setMem m).fetchLatch = s.fetchLatch := rfl

@[simp] theorem decodeLatch_setMem (s : State) (m : Memory) : (s.setMem m).decodeLatch = s.decodeLatch := rfl

@[simp] theorem mem_setMem (s : State) (m : Memory) : (s.setMem m).mem = m := rfl

@[simp] theorem report_setMem (s : State) (m : Memory) : (s.setMem m).report = s.report := rfl

@[simp] theorem draws_setMem (s : State) (m : Memory) : (s.setMem m).draws = s.draws := rfl

/-! ## setReport -/

@[simp] theorem reg_setReport (s : State) (r : StepReport) (q : Reg) : (s.setReport r).reg q = s.reg q := rfl

@[simp] theorem status_setReport (s : State) (r : StepReport) : (s.setReport r).status = s.status := rfl

@[simp] theorem fetchLatch_setReport (s : State) (r : StepReport) : (s.setReport r).fetchLatch = s.fetchLatch := rfl

@[simp] theorem decodeLatch_setReport (s : State) (r : StepReport) : (s.setReport r).decodeLatch = s.decodeLatch := rfl

@[simp] theorem mem_setReport (s : State) (r : StepReport) : (s.setReport r).mem = s.mem := rfl

@[simp] theorem report_setReport (s : State) (r : StepReport) : (s.setReport r).report = r := rfl

@[simp] theorem draws_setReport (s : State) (r : StepReport) : (s.setReport r).draws = s.draws := rfl

/-! ## nextDraw -/

@[simp] theorem reg_nextDraw (s : State) (q : Reg) : s.nextDraw.reg q = s.reg q := rfl

@[simp] theorem status_nextDraw (s : State) : s.nextDraw.status = s.status := rfl

@[simp] theorem fetchLatch_nextDraw (s : State) : s.nextDraw.fetchLatch = s.fetchLatch := rfl

@[simp] theorem decodeLatch_nextDraw (s : State) : s.nextDraw.decodeLatch = s.decodeLatch := rfl

@[simp] theorem mem_nextDraw (s : State) : s.nextDraw.mem = s.mem := rfl

@[simp] theorem report_nextDraw (s : State) : s.nextDraw.report = s.report := rfl

@[simp] theorem draws_nextDraw (s : State) : s.nextDraw.draws = s.draws + 1 := rfl

/-! ## finish -/

@[simp] theorem reg_finish (s : State) (q : Reg) : s.finish.reg q = s.reg q := rfl

@[simp] theorem status_finish (s : State) : s.finish.status = s.status := rfl

@[simp] theorem fetchLatch_finish (s : State) : s.finish.fetchLatch = s.fetchLatch := rfl

@[simp] theorem decodeLatch_finish (s : State) : s.finish.decodeLatch = s.decodeLatch := rfl

@[simp] theorem mem_finish (s : State) : s.finish.mem = s.mem := rfl

@[simp] theorem report_finish (s : State) : s.finish.report = .executed .continued := rfl

@[simp] theorem draws_finish (s : State) : s.finish.draws = s.draws := rfl

/-! ## skip -/

@[simp] theorem reg_skip (s : State) (q : Reg) : s.skip.reg q = s.reg q := rfl

@[simp] theorem status_skip (s : State) : s.skip.status = s.status := rfl

@[simp] theorem fetchLatch_skip (s : State) : s.skip.fetchLatch = s.fetchLatch := rfl

@[simp] theorem decodeLatch_skip (s : State) : s.skip.decodeLatch = s.decodeLatch := rfl

@[simp] theorem mem_skip (s : State) : s.skip.mem = s.mem := rfl

@[simp] theorem report_skip (s : State) : s.skip.report = .skipped := rfl

@[simp] theorem draws_skip (s : State) : s.skip.draws = s.draws := rfl

/-! ## redirect -/

@[simp] theorem status_redirect (s : State) (a : Word) : (s.redirect a).status = s.status := rfl

@[simp] theorem fetchLatch_redirect (s : State) (a : Word) : (s.redirect a).fetchLatch = s.fetchLatch := rfl

@[simp] theorem decodeLatch_redirect (s : State) (a : Word) : (s.redirect a).decodeLatch = s.decodeLatch := rfl

@[simp] theorem mem_redirect (s : State) (a : Word) : (s.redirect a).mem = s.mem := rfl

@[simp] theorem report_redirect (s : State) (a : Word) : (s.redirect a).report = .executed .redirected := rfl

@[simp] theorem draws_redirect (s : State) (a : Word) : (s.redirect a).draws = s.draws := rfl

/-! ## fetchAndShift -/

@[simp] theorem reg_fetchAndShift (s : State) (q : Reg) : (fetchAndShift s).reg q = s.reg q := rfl

@[simp] theorem status_fetchAndShift (s : State) : (fetchAndShift s).status = s.status := rfl

@[simp] theorem fetchLatch_fetchAndShift (s : State) : (fetchAndShift s).fetchLatch = some (s.mem.readWord s.pc) := rfl

@[simp] theorem decodeLatch_fetchAndShift (s : State) : (fetchAndShift s).decodeLatch = s.fetchLatch := rfl

@[simp] theorem mem_fetchAndShift (s : State) : (fetchAndShift s).mem = s.mem := rfl

@[simp] theorem report_fetchAndShift (s : State) : (fetchAndShift s).report = s.report := rfl

@[simp] theorem draws_fetchAndShift (s : State) : (fetchAndShift s).draws = s.draws := rfl

/-! ## flush -/

@[simp] theorem reg_flush (s : State) (q : Reg) : (flush s).reg q = s.reg q := rfl

@[simp] theorem status_flush (s : State) : (flush s).status = s.status := rfl

@[simp] theorem fetchLatch_flush (s : State) : (flush s).fetchLatch = none := rfl

@[simp] theorem decodeLatch_flush (s : State) : (flush s).decodeLatch = none := rfl

@[simp] theorem mem_flush (s : State) : (flush s).mem = s.mem := rfl

@[simp] theorem report_flush (s : State) : (flush s).report = s.report := rfl

@[simp] theorem draws_flush (s : State) : (flush s).draws = s.draws := rfl

@[simp] theorem reg_redirect_pc (s : State) (a : Word) : (s.redirect a).reg Reg.pc = a := by
  simp [State.redirect]

theorem reg_redirect_ne (s : State) (a : Word) {q : Reg} (h : q ≠ Reg.pc) : (s.redirect a).reg q = s.reg q := by
  simp [State.redirect, reg_setReg_ne s a h]

/-! ## setFlagsIf, multiplyFlags, baseWriteBack, blockBase -/

@[simp] theorem reg_setFlagsIf (s : State) (a : Bool) (f : Flags) (q : Reg) :
    (s.setFlagsIf a f).reg q = s.reg q := by
  unfold State.setFlagsIf; split <;> simp_all

@[simp] theorem status_setFlagsIf (s : State) (a : Bool) (f : Flags) :
    (s.setFlagsIf a f).status = if a then { s.status with flags := f } else s.status := by
  unfold State.setFlagsIf; split <;> simp_all

@[simp] theorem fetchLatch_setFlagsIf (s : State) (a : Bool) (f : Flags) :
    (s.setFlagsIf a f).fetchLatch = s.fetchLatch := by
  unfold State.setFlagsIf; split <;> simp_all

@[simp] theorem decodeLatch_setFlagsIf (s : State) (a : Bool) (f : Flags) :
    (s.setFlagsIf a f).decodeLatch = s.decodeLatch := by
  unfold State.setFlagsIf; split <;> simp_all

@[simp] theorem mem_setFlagsIf (s : State) (a : Bool) (f : Flags) :
    (s.setFlagsIf a f).mem = s.mem := by
  unfold State.setFlagsIf; split <;> simp_all

@[simp] theorem report_setFlagsIf (s : State) (a : Bool) (f : Flags) :
    (s.setFlagsIf a f).report = s.report := by
  unfold State.setFlagsIf; split <;> simp_all

@[simp] theorem draws_setFlagsIf (s : State) (a : Bool) (f : Flags) :
    (s.setFlagsIf a f).draws = s.draws := by
  unfold State.setFlagsIf; split <;> simp_all

@[simp] theorem reg_multiplyFlags (s : State) (a : Bool) (f : Flags) (q : Reg) :
    (s.multiplyFlags a f).reg q = s.reg q := by
  unfold State.multiplyFlags; split <;> simp_all

@[simp] theorem status_multiplyFlags (s : State) (a : Bool) (f : Flags) :
    (s.multiplyFlags a f).status = if a then { s.status with flags := f } else s.status := by
  unfold State.multiplyFlags; split <;> simp_all

@[simp] theorem fetchLatch_multiplyFlags (s : State) (a : Bool) (f : Flags) :
    (s.multiplyFlags a f).fetchLatch = s.fetchLatch := by
  unfold State.multiplyFlags; split <;> simp_all

@[simp] theorem decodeLatch_multiplyFlags (s : State) (a : Bool) (f : Flags) :
    (s.multiplyFlags a f).decodeLatch = s.decodeLatch := by
  unfold State.multiplyFlags; split <;> simp_all

@[simp] theorem mem_multiplyFlags (s : State) (a : Bool) (f : Flags) :
    (s.multiplyFlags a f).mem = s.mem := by
  unfold State.multiplyFlags; split <;> simp_all

@[simp] theorem report_multiplyFlags (s : State) (a : Bool) (f : Flags) :
    (s.multiplyFlags a f).report = s.report := by
  unfold State.multiplyFlags; split <;> simp_all

@[simp] theorem draws_multiplyFlags (s : State) (a : Bool) (f : Flags) :
    (s.multiplyFlags a f).draws = if a then s.draws + 1 else s.draws := by
  unfold State.multiplyFlags; split <;> simp_all

theorem reg_baseWriteBack (s : State) (ix : Indexing) (rn : Reg) (base off : Word) (q : Reg) :
    (s.baseWriteBack ix rn base off).reg q = if writesBack ix = true ∧ q = rn then indexedAddress ix base off else s.reg q := by
  by_cases h : writesBack ix = true <;> simp [State.baseWriteBack, h, reg_setReg]

@[simp] theorem status_baseWriteBack (s : State) (ix : Indexing) (rn : Reg) (base off : Word) :
    (s.baseWriteBack ix rn base off).status = s.status := by
  unfold State.baseWriteBack; split <;> simp_all

@[simp] theorem fetchLatch_baseWriteBack (s : State) (ix : Indexing) (rn : Reg) (base off : Word) :
    (s.baseWriteBack ix rn base off).fetchLatch = s.fetchLatch := by
  unfold State.baseWriteBack; split <;> simp_all

@[simp] theorem decodeLatch_baseWriteBack (s : State) (ix : Indexing) (rn : Reg) (base off : Word) :
    (s.baseWriteBack ix rn base off).decodeLatch = s.decodeLatch := by
  unfold State.baseWriteBack; split <;> simp_all

@[simp] theorem mem_baseWriteBack (s : State) (ix : Indexing) (rn : Reg) (base off : Word) :
    (s.baseWriteBack ix rn base off).mem = s.mem := by
  unfold State.baseWriteBack; split <;> simp_all

@[simp] theorem report_baseWriteBack (s : State) (ix : Indexing) (rn : Reg) (base off : Word) :
    (s.baseWriteBack ix rn base off).report = s.report := by
  unfold State.baseWriteBack; split <;> simp_all

@[simp] theorem draws_baseWriteBack (s : State) (ix : Indexing) (rn : Reg) (base off : Word) :
    (s.baseWriteBack ix rn base off).draws = s.draws := by
  unfold State.baseWriteBack; split <;> simp_all

theorem reg_blockBase (s : State) (bm : BlockMode) (rn : Reg) (base bytes : Word) (q : Reg) :
    (s.blockBase bm rn base bytes).reg q = if bm.w = true ∧ q = rn then blockWriteBack bm base bytes else s.reg q := by
  by_cases h : bm.w = true <;> simp [State.blockBase, h, reg_setReg]

@[simp] theorem status_blockBase (s : State) (bm : BlockMode) (rn : Reg) (base bytes : Word) :
    (s.blockBase bm rn base bytes).status = s.status := by
  unfold State.blockBase; split <;> simp_all

@[simp] theorem fetchLatch_blockBase (s : State) (bm : BlockMode) (rn : Reg) (base bytes : Word) :
    (s.blockBase bm rn base bytes).fetchLatch = s.fetchLatch := by
  unfold State.blockBase; split <;> simp_all

@[simp] theorem decodeLatch_blockBase (s : State) (bm : BlockMode) (rn : Reg) (base bytes : Word) :
    (s.blockBase bm rn base bytes).decodeLatch = s.decodeLatch := by
  unfold State.blockBase; split <;> simp_all

@[simp] theorem mem_blockBase (s : State) (bm : BlockMode) (rn : Reg) (base bytes : Word) :
    (s.blockBase bm rn base bytes).mem = s.mem := by
  unfold State.blockBase; split <;> simp_all

@[simp] theorem report_blockBase (s : State) (bm : BlockMode) (rn : Reg) (base bytes : Word) :
    (s.blockBase bm rn base bytes).report = s.report := by
  unfold State.blockBase; split <;> simp_all

@[simp] theorem draws_blockBase (s : State) (bm : BlockMode) (rn : Reg) (base bytes : Word) :
    (s.blockBase bm rn base bytes).draws = s.draws := by
  unfold State.blockBase; split <;> simp_all

/-! ## The registers of a block load -/

@[simp] theorem status_loadRegs (m : Memory) (a : Word) (l : List Reg) (s : State) : (loadRegs m a l s).status = s.status := by
  induction l generalizing a s with
  | nil => rfl
  | cons r rest ih => simp [loadRegs, ih]

@[simp] theorem fetchLatch_loadRegs (m : Memory) (a : Word) (l : List Reg) (s : State) : (loadRegs m a l s).fetchLatch = s.fetchLatch := by
  induction l generalizing a s with
  | nil => rfl
  | cons r rest ih => simp [loadRegs, ih]

@[simp] theorem decodeLatch_loadRegs (m : Memory) (a : Word) (l : List Reg) (s : State) : (loadRegs m a l s).decodeLatch = s.decodeLatch := by
  induction l generalizing a s with
  | nil => rfl
  | cons r rest ih => simp [loadRegs, ih]

@[simp] theorem mem_loadRegs (m : Memory) (a : Word) (l : List Reg) (s : State) : (loadRegs m a l s).mem = s.mem := by
  induction l generalizing a s with
  | nil => rfl
  | cons r rest ih => simp [loadRegs, ih]

@[simp] theorem report_loadRegs (m : Memory) (a : Word) (l : List Reg) (s : State) : (loadRegs m a l s).report = s.report := by
  induction l generalizing a s with
  | nil => rfl
  | cons r rest ih => simp [loadRegs, ih]

@[simp] theorem draws_loadRegs (m : Memory) (a : Word) (l : List Reg) (s : State) : (loadRegs m a l s).draws = s.draws := by
  induction l generalizing a s with
  | nil => rfl
  | cons r rest ih => simp [loadRegs, ih]

/-- A register outside the list keeps its value. -/
theorem reg_loadRegs_of_notMem (m : Memory) (a : Word) (l : List Reg) (s : State) (q : Reg) (h : q ∉ l) :
    (loadRegs m a l s).reg q = s.reg q := by
  induction l generalizing a s with
  | nil => rfl
  | cons r rest ih =>
    rw [List.mem_cons, not_or] at h
    rw [loadRegs, ih _ _ h.2, reg_setReg_ne _ _ h.1]

/-- A listed register holds the word at its address. -/
theorem loadRegs_get (m : Memory) (a : Word) (l : List Reg) (s : State) (hn : l.Nodup) (k : Nat) (h : k < l.length) : (loadRegs m a l s).reg l[k] = m.readWord (a + BitVec.ofNat 32 (4 * k)) := by
  induction l generalizing a s k with
  | nil => simp at h
  | cons r rest ih =>
    cases k with
    | zero =>
      simp only [loadRegs, List.getElem_cons_zero]
      rw [reg_loadRegs_of_notMem _ _ _ _ _ (List.nodup_cons.1 hn).1]
      simp
    | succ k =>
      simp only [loadRegs, List.getElem_cons_succ]
      rw [ih _ _ (List.nodup_cons.1 hn).2 _ (by simpa using h)]
      congr 1
      rw [BitVec.add_assoc]; congr 1
      rw [show 4 * (k + 1) = 4 + 4 * k by omega, BitVec.ofNat_add]

theorem listedRegs_nodup (list : BitVec 16) : (listedRegs list).Nodup := List.Nodup.filter _ (by decide)

theorem mem_allRegs : ∀ r : Reg, r ∈ ([0, 1, 2, 3, 4, 5, 6, 7, 8, 9, 10, 11, 12, 13, 14, 15] : List Reg) := by decide

@[simp] theorem mem_listedRegs (list : BitVec 16) (r : Reg) : r ∈ listedRegs list ↔ list.getLsbD r.val = true := by
  unfold listedRegs
  rw [List.mem_filter]
  exact ⟨And.right, fun h => ⟨mem_allRegs r, h⟩⟩

/-! ## pcUpdate -/

theorem pcUpdate_redirected (s : State) (h : s.report = .executed .redirected) : pcUpdate s = flush s := by
  simp [pcUpdate, h]

theorem pcUpdate_other (s : State) (h : s.report ≠ .executed .redirected) :
    pcUpdate s = s.setReg Reg.pc (s.pc + 4#32) := by
  unfold pcUpdate
  split <;> simp_all

@[simp] theorem status_pcUpdate (s : State) : (pcUpdate s).status = s.status := by
  unfold pcUpdate; split <;> rfl

@[simp] theorem mem_pcUpdate (s : State) : (pcUpdate s).mem = s.mem := by
  unfold pcUpdate; split <;> rfl

@[simp] theorem report_pcUpdate (s : State) : (pcUpdate s).report = s.report := by
  unfold pcUpdate; split <;> rfl

@[simp] theorem draws_pcUpdate (s : State) : (pcUpdate s).draws = s.draws := by
  unfold pcUpdate; split <;> rfl

theorem reg_pcUpdate_ne (s : State) {q : Reg} (h : q ≠ Reg.pc) : (pcUpdate s).reg q = s.reg q := by
  unfold pcUpdate
  split
  · rfl
  all_goals exact reg_setReg_ne _ _ h

end Sys2Proof.Machine
end

