-- ==== Sys2Proof/Laws/Exec.lean ====
section
/-! SUPPORT. What an instruction can do, said once: one inversion lemma per shared operation, and for `exec` as a whole
the list of the effects a next state can have. -/

namespace Sys2Proof.Machine

/-! ## The shared operations -/

@[simp] theorem whenCond_of_holds {c : Cond} {s : State} (h : condHolds c s.status.flags = true) (r : Res) :
    whenCond c s r = r := by
  simp [whenCond, h]

@[simp] theorem whenCond_of_not {c : Cond} {s : State} (h : condHolds c s.status.flags = false) (r : Res) :
    whenCond c s r = .next s.skip := by
  simp [whenCond, h]

/-- A gated instruction that answers a next state was skipped or ran. -/
theorem whenCond_next {c : Cond} {s t : State} {r : Res} (h : whenCond c s r = .next t) :
    (condHolds c s.flags = false ∧ t = s.skip) ∨ (condHolds c s.flags = true ∧ r = .next t) := by
  unfold whenCond at h
  split at h
  · exact .inr ⟨by assumption, h⟩
  · injection h with h
    exact .inl ⟨by simp_all, h.symm⟩

@[simp] theorem unlessRefused_none (t : State) : unlessRefused none t = .next t := rfl

@[simp] theorem unlessRefused_some (r : UnimplementedReason) (t : State) :
    unlessRefused (some r) t = .fault (.unimplementedOperation r) := rfl

/-- An instruction past its refusal checks has its effect. -/
theorem unlessRefused_next {r : Option UnimplementedReason} {t u : State} (h : unlessRefused r t = .next u) :
    r = none ∧ u = t := by
  cases r with
  | none => injection h with h; exact ⟨rfl, h.symm⟩
  | some r => simp at h

theorem dpWrite_next {c : Cond} {a : Bool} {rd : Reg} {out : AluOut} {s t : State} (h : dpWrite c a rd out s = .next t) :
    (condHolds c s.flags = false ∧ t = s.skip) ∨
      (condHolds c s.flags = true ∧ rd ≠ Reg.pc ∧ t = ((s.setReg rd out.result).setFlagsIf a out.flags).finish) := by
  rcases whenCond_next h with h | ⟨hc, h⟩
  · exact .inl h
  · obtain ⟨hr, ht⟩ := unlessRefused_next h
    refine .inr ⟨hc, fun e => ?_, ht⟩
    simp [e] at hr

theorem dpCompare_next {c : Cond} {a : Bool} {out : AluOut} {s t : State} (h : dpCompare c a out s = .next t) :
    (condHolds c s.flags = false ∧ t = s.skip) ∨
      (condHolds c s.flags = true ∧ t = (s.setFlagsIf a out.flags).finish) := by
  rcases whenCond_next h with h | ⟨hc, h⟩
  · exact .inl h
  · injection h with h
    exact .inr ⟨hc, h.symm⟩

theorem mulRefusal_none {rd rs rm : Reg} {acc : Option Reg} (h : mulRefusal rd rs rm acc = none) :
    rd ≠ Reg.pc ∧ rm ≠ Reg.pc ∧ rs ≠ Reg.pc ∧ acc ≠ some Reg.pc ∧ rd ≠ rm := by
  unfold mulRefusal at h
  split_ifs at h
  tauto

theorem mullRefusal_none {rdHi rdLo rs rm : Reg} (h : mullRefusal rdHi rdLo rs rm = none) :
    rdHi ≠ Reg.pc ∧ rdLo ≠ Reg.pc ∧ rm ≠ Reg.pc ∧ rs ≠ Reg.pc ∧ rdHi ≠ rdLo ∧ rdHi ≠ rm ∧ rdLo ≠ rm := by
  unfold mullRefusal at h
  split_ifs at h
  tauto

theorem swapRefusal_none {rn rd rm : Reg} (h : swapRefusal rn rd rm = none) :
    rd ≠ Reg.pc ∧ rn ≠ Reg.pc ∧ rm ≠ Reg.pc ∧ rn ≠ rd ∧ rn ≠ rm := by
  unfold swapRefusal at h
  split_ifs at h
  tauto

theorem singleRefusal_none {load : Bool} {ix : Indexing} {rn rd : Reg} {o : Option Reg}
    (h : singleRefusal load ix rn rd o = none) :
    (load = true → rd ≠ Reg.pc) ∧ (writesBack ix = true → rn ≠ Reg.pc ∧ rn ≠ rd ∧ o ≠ some rn) ∧ o ≠ some Reg.pc := by
  unfold singleRefusal at h
  split_ifs at h
  tauto

theorem blockRefusal_none {load : Bool} {bm : BlockMode} {rn : Reg} {list : BitVec 16}
    (h : blockRefusal load bm rn list = none) :
    bm.s = false ∧ list ≠ 0 ∧ rn ≠ Reg.pc ∧ (load = true → list.getLsbD 15 = false) ∧
      (bm.w = true → list.getLsbD rn.val = false) := by
  unfold blockRefusal at h
  split_ifs at h
  simp_all

theorem mulWrite_next {c : Cond} {a : Bool} {rd : Reg} {r : Option UnimplementedReason} {v : Word} {s t : State}
    (h : mulWrite c a rd r v s = .next t) :
    (condHolds c s.flags = false ∧ t = s.skip) ∨
      (condHolds c s.flags = true ∧ r = none ∧
        t = ((s.setReg rd v).multiplyFlags a (mulFlags s.flags s.draws v)).finish) := by
  rcases whenCond_next h with h | ⟨hc, h⟩
  · exact .inl h
  · exact .inr ⟨hc, unlessRefused_next h⟩

theorem mullWrite_next {c : Cond} {a : Bool} {hi lo : Reg} {r : Option UnimplementedReason} {v : BitVec 64}
    {s t : State} (h : mullWrite c a hi lo r v s = .next t) :
    (condHolds c s.flags = false ∧ t = s.skip) ∨
      (condHolds c s.flags = true ∧ r = none ∧
        t = (((s.setReg lo (v.extractLsb' 0 32)).setReg hi (v.extractLsb' 32 32)).multiplyFlags a
          (mullFlags s.draws v)).finish) := by
  rcases whenCond_next h with h | ⟨hc, h⟩
  · exact .inl h
  · exact .inr ⟨hc, unlessRefused_next h⟩

theorem swapAt_next {wd : Width} {c : Cond} {rn rd rm : Reg} {s t : State} (h : swapAt wd c rn rd rm s = .next t) :
    (condHolds c s.flags = false ∧ t = s.skip) ∨
      (condHolds c s.flags = true ∧ swapRefusal rn rd rm = none ∧
        t = ((s.setMem (s.mem.store wd (s.reg rn) (s.reg rm))).setReg rd (s.mem.load wd (s.reg rn))).finish) := by
  rcases whenCond_next h with h | ⟨hc, h⟩
  · exact .inl h
  · exact .inr ⟨hc, unlessRefused_next h⟩

theorem singleLoad_next {wd : Width} {c : Cond} {ix : Indexing} {rn rd : Reg} {o : Option Reg} {off : Word}
    {s t : State} (h : singleLoad wd c ix rn rd o off s = .next t) :
    (condHolds c s.flags = false ∧ t = s.skip) ∨
      (condHolds c s.flags = true ∧ singleRefusal true ix rn rd o = none ∧
        t = ((s.setReg rd (s.mem.load wd (transferAddress ix (s.reg rn) off))).baseWriteBack ix rn (s.reg rn)
          off).finish) := by
  rcases whenCond_next h with h | ⟨hc, h⟩
  · exact .inl h
  · exact .inr ⟨hc, unlessRefused_next h⟩

theorem singleStore_next {wd : Width} {c : Cond} {ix : Indexing} {rn rd : Reg} {o : Option Reg} {off : Word}
    {s t : State} (h : singleStore wd c ix rn rd o off s = .next t) :
    (condHolds c s.flags = false ∧ t = s.skip) ∨
      (condHolds c s.flags = true ∧ singleRefusal false ix rn rd o = none ∧
        t = ((s.setMem (s.mem.store wd (transferAddress ix (s.reg rn) off) (s.reg rd))).baseWriteBack ix rn (s.reg rn)
          off).finish) := by
  rcases whenCond_next h with h | ⟨hc, h⟩
  · exact .inl h
  · exact .inr ⟨hc, unlessRefused_next h⟩

theorem execLdm_next {c : Cond} {bm : BlockMode} {rn : Reg} {list : BitVec 16} {s t : State}
    (h : execLdm c bm rn list s = .next t) :
    (condHolds c s.flags = false ∧ t = s.skip) ∨
      (condHolds c s.flags = true ∧ blockRefusal true bm rn list = none ∧
        t = (loadRegs s.mem (blockStart bm (s.reg rn) (listBytes list)) (listedRegs list)
          (s.blockBase bm rn (s.reg rn) (listBytes list))).finish) := by
  rcases whenCond_next h with h | ⟨hc, h⟩
  · exact .inl h
  · exact .inr ⟨hc, unlessRefused_next h⟩

theorem execStm_next {c : Cond} {bm : BlockMode} {rn : Reg} {list : BitVec 16} {s t : State}
    (h : execStm c bm rn list s = .next t) :
    (condHolds c s.flags = false ∧ t = s.skip) ∨
      (condHolds c s.flags = true ∧ blockRefusal false bm rn list = none ∧
        t = ((s.setMem (storeRegs s (blockStart bm (s.reg rn) (listBytes list)) (listedRegs list) s.mem)).blockBase bm
          rn (s.reg rn) (listBytes list)).finish) := by
  rcases whenCond_next h with h | ⟨hc, h⟩
  · exact .inl h
  · exact .inr ⟨hc, unlessRefused_next h⟩

/-! ## Every effect an instruction can have -/

/-- The next states an instruction can answer from `s`, by the shape of its effect. -/
inductive Effect (s : State) : State → Prop where
  | skip : Effect s s.skip
  | write (rd : Reg) (v : Word) (a : Bool) (f : Flags) (h : rd ≠ Reg.pc) :
      Effect s ((s.setReg rd v).setFlagsIf a f).finish
  | compare (a : Bool) (f : Flags) : Effect s (s.setFlagsIf a f).finish
  | multiply (rd : Reg) (v : Word) (a : Bool) (f : Flags) (h : rd ≠ Reg.pc) :
      Effect s ((s.setReg rd v).multiplyFlags a f).finish
  | multiplyLong (hi lo : Reg) (u v : Word) (a : Bool) (f : Flags) (h : hi ≠ Reg.pc) (h' : lo ≠ Reg.pc) :
      Effect s (((s.setReg lo u).setReg hi v).multiplyFlags a f).finish
  | swap (wd : Width) (a v u : Word) (rd : Reg) (h : rd ≠ Reg.pc) :
      Effect s ((s.setMem (s.mem.store wd a v)).setReg rd u).finish
  | load (rd rn : Reg) (v base off : Word) (ix : Indexing) (h : rd ≠ Reg.pc)
      (h' : writesBack ix = true → rn ≠ Reg.pc) :
      Effect s ((s.setReg rd v).baseWriteBack ix rn base off).finish
  | store (wd : Width) (a v base off : Word) (rn : Reg) (ix : Indexing) (h' : writesBack ix = true → rn ≠ Reg.pc) :
      Effect s ((s.setMem (s.mem.store wd a v)).baseWriteBack ix rn base off).finish
  | loadBlock (a base bytes : Word) (l : List Reg) (bm : BlockMode) (rn : Reg) (h : Reg.pc ∉ l) (h' : rn ≠ Reg.pc) :
      Effect s (loadRegs s.mem a l (s.blockBase bm rn base bytes)).finish
  | storeBlock (a base bytes : Word) (l : List Reg) (bm : BlockMode) (rn : Reg) (h' : rn ≠ Reg.pc) :
      Effect s ((s.setMem (storeRegs s a l s.mem)).blockBase bm rn base bytes).finish
  | branch (a : Word) : Effect s (s.redirect a)
  | branchLink (v a : Word) : Effect s ((s.setReg Reg.lr v).redirect a)
  | exchange (t : ExecState) (a : Word) : Effect s ((s.setTag t).redirect a)

theorem effect_dpWrite {c : Cond} {a : Bool} {rd : Reg} {out : AluOut} {s t : State}
    (h : dpWrite c a rd out s = .next t) : Effect s t := by
  rcases dpWrite_next h with ⟨_, rfl⟩ | ⟨_, hr, rfl⟩
  · exact .skip
  · exact .write _ _ _ _ hr

theorem effect_dpCompare {c : Cond} {a : Bool} {out : AluOut} {s t : State} (h : dpCompare c a out s = .next t) :
    Effect s t := by
  rcases dpCompare_next h with ⟨_, rfl⟩ | ⟨_, rfl⟩
  · exact .skip
  · exact .compare _ _

theorem effect_mulWrite {c : Cond} {a : Bool} {rd rs rm : Reg} {acc : Option Reg} {v : Word} {s t : State}
    (h : mulWrite c a rd (mulRefusal rd rs rm acc) v s = .next t) : Effect s t := by
  rcases mulWrite_next h with ⟨_, rfl⟩ | ⟨_, hr, rfl⟩
  · exact .skip
  · exact .multiply _ _ _ _ (mulRefusal_none hr).1

theorem effect_mullWrite {c : Cond} {a : Bool} {hi lo rs rm : Reg} {v : BitVec 64} {s t : State}
    (h : mullWrite c a hi lo (mullRefusal hi lo rs rm) v s = .next t) : Effect s t := by
  rcases mullWrite_next h with ⟨_, rfl⟩ | ⟨_, hr, rfl⟩
  · exact .skip
  · exact .multiplyLong _ _ _ _ _ _ (mullRefusal_none hr).1 (mullRefusal_none hr).2.1

theorem effect_swapAt {wd : Width} {c : Cond} {rn rd rm : Reg} {s t : State} (h : swapAt wd c rn rd rm s = .next t) :
    Effect s t := by
  rcases swapAt_next h with ⟨_, rfl⟩ | ⟨_, hr, rfl⟩
  · exact .skip
  · exact .swap _ _ _ _ _ (swapRefusal_none hr).1

theorem effect_singleLoad {wd : Width} {c : Cond} {ix : Indexing} {rn rd : Reg} {o : Option Reg} {off : Word}
    {s t : State} (h : singleLoad wd c ix rn rd o off s = .next t) : Effect s t := by
  rcases singleLoad_next h with ⟨_, rfl⟩ | ⟨_, hr, rfl⟩
  · exact .skip
  · exact .load _ _ _ _ _ _ ((singleRefusal_none hr).1 rfl) fun hw => ((singleRefusal_none hr).2.1 hw).1

theorem effect_singleStore {wd : Width} {c : Cond} {ix : Indexing} {rn rd : Reg} {o : Option Reg} {off : Word}
    {s t : State} (h : singleStore wd c ix rn rd o off s = .next t) : Effect s t := by
  rcases singleStore_next h with ⟨_, rfl⟩ | ⟨_, hr, rfl⟩
  · exact .skip
  · exact .store _ _ _ _ _ _ _ fun hw => ((singleRefusal_none hr).2.1 hw).1

theorem effect_execLdm {c : Cond} {bm : BlockMode} {rn : Reg} {list : BitVec 16} {s t : State}
    (h : execLdm c bm rn list s = .next t) : Effect s t := by
  rcases execLdm_next h with ⟨_, rfl⟩ | ⟨_, hr, rfl⟩
  · exact .skip
  · obtain ⟨_, _, hn, hl, _⟩ := blockRefusal_none hr
    refine .loadBlock _ _ _ _ _ _ (fun hm => ?_) hn
    rw [mem_listedRegs] at hm
    exact absurd hm (by simpa using hl rfl)

theorem effect_execStm {c : Cond} {bm : BlockMode} {rn : Reg} {list : BitVec 16} {s t : State}
    (h : execStm c bm rn list s = .next t) : Effect s t := by
  rcases execStm_next h with ⟨_, rfl⟩ | ⟨_, hr, rfl⟩
  · exact .skip
  · exact .storeBlock _ _ _ _ _ _ (blockRefusal_none hr).2.2.1

theorem effect_execB {c : Cond} {o : BitVec 24} {s t : State} (h : execB c o s = .next t) : Effect s t := by
  rcases whenCond_next h with ⟨_, rfl⟩ | ⟨_, h⟩
  · exact .skip
  · injection h with h; subst h; exact .branch _

theorem effect_execBl {c : Cond} {o : BitVec 24} {s t : State} (h : execBl c o s = .next t) : Effect s t := by
  rcases whenCond_next h with ⟨_, rfl⟩ | ⟨_, h⟩
  · exact .skip
  · injection h with h; subst h; exact .branchLink _ _

theorem effect_execBx {c : Cond} {rm : Reg} {s t : State} (h : execBx c rm s = .next t) : Effect s t := by
  rcases whenCond_next h with ⟨_, rfl⟩ | ⟨_, h⟩
  · exact .skip
  · injection h with h; subst h; exact .exchange _ _

/-- What an instruction that answers a next state has done. -/
theorem exec_effect {i : Instr} {s t : State} (h : exec i s = .next t) : Effect s t := by
  cases i
  case tstImm | teqImm | cmpImm | cmnImm | tstReg | teqReg | cmpReg | cmnReg => exact effect_dpCompare h
  case mul | mla => exact effect_mulWrite h
  case umull | umlal | smull | smlal => exact effect_mullWrite h
  case swp | swpb => exact effect_swapAt h
  case b => exact effect_execB h
  case bl => exact effect_execBl h
  case bx => exact effect_execBx h
  case ldrImm | ldrbImm | ldrReg | ldrbReg => exact effect_singleLoad h
  case strImm | strbImm | strReg | strbReg => exact effect_singleStore h
  case ldm => exact effect_execLdm h
  case stm => exact effect_execStm h
  case errReservedCondition | errHalfword01 | errHalfword10 | errHalfword11 | errUndefined | errCoprocessorOrSwi =>
    nomatch h
  all_goals exact effect_dpWrite h

/-! ## The step -/

/-- What a step that answers a next state has done: nothing executed, or the word of the decode latch. -/
theorem step_next {s t : State} (h : step s = .next t) :
    s.tag = .arm ∧
      ((s.decodeLatch = none ∧ t = pcUpdate ((fetchAndShift s).setReport .bubble)) ∨
        ∃ w u, s.decodeLatch = some w ∧ exec (decodeWord w) (fetchAndShift s) = .next u ∧ t = pcUpdate u) := by
  unfold step advanceWith at h
  split at h
  · nomatch h
  · refine ⟨by assumption, ?_⟩
    unfold advanceArm at h
    split at h
    · injection h with h
      exact .inl ⟨by assumption, h.symm⟩
    · rename_i w hw
      cases he : exec (decodeWord w) (fetchAndShift s) with
      | next u =>
        rw [he] at h
        injection h with h
        exact .inr ⟨w, u, hw, he, h.symm⟩
      | fault f => rw [he] at h; nomatch h
      | refused q => rw [he] at h; nomatch h

end Sys2Proof.Machine
end

