-- ==== Sys2Proof/Laws/HostPort.lean ====
section
/-! SUPPORT. The cells a machine is constructed with. -/

namespace Sys2Proof.Machine

/-- The keys of an image's cells lie inside the image. -/
theorem mem_imageCells (b : Nat) (l : List Byte) : ∀ c ∈ imageCells b l, b ≤ c.1 ∧ c.1 < b + l.length := by
  induction l generalizing b with
  | nil => simp [imageCells]
  | cons v rest ih =>
    intro c hc
    unfold imageCells at hc
    split at hc
    · have := ih _ c hc; simp only [List.length_cons]; omega
    · rcases List.mem_cons.1 hc with rfl | hc
      · simp
      · have := ih _ c hc; simp only [List.length_cons]; omega

theorem cellAt_of_none (l : List Host.Cell) (a : Nat) (h : ∀ c ∈ l, c.1 ≠ a) : cellAt l a = 0 := by
  induction l with
  | nil => rfl
  | cons c rest ih =>
    obtain ⟨k, v⟩ := c
    have := h (k, v) (by simp)
    simp only at this
    simp only [cellAt, this, if_false]
    exact ih fun c hc => h c (by simp [hc])

theorem cellAt_append_left (l l' : List Host.Cell) (a : Nat) (h : ∀ c ∈ l', c.1 ≠ a) : cellAt (l ++ l') a = cellAt l a := by
  induction l with
  | nil => simpa [cellAt] using cellAt_of_none l' a h
  | cons c rest ih => obtain ⟨k, v⟩ := c; simp [cellAt, ih]

theorem cellAt_append_right (l l' : List Host.Cell) (a : Nat) (h : ∀ c ∈ l, c.1 ≠ a) : cellAt (l ++ l') a = cellAt l' a := by
  induction l with
  | nil => rfl
  | cons c rest ih =>
    obtain ⟨k, v⟩ := c
    have := h (k, v) (by simp)
    simp only at this
    simp only [List.cons_append, cellAt, this, if_false]
    exact ih fun c hc => h c (by simp [hc])

/-- An image's cells hold its bytes. -/
theorem cellAt_imageCells (b : Nat) (l : List Byte) (a : Nat) (h : b ≤ a) : cellAt (imageCells b l) a = l.getD (a - b) 0 := by
  induction l generalizing b with
  | nil => simp [imageCells, cellAt]
  | cons v rest ih =>
    unfold imageCells
    by_cases hb : b = a
    · subst hb
      split
      · rw [cellAt_of_none]
        · simp_all
        · intro c hc; have := mem_imageCells _ _ c hc; omega
      · simp [cellAt]
    · have e : a - b = (a - (b + 1)) + 1 := by omega
      split
      · rw [ih _ (by omega), e]; simp
      · simp only [cellAt, hb, if_false]; rw [ih _ (by omega), e]; simp


/-- The cells of an image before cells above it keep the canonical order. -/
theorem cellsAbove_image (lo : Option Nat) (b : Nat) (l : List Byte) (l' : List Host.Cell) (h : ∀ x, lo = some x → x < b) (h' : ∀ x, x < b + l.length → cellsAbove (some x) l' = true) (h'' : cellsAbove lo l' = true) : cellsAbove lo (imageCells b l ++ l') = true := by
  induction l generalizing lo b with
  | nil => exact h''
  | cons v rest ih =>
    unfold imageCells
    split
    · exact ih _ _ (fun x hx => by have := h x hx; omega) (fun x hx => h' x (by simp; omega)) h''
    · simp only [List.cons_append, cellsAbove, Bool.and_eq_true]
      refine ⟨⟨?_, by simpa using ‹¬ v = 0#8›⟩, ?_⟩
      · cases lo with
        | none => rfl
        | some x => simpa using h x rfl
      · exact ih _ _ (fun x hx => by cases hx; omega) (fun x hx => h' x (by simp; omega)) (h' b (by simp))


end Sys2Proof.Machine
end

