-- ==== Sys2Proof/Laws/Operands.lean ====
section
/-! SUPPORT. What the shift primitives and AddWithCarry give, as bits, sums and differences. -/

namespace Sys2Proof.Machine

/-- A rotation, bit by bit. -/
theorem getLsbD_ror32 (v : Word) (n i : Nat) (hi : i < 32) : (ror32 v n).getLsbD i = v.getLsbD ((i + n) % 32) := by
  unfold ror32 lsr lsl
  rw [BitVec.getLsbD_or, BitVec.getLsbD_ushiftRight, BitVec.getLsbD_shiftLeft]
  have : n % 32 < 32 := Nat.mod_lt _ (by omega)
  have e : (i + n) % 32 = (i + n % 32) % 32 := by omega
  rw [e]
  generalize n % 32 = k at *
  by_cases hk : k = 0
  · subst hk; simp only [Nat.sub_zero, Nat.mod_self, Nat.add_zero, Nat.zero_add, Nat.not_lt_zero, hi, decide_true, decide_false, Bool.not_false, Bool.true_and, Bool.or_self, Nat.mod_eq_of_lt hi]
  · have e2 : (32 - k) % 32 = 32 - k := Nat.mod_eq_of_lt (by omega)
    rw [e2]
    by_cases h : i + k < 32
    · have h2 : i < 32 - k := by omega
      simp only [Nat.mod_eq_of_lt h, h2, decide_true, Bool.not_true, Bool.and_false, Bool.false_and, Bool.or_false, Nat.add_comm k i]
    · have h2 : ¬ i < 32 - k := by omega
      have e3 : (i + k) % 32 = i + k - 32 := by omega
      have e4 : i - (32 - k) = i + k - 32 := by omega
      have e5 : v.getLsbD (k + i) = false := BitVec.getLsbD_of_ge _ _ (by omega)
      simp only [e5, h2, hi, decide_true, decide_false, Bool.not_false, Bool.true_and, Bool.false_or, e3, e4]

/-- The result of AddWithCarry is the sum. -/
theorem result_addWithCarry (x y : Word) (k : Bool) : (addWithCarry x y k).result = x + y + (if k then 1 else 0) := by
  apply BitVec.eq_of_toNat_eq
  cases k <;> simp [addWithCarry, BitVec.toNat_add]

/-- With the complement and a carry in, it is the difference. -/
theorem result_addWithCarry_not (x y : Word) : (addWithCarry x (~~~y) true).result = x - y := by
  rw [result_addWithCarry]
  apply BitVec.eq_of_toNat_eq
  have hy := y.isLt
  simp [BitVec.toNat_add, BitVec.toNat_not, BitVec.toNat_sub]; omega

/-- With the complement and a borrow, it is the difference less the borrow. -/
theorem result_addWithCarry_borrow (x y : Word) (k : Bool) : (addWithCarry x (~~~y) k).result = x - y - (1 - (if k then 1 else 0)) := by
  cases k
  · rw [result_addWithCarry]
    apply BitVec.eq_of_toNat_eq
    have hy := y.isLt
    simp [BitVec.toNat_add, BitVec.toNat_not, BitVec.toNat_sub]; omega
  · rw [result_addWithCarry_not]; simp

end Sys2Proof.Machine
end

