-- ==== Sys2Proof/Laws/PerInstr.lean ====
section
/-! SUPPORT. Statements for every instruction, one lemma per constructor. -/

namespace Sys2Proof.Laws.EncodeInRow

open Sys2Proof

/-- The encoder writes a well-formed instruction into the instruction's own row of the opcode table: the bits of the
row's mask are the row's match (`30_encoding.md` rule R83). -/
def Statement (i : Instr) : Prop := i.wellFormed = true → inRow i.row.1 i.row.2 (encode i) = true

/-! ## The masked bits of each format -/

theorem masked_dpImm (op : BitVec 4) (c : Cond) (s : Bool) (rn rd : Reg) (o : RotImm) :
    encodeDpImm op c s rn rd o &&& 0x0FE00000#32 =
      0x02000000#32 ||| (placeAt 21 op &&& 0x0FE00000#32) := by
  simp only [encodeDpImm, or_and, placeAt_and]
  simp [fieldAt, placeAt]

theorem masked_dpReg (op : BitVec 4) (c : Cond) (s : Bool) (rn rd : Reg) (o : ShiftedReg) :
    encodeDpReg op c s rn rd o &&& 0x0FE00010#32 = placeAt 21 op &&& 0x0FE00010#32 := by
  simp only [encodeDpReg, ShiftedReg.word, or_and, placeAt_and]
  simp [fieldAt, placeAt]

theorem masked_multiply (op : BitVec 4) (c : Cond) (s : Bool) (r19 r15 rs rm : Reg) :
    encodeMultiply op c s r19 r15 rs rm &&& 0x0FE000F0#32 =
      (placeAt 21 op &&& 0x0FE000F0#32) ||| 0x90#32 := by
  simp only [encodeMultiply, or_and, placeAt_and]
  simp [fieldAt, placeAt]

theorem masked_swap (b : Bool) (c : Cond) (rn rd rm : Reg) :
    encodeSwap b c rn rd rm &&& 0x0F4000F0#32 = 0x01000000#32 ||| placeAt 22 (BitVec.ofBool b) ||| 0x90#32 := by
  cases b <;> simp only [encodeSwap, or_and, placeAt_and] <;> simp [fieldAt, placeAt]

theorem masked_singleImm (b l : Bool) (c : Cond) (ix : Indexing) (rn rd : Reg) (imm12 : BitVec 12) :
    encodeSingle false b l c ix rn rd (placeAt 0 imm12) &&& 0x0E500000#32 =
      0x04000000#32 ||| placeAt 22 (BitVec.ofBool b) ||| placeAt 20 (BitVec.ofBool l) := by
  cases b <;> cases l <;> simp only [encodeSingle, or_and, placeAt_and] <;> simp [fieldAt, placeAt]

theorem masked_singleReg (b l : Bool) (c : Cond) (ix : Indexing) (rn rd : Reg) (o : ShiftedReg) :
    encodeSingle true b l c ix rn rd o.word &&& 0x0E500010#32 =
      0x06000000#32 ||| placeAt 22 (BitVec.ofBool b) ||| placeAt 20 (BitVec.ofBool l) := by
  cases b <;> cases l <;> simp only [encodeSingle, ShiftedReg.word, or_and, placeAt_and] <;> simp [fieldAt, placeAt]

theorem masked_block (l : Bool) (c : Cond) (bm : BlockMode) (rn : Reg) (list : BitVec 16) :
    encodeBlock l c bm rn list &&& 0x0E100000#32 = 0x08000000#32 ||| placeAt 20 (BitVec.ofBool l) := by
  cases l <;> simp only [encodeBlock, or_and, placeAt_and] <;> simp [fieldAt, placeAt]

theorem masked_branch (l : Bool) (c : Cond) (offset24 : BitVec 24) :
    encodeBranch l c offset24 &&& 0x0F000000#32 = 0x0A000000#32 ||| placeAt 24 (BitVec.ofBool l) := by
  cases l <;> simp only [encodeBranch, or_and, placeAt_and] <;> simp [fieldAt, placeAt]

theorem masked_bx (c : Cond) (rm : Reg) : encodeBx c rm &&& 0x0E000090#32 = 0x00000010#32 := by
  simp only [encodeBx, or_and, placeAt_and]
  simp [fieldAt, placeAt]

/-- The two multiplies leave bit 22 outside their mask. -/
theorem masked_mul (op : BitVec 4) (c : Cond) (s : Bool) (r19 r15 rs rm : Reg) :
    encodeMultiply op c s r19 r15 rs rm &&& 0x0FA000F0#32 = (placeAt 21 op &&& 0x0FA000F0#32) ||| 0x90#32 := by
  simp only [encodeMultiply, or_and, placeAt_and]
  simp [fieldAt, placeAt]

/-! ## The constructors -/

theorem andImm (c : Cond) (s : Bool) (rn rd : Reg) (op2 : RotImm) : Statement (.andImm c s rn rd op2) :=
  fun _ => beq_iff_eq.mpr (masked_dpImm ..)

theorem eorImm (c : Cond) (s : Bool) (rn rd : Reg) (op2 : RotImm) : Statement (.eorImm c s rn rd op2) :=
  fun _ => beq_iff_eq.mpr (masked_dpImm ..)

theorem subImm (c : Cond) (s : Bool) (rn rd : Reg) (op2 : RotImm) : Statement (.subImm c s rn rd op2) :=
  fun _ => beq_iff_eq.mpr (masked_dpImm ..)

theorem rsbImm (c : Cond) (s : Bool) (rn rd : Reg) (op2 : RotImm) : Statement (.rsbImm c s rn rd op2) :=
  fun _ => beq_iff_eq.mpr (masked_dpImm ..)

theorem addImm (c : Cond) (s : Bool) (rn rd : Reg) (op2 : RotImm) : Statement (.addImm c s rn rd op2) :=
  fun _ => beq_iff_eq.mpr (masked_dpImm ..)

theorem adcImm (c : Cond) (s : Bool) (rn rd : Reg) (op2 : RotImm) : Statement (.adcImm c s rn rd op2) :=
  fun _ => beq_iff_eq.mpr (masked_dpImm ..)

theorem sbcImm (c : Cond) (s : Bool) (rn rd : Reg) (op2 : RotImm) : Statement (.sbcImm c s rn rd op2) :=
  fun _ => beq_iff_eq.mpr (masked_dpImm ..)

theorem rscImm (c : Cond) (s : Bool) (rn rd : Reg) (op2 : RotImm) : Statement (.rscImm c s rn rd op2) :=
  fun _ => beq_iff_eq.mpr (masked_dpImm ..)

theorem tstImm (c : Cond) (s : Bool) (rn rd : Reg) (op2 : RotImm) : Statement (.tstImm c s rn rd op2) :=
  fun _ => beq_iff_eq.mpr (masked_dpImm ..)

theorem teqImm (c : Cond) (s : Bool) (rn rd : Reg) (op2 : RotImm) : Statement (.teqImm c s rn rd op2) :=
  fun _ => beq_iff_eq.mpr (masked_dpImm ..)

theorem cmpImm (c : Cond) (s : Bool) (rn rd : Reg) (op2 : RotImm) : Statement (.cmpImm c s rn rd op2) :=
  fun _ => beq_iff_eq.mpr (masked_dpImm ..)

theorem cmnImm (c : Cond) (s : Bool) (rn rd : Reg) (op2 : RotImm) : Statement (.cmnImm c s rn rd op2) :=
  fun _ => beq_iff_eq.mpr (masked_dpImm ..)

theorem orrImm (c : Cond) (s : Bool) (rn rd : Reg) (op2 : RotImm) : Statement (.orrImm c s rn rd op2) :=
  fun _ => beq_iff_eq.mpr (masked_dpImm ..)

theorem movImm (c : Cond) (s : Bool) (rn rd : Reg) (op2 : RotImm) : Statement (.movImm c s rn rd op2) :=
  fun _ => beq_iff_eq.mpr (masked_dpImm ..)

theorem bicImm (c : Cond) (s : Bool) (rn rd : Reg) (op2 : RotImm) : Statement (.bicImm c s rn rd op2) :=
  fun _ => beq_iff_eq.mpr (masked_dpImm ..)

theorem mvnImm (c : Cond) (s : Bool) (rn rd : Reg) (op2 : RotImm) : Statement (.mvnImm c s rn rd op2) :=
  fun _ => beq_iff_eq.mpr (masked_dpImm ..)

theorem andReg (c : Cond) (s : Bool) (rn rd : Reg) (op2 : ShiftedReg) : Statement (.andReg c s rn rd op2) :=
  fun _ => beq_iff_eq.mpr (masked_dpReg ..)

theorem eorReg (c : Cond) (s : Bool) (rn rd : Reg) (op2 : ShiftedReg) : Statement (.eorReg c s rn rd op2) :=
  fun _ => beq_iff_eq.mpr (masked_dpReg ..)

theorem subReg (c : Cond) (s : Bool) (rn rd : Reg) (op2 : ShiftedReg) : Statement (.subReg c s rn rd op2) :=
  fun _ => beq_iff_eq.mpr (masked_dpReg ..)

theorem rsbReg (c : Cond) (s : Bool) (rn rd : Reg) (op2 : ShiftedReg) : Statement (.rsbReg c s rn rd op2) :=
  fun _ => beq_iff_eq.mpr (masked_dpReg ..)

theorem addReg (c : Cond) (s : Bool) (rn rd : Reg) (op2 : ShiftedReg) : Statement (.addReg c s rn rd op2) :=
  fun _ => beq_iff_eq.mpr (masked_dpReg ..)

theorem adcReg (c : Cond) (s : Bool) (rn rd : Reg) (op2 : ShiftedReg) : Statement (.adcReg c s rn rd op2) :=
  fun _ => beq_iff_eq.mpr (masked_dpReg ..)

theorem sbcReg (c : Cond) (s : Bool) (rn rd : Reg) (op2 : ShiftedReg) : Statement (.sbcReg c s rn rd op2) :=
  fun _ => beq_iff_eq.mpr (masked_dpReg ..)

theorem rscReg (c : Cond) (s : Bool) (rn rd : Reg) (op2 : ShiftedReg) : Statement (.rscReg c s rn rd op2) :=
  fun _ => beq_iff_eq.mpr (masked_dpReg ..)

theorem tstReg (c : Cond) (s : Bool) (rn rd : Reg) (op2 : ShiftedReg) : Statement (.tstReg c s rn rd op2) :=
  fun _ => beq_iff_eq.mpr (masked_dpReg ..)

theorem teqReg (c : Cond) (s : Bool) (rn rd : Reg) (op2 : ShiftedReg) : Statement (.teqReg c s rn rd op2) :=
  fun _ => beq_iff_eq.mpr (masked_dpReg ..)

theorem cmpReg (c : Cond) (s : Bool) (rn rd : Reg) (op2 : ShiftedReg) : Statement (.cmpReg c s rn rd op2) :=
  fun _ => beq_iff_eq.mpr (masked_dpReg ..)

theorem cmnReg (c : Cond) (s : Bool) (rn rd : Reg) (op2 : ShiftedReg) : Statement (.cmnReg c s rn rd op2) :=
  fun _ => beq_iff_eq.mpr (masked_dpReg ..)

theorem orrReg (c : Cond) (s : Bool) (rn rd : Reg) (op2 : ShiftedReg) : Statement (.orrReg c s rn rd op2) :=
  fun _ => beq_iff_eq.mpr (masked_dpReg ..)

theorem movReg (c : Cond) (s : Bool) (rn rd : Reg) (op2 : ShiftedReg) : Statement (.movReg c s rn rd op2) :=
  fun _ => beq_iff_eq.mpr (masked_dpReg ..)

theorem bicReg (c : Cond) (s : Bool) (rn rd : Reg) (op2 : ShiftedReg) : Statement (.bicReg c s rn rd op2) :=
  fun _ => beq_iff_eq.mpr (masked_dpReg ..)

theorem mvnReg (c : Cond) (s : Bool) (rn rd : Reg) (op2 : ShiftedReg) : Statement (.mvnReg c s rn rd op2) :=
  fun _ => beq_iff_eq.mpr (masked_dpReg ..)

theorem mul (c : Cond) (s : Bool) (rd rn rs rm : Reg) : Statement (.mul c s rd rn rs rm) :=
  fun _ => beq_iff_eq.mpr (masked_mul ..)

theorem mla (c : Cond) (s : Bool) (rd rn rs rm : Reg) : Statement (.mla c s rd rn rs rm) :=
  fun _ => beq_iff_eq.mpr (masked_mul ..)

theorem umull (c : Cond) (s : Bool) (rdHi rdLo rs rm : Reg) : Statement (.umull c s rdHi rdLo rs rm) :=
  fun _ => beq_iff_eq.mpr (masked_multiply ..)

theorem umlal (c : Cond) (s : Bool) (rdHi rdLo rs rm : Reg) : Statement (.umlal c s rdHi rdLo rs rm) :=
  fun _ => beq_iff_eq.mpr (masked_multiply ..)

theorem smull (c : Cond) (s : Bool) (rdHi rdLo rs rm : Reg) : Statement (.smull c s rdHi rdLo rs rm) :=
  fun _ => beq_iff_eq.mpr (masked_multiply ..)

theorem smlal (c : Cond) (s : Bool) (rdHi rdLo rs rm : Reg) : Statement (.smlal c s rdHi rdLo rs rm) :=
  fun _ => beq_iff_eq.mpr (masked_multiply ..)

theorem swp (c : Cond) (rn rd rm : Reg) : Statement (.swp c rn rd rm) :=
  fun _ => beq_iff_eq.mpr (masked_swap ..)

theorem swpb (c : Cond) (rn rd rm : Reg) : Statement (.swpb c rn rd rm) :=
  fun _ => beq_iff_eq.mpr (masked_swap ..)

theorem b (c : Cond) (offset24 : BitVec 24) : Statement (.b c offset24) :=
  fun _ => beq_iff_eq.mpr (masked_branch ..)

theorem bl (c : Cond) (offset24 : BitVec 24) : Statement (.bl c offset24) :=
  fun _ => beq_iff_eq.mpr (masked_branch ..)

theorem bx (c : Cond) (rm : Reg) : Statement (.bx c rm) :=
  fun _ => beq_iff_eq.mpr (masked_bx ..)

theorem ldrImm (c : Cond) (ix : Indexing) (rn rd : Reg) (imm12 : BitVec 12) : Statement (.ldrImm c ix rn rd imm12) :=
  fun _ => beq_iff_eq.mpr (masked_singleImm ..)

theorem strImm (c : Cond) (ix : Indexing) (rn rd : Reg) (imm12 : BitVec 12) : Statement (.strImm c ix rn rd imm12) :=
  fun _ => beq_iff_eq.mpr (masked_singleImm ..)

theorem ldrbImm (c : Cond) (ix : Indexing) (rn rd : Reg) (imm12 : BitVec 12) : Statement (.ldrbImm c ix rn rd imm12) :=
  fun _ => beq_iff_eq.mpr (masked_singleImm ..)

theorem strbImm (c : Cond) (ix : Indexing) (rn rd : Reg) (imm12 : BitVec 12) : Statement (.strbImm c ix rn rd imm12) :=
  fun _ => beq_iff_eq.mpr (masked_singleImm ..)

theorem ldrReg (c : Cond) (ix : Indexing) (rn rd : Reg) (off : ShiftedReg) : Statement (.ldrReg c ix rn rd off) :=
  fun _ => beq_iff_eq.mpr (masked_singleReg ..)

theorem strReg (c : Cond) (ix : Indexing) (rn rd : Reg) (off : ShiftedReg) : Statement (.strReg c ix rn rd off) :=
  fun _ => beq_iff_eq.mpr (masked_singleReg ..)

theorem ldrbReg (c : Cond) (ix : Indexing) (rn rd : Reg) (off : ShiftedReg) : Statement (.ldrbReg c ix rn rd off) :=
  fun _ => beq_iff_eq.mpr (masked_singleReg ..)

theorem strbReg (c : Cond) (ix : Indexing) (rn rd : Reg) (off : ShiftedReg) : Statement (.strbReg c ix rn rd off) :=
  fun _ => beq_iff_eq.mpr (masked_singleReg ..)

theorem ldm (c : Cond) (bm : BlockMode) (rn : Reg) (list : BitVec 16) : Statement (.ldm c bm rn list) :=
  fun _ => beq_iff_eq.mpr (masked_block ..)

theorem stm (c : Cond) (bm : BlockMode) (rn : Reg) (list : BitVec 16) : Statement (.stm c bm rn list) :=
  fun _ => beq_iff_eq.mpr (masked_block ..)

theorem errReservedCondition (w : Word) : Statement (.errReservedCondition w) := fun h => h

theorem errHalfword01 (w : Word) : Statement (.errHalfword01 w) := fun h => ((Bool.and_eq_true _ _).mp h).2

theorem errHalfword10 (w : Word) : Statement (.errHalfword10 w) := fun h => ((Bool.and_eq_true _ _).mp h).2

theorem errHalfword11 (w : Word) : Statement (.errHalfword11 w) := fun h => ((Bool.and_eq_true _ _).mp h).2

theorem errUndefined (w : Word) : Statement (.errUndefined w) := fun h => ((Bool.and_eq_true _ _).mp h).2

theorem errCoprocessorOrSwi (w : Word) : Statement (.errCoprocessorOrSwi w) := fun h => ((Bool.and_eq_true _ _).mp h).2

end Sys2Proof.Laws.EncodeInRow
end

