-- ==== Sys2Proof/Tests/Slice0.lean ====
section
/-! SUPPORT. The model's own tests: the smoke test of `WellFormed`, the words of the decode tests, single steps of the
vectors of `95_test_vectors.md` (their ids V<n> stand beside the expected values, which are the spec's), and for each
obligation with hypotheses a witness that meets them. -/

set_option Elab.async false

namespace Sys2Proof.Tests

open Sys2Proof Sys2Proof.Machine Sys2Proof.Claims

/-! ## Helpers -/

/-- Flags from the four digits of `NZCV`. -/
def nzcv (b : BitVec 4) : Flags := ⟨b.getLsbD 3, b.getLsbD 2, b.getLsbD 1, b.getLsbD 0⟩

/-- The reset state with an instruction fetched at `A` about to execute (so R15 = A + 8), some registers and flags. -/
def startAt (A : Word) (l : List (Reg × Word)) (f : BitVec 4) : State :=
  l.foldl (fun s p => s.setReg p.1 p.2) ((State.reset.setReg 15 (A + 8)).setFlags (nzcv f))

/-- `startAt` at the vectors' default address. -/
def start (l : List (Reg × Word)) (f : BitVec 4) : State := startAt 0x08000000 l f

/-- The state with words stored from an address on. -/
def ram (a : Word) : List Word → State → State
  | [], s => s
  | w :: ws, s => ram (a + 4) ws (s.setMem (s.mem.writeWord a w))

/-- The executor's effect of a word. -/
def run (w : Word) (s : State) : Res := exec (decodeWord w) s

/-- The next state of an answer. -/
def nextOf : Res → Option State
  | .next t => some t
  | .fault _ => none
  | .refused _ => none

/-- The fault of an answer. -/
def faultOf : Res → Option Fault
  | .next _ => none
  | .fault f => some f
  | .refused _ => none

/-- Registers and flags after a word. -/
def regs (w : Word) (s : State) (l : List Reg) : Option (List Word × Flags) :=
  match run w s with
  | .next t => some (l.map t.reg, t.flags)
  | .fault _ => none
  | .refused _ => none

/-- Some registers and the words at some addresses after a word. -/
def regsMem (w : Word) (s : State) (l : List Reg) (m : List Word) : Option (List Word × List Word) :=
  match run w s with
  | .next t => some (l.map t.reg, m.map t.mem.readWord)
  | .fault _ => none
  | .refused _ => none

/-- R15, T and redirection after a word. -/
def goes (w : Word) (s : State) : Option (Word × ExecState × Bool) :=
  match run w s with
  | .next t => some (t.pc, t.tag, t.report == .executed .redirected)
  | .fault _ => none
  | .refused _ => none

/-- Registers, N and Z after a word that takes draws, and that it took them. -/
def drawn (w : Word) (s : State) (l : List Reg) : Option (List Word × List Bool) :=
  match run w s with
  | .next t => some (l.map t.reg, [t.flags.n, t.flags.z, t.draws == s.draws + 1])
  | .fault _ => none
  | .refused _ => none

/-- The word gives a next state. -/
def runs (w : Word) (s : State) : Bool := (nextOf (run w s)).isSome

/-- The reason a word is turned away for. -/
def turnedAway (w : Word) (s : State) : Option UnimplementedReason :=
  match run w s with
  | .next _ => none
  | .fault (.unimplementedOperation r) => some r
  | .fault (.decodeError _) => none
  | .refused _ => none

/-! ## WellFormed: each check refuses an ill-formed term -/

theorem test_ill_formed_reserved_condition : (Instr.errReservedCondition 0xE0833002).wellFormed = false := by decide
theorem test_ill_formed_halfword01 :
    (Instr.errHalfword01 0xE19100D0).wellFormed = false ∧ (Instr.errHalfword01 0xF1D100B0).wellFormed = false := by
  decide
theorem test_ill_formed_halfword10 :
    (Instr.errHalfword10 0xE1D100B0).wellFormed = false ∧ (Instr.errHalfword10 0xF19100D0).wellFormed = false := by
  decide
theorem test_ill_formed_halfword11 :
    (Instr.errHalfword11 0xE19100D0).wellFormed = false ∧ (Instr.errHalfword11 0xF19100F0).wellFormed = false := by
  decide
theorem test_ill_formed_undefined :
    (Instr.errUndefined 0xE6000000).wellFormed = false ∧ (Instr.errUndefined 0xF6000010).wellFormed = false := by decide
theorem test_ill_formed_coprocessor :
    (Instr.errCoprocessorOrSwi 0xEA000000).wellFormed = false ∧
      (Instr.errCoprocessorOrSwi 0xFF000000).wellFormed = false := by decide

/-! ## Decoding: words written out from the fields of `30_encoding.md` -/

/-- Immediate forms (rule R63): class 00, bit 25 = 1, opcode in bits 24:21. -/
theorem test_decode_data_processing_immediate :
    decodeWord 0xE2010002 = .andImm .al false 1 0 ⟨0, 2⟩ ∧ decodeWord 0x12332103 = .eorImm .ne true 3 2 ⟨1, 3⟩ ∧
    decodeWord 0xE2511001 = .subImm .al true 1 1 ⟨0, 1⟩ ∧ decodeWord 0xE2710000 = .rsbImm .al true 1 0 ⟨0, 0⟩ ∧
    decodeWord 0xE28DDC01 = .addImm .al false 13 13 ⟨12, 1⟩ ∧ decodeWord 0xE2A10002 = .adcImm .al false 1 0 ⟨0, 2⟩ ∧
    decodeWord 0xE2C10002 = .sbcImm .al false 1 0 ⟨0, 2⟩ ∧ decodeWord 0xE2E10002 = .rscImm .al false 1 0 ⟨0, 2⟩ ∧
    decodeWord 0xE3110001 = .tstImm .al true 1 0 ⟨0, 1⟩ ∧ decodeWord 0xE33100FF = .teqImm .al true 1 0 ⟨0, 255⟩ ∧
    decodeWord 0xE3510F01 = .cmpImm .al true 1 0 ⟨15, 1⟩ ∧ decodeWord 0xE3710001 = .cmnImm .al true 1 0 ⟨0, 1⟩ ∧
    decodeWord 0xE3810002 = .orrImm .al false 1 0 ⟨0, 2⟩ ∧ decodeWord 0xE3A00005 = .movImm .al false 0 0 ⟨0, 5⟩ ∧
    decodeWord 0xE3C100FF = .bicImm .al false 1 0 ⟨0, 255⟩ ∧ decodeWord 0xE3F00000 = .mvnImm .al true 0 0 ⟨0, 0⟩ := by
  decide

/-- Register forms (rule R64): amount in bits 11:7, type in bits 6:5, bit 4 = 0. -/
theorem test_decode_data_processing_register :
    decodeWord 0xE0110002 = .andReg .al true 1 0 ⟨2, .lsl, 0⟩ ∧
    decodeWord 0xE0310001 = .eorReg .al true 1 0 ⟨1, .lsl, 0⟩ ∧
    decodeWord 0xE0510002 = .subReg .al true 1 0 ⟨2, .lsl, 0⟩ ∧
    decodeWord 0xE0610FE2 = .rsbReg .al false 1 0 ⟨2, .ror, 31⟩ ∧
    decodeWord 0xE0811101 = .addReg .al false 1 1 ⟨1, .lsl, 2⟩ ∧
    decodeWord 0xE0B10002 = .adcReg .al true 1 0 ⟨2, .lsl, 0⟩ ∧
    decodeWord 0xE0D10002 = .sbcReg .al true 1 0 ⟨2, .lsl, 0⟩ ∧
    decodeWord 0xE0F10002 = .rscReg .al true 1 0 ⟨2, .lsl, 0⟩ ∧
    decodeWord 0xE10F0000 = .tstReg .al false 15 0 ⟨0, .lsl, 0⟩ ∧
    decodeWord 0xE129F000 = .teqReg .al false 9 15 ⟨0, .lsl, 0⟩ ∧
    decodeWord 0xE1510002 = .cmpReg .al true 1 0 ⟨2, .lsl, 0⟩ ∧
    decodeWord 0xE1710042 = .cmnReg .al true 1 0 ⟨2, .asr, 0⟩ ∧
    decodeWord 0xE1910002 = .orrReg .al true 1 0 ⟨2, .lsl, 0⟩ ∧
    decodeWord 0xE1B000A1 = .movReg .al true 0 0 ⟨1, .lsr, 1⟩ ∧
    decodeWord 0xE1C10002 = .bicReg .al false 1 0 ⟨2, .lsl, 0⟩ ∧
    decodeWord 0x01E00002 = .mvnReg .eq false 0 0 ⟨2, .lsl, 0⟩ := by decide

/-- Multiply and swap (rule R67; V28, V32 to V35). -/
theorem test_decode_multiply_and_swap :
    decodeWord 0xE0000090 = .mul .al false 0 0 0 0 ∧ decodeWord 0xE0100291 = .mul .al true 0 0 2 1 ∧
    decodeWord 0xE0203291 = .mla .al false 0 3 2 1 ∧ decodeWord 0xE0810392 = .umull .al false 1 0 3 2 ∧
    decodeWord 0xE0A10392 = .umlal .al false 1 0 3 2 ∧ decodeWord 0xE0D10392 = .smull .al true 1 0 3 2 ∧
    decodeWord 0xE0E10392 = .smlal .al false 1 0 3 2 ∧ decodeWord 0xE1000090 = .swp .al 0 0 0 ∧
    decodeWord 0xE1020091 = .swp .al 2 0 1 ∧ decodeWord 0xE1420091 = .swpb .al 2 0 1 := by decide

/-- Branches (rules R65, R70; V9, V14, V15, V36, V37). -/
theorem test_decode_branch :
    decodeWord 0x0A800000 = .b .eq 0x800000 ∧ decodeWord 0xEBFFFFFE = .bl .al 0xFFFFFE ∧
    decodeWord 0xE12FFF1E = .bx .al 14 ∧ decodeWord 0xE1A00010 = .bx .al 0 ∧ decodeWord 0xE1A00211 = .bx .al 1 := by
  decide

/-- Transfers (rules R68, R70; V38, V39). -/
theorem test_decode_transfers :
    decodeWord 0xE5910004 = .ldrImm .al ⟨true, true, false⟩ 1 0 4 ∧
    decodeWord 0xE4810FFF = .strImm .al ⟨false, true, false⟩ 1 0 0xFFF ∧
    decodeWord 0xE5510002 = .ldrbImm .al ⟨true, false, false⟩ 1 0 2 ∧
    decodeWord 0xE5E10001 = .strbImm .al ⟨true, true, true⟩ 1 0 1 ∧
    decodeWord 0xE7910102 = .ldrReg .al ⟨true, true, false⟩ 1 0 ⟨2, .lsl, 2⟩ ∧
    decodeWord 0xE6010022 = .strReg .al ⟨false, false, false⟩ 1 0 ⟨2, .lsr, 0⟩ ∧
    decodeWord 0xE7510002 = .ldrbReg .al ⟨true, false, false⟩ 1 0 ⟨2, .lsl, 0⟩ ∧
    decodeWord 0xE7E10062 = .strbReg .al ⟨true, true, true⟩ 1 0 ⟨2, .ror, 0⟩ ∧
    decodeWord 0xE8BD4030 = .ldm .al ⟨false, true, false, true⟩ 13 0x4030 ∧
    decodeWord 0xE92D4030 = .stm .al ⟨true, false, false, true⟩ 13 0x4030 ∧
    decodeWord 0xE8D00006 = .ldm .al ⟨false, true, true, false⟩ 0 6 := by decide

/-- The error rows (V16 to V25). -/
theorem test_decode_errors :
    decodeWord 0xF0000000 = .errReservedCondition 0xF0000000 ∧
    decodeWord 0xFFFFFFFF = .errReservedCondition 0xFFFFFFFF ∧ decodeWord 0xE1D100B0 = .errHalfword01 0xE1D100B0 ∧
    decodeWord 0xE19100D0 = .errHalfword10 0xE19100D0 ∧ decodeWord 0xE19100F0 = .errHalfword11 0xE19100F0 ∧
    decodeWord 0xE7F000F0 = .errUndefined 0xE7F000F0 ∧ decodeWord 0xE6000010 = .errUndefined 0xE6000010 ∧
    decodeWord 0xEF000000 = .errCoprocessorOrSwi 0xEF000000 ∧ decodeWord 0xEC000000 = .errCoprocessorOrSwi 0xEC000000 := by
  decide

/-- The table's words, an error row's among them, decode through the host's name too. -/
theorem test_decode_table_word :
    decodeTableWord 32 0xE0833002 = some (.addReg .al false 3 3 ⟨2, .lsl, 0⟩) ∧
    decodeTableWord 32 0xF0000000 = some (.errReservedCondition 0xF0000000) := by decide

/-! ## Conditions (`95_test_vectors.md` section 2.2) -/

/-- The conditions that hold, EQ first, as one bit each. -/
def truths (f : BitVec 4) : List Bool :=
  [Cond.eq, .ne, .cs, .cc, .mi, .pl, .vs, .vc, .hi, .ls, .ge, .lt, .gt, .le, .al].map fun c => condHolds c (nzcv f)

/-- The bits of a row of the table, leftmost first. -/
def row (b : BitVec 15) : List Bool := (List.range 15).map fun i => b.getLsbD (14 - i)

theorem test_condition_table :
    truths 0b0000 = row 0b010101010110101 ∧ truths 0b0001 = row 0b010101100101011 ∧
    truths 0b0010 = row 0b011001011010101 ∧ truths 0b0011 = row 0b011001101001011 ∧
    truths 0b0100 = row 0b100101010110011 ∧ truths 0b0101 = row 0b100101100101011 ∧
    truths 0b0110 = row 0b101001010110011 ∧ truths 0b0111 = row 0b101001100101011 ∧
    truths 0b1000 = row 0b010110010101011 ∧ truths 0b1001 = row 0b010110100110101 ∧
    truths 0b1010 = row 0b011010011001011 ∧ truths 0b1011 = row 0b011010101010101 ∧
    truths 0b1100 = row 0b100110010101011 ∧ truths 0b1101 = row 0b100110100110011 ∧
    truths 0b1110 = row 0b101010010101011 ∧ truths 0b1111 = row 0b101010100110011 := by decide

/-- V29, V40, V41, V42. -/
theorem test_condition_decides :
    regs 0x03A00001 (start [(0, 0x77)] 0b0000) [0] = some ([0x77], nzcv 0b0000) ∧
    regs 0x03A00001 (start [(0, 0x77)] 0b0100) [0] = some ([1], nzcv 0b0100) ∧
    nextOf (run 0x11A0F00E (start [] 0b0100)) = some { start [] 0b0100 with report := .skipped } ∧
    faultOf (run 0x0F000000 (start [] 0b0000)) = some (.decodeError ⟨0x0F000000, .coprocessorOrSwi⟩) := by decide +kernel

/-! ## Data processing (section 2.3) -/

/-- V43 to V45, V73, V83. -/
theorem test_add :
    regs 0xE0833002 (start [(3, 10), (2, 32)] 0b1111) [3] = some ([0x2A], nzcv 0b1111) ∧
    regs 0xE0910002 (start [(1, 0xFFFFFFFF), (2, 1)] 0) [0] = some ([0], nzcv 0b0110) ∧
    regs 0xE0910002 (start [(1, 0x7FFFFFFF), (2, 1)] 0) [0] = some ([0x80000000], nzcv 0b1001) ∧
    regs 0xE0811101 (start [(1, 7)] 0) [1] = some ([0x23], nzcv 0) ∧
    regs 0xE28F0004 (startAt 0x08000100 [] 0) [0] = some ([0x0800010C], nzcv 0) := by decide +kernel

/-- V46 to V49. -/
theorem test_subtract :
    regs 0xE0510002 (start [(1, 5), (2, 5)] 0) [0] = some ([0], nzcv 0b0110) ∧
    regs 0xE0510002 (start [(1, 0x80000000), (2, 1)] 0) [0] = some ([0x7FFFFFFF], nzcv 0b0011) ∧
    regs 0xE0510002 (start [(2, 1)] 0) [0] = some ([0xFFFFFFFF], nzcv 0b1000) ∧
    regs 0xE2710000 (start [(1, 0x80000000)] 0) [0] = some ([0x80000000], nzcv 0b1001) := by decide +kernel

/-- V50 to V53. -/
theorem test_carry_in :
    regs 0xE0B10002 (start [(1, 0xFFFFFFFF)] 0b0010) [0] = some ([0], nzcv 0b0110) ∧
    regs 0xE0D10002 (start [(1, 5), (2, 5)] 0) [0] = some ([0xFFFFFFFF], nzcv 0b1000) ∧
    regs 0xE0D10002 (start [(1, 5), (2, 5)] 0b0010) [0] = some ([0], nzcv 0b0110) ∧
    regs 0xE0F10002 (start [(1, 3), (2, 5)] 0) [0] = some ([1], nzcv 0b0010) := by decide +kernel

/-- V54 to V58. -/
theorem test_compare :
    regs 0xE1510002 (start [(0, 0x77), (1, 9), (2, 9)] 0) [0] = some ([0x77], nzcv 0b0110) ∧
    regs 0xE1510002 (start [(1, 1), (2, 2)] 0) [0] = some ([0], nzcv 0b1000) ∧
    regs 0xE1510002 (start [(1, 0x80000000), (2, 1)] 0) [0] = some ([0], nzcv 0b0011) ∧
    regs 0xE3710001 (start [(1, 0xFFFFFFFF)] 0) [0] = some ([0], nzcv 0b0110) ∧
    regs 0xE151F002 (start [(1, 9), (2, 9)] 0) [15] = some ([0x08000008], nzcv 0b0110) := by decide +kernel

/-- V59 to V66. -/
theorem test_move_shifted :
    regs 0xE1B00001 (start [] 0b0010) [0] = some ([0], nzcv 0b0110) ∧
    regs 0xE1B00081 (start [(1, 0xC0000000)] 0) [0] = some ([0x80000000], nzcv 0b1010) ∧
    regs 0xE1B00F81 (start [(1, 3)] 0) [0] = some ([0x80000000], nzcv 0b1010) ∧
    regs 0xE1B000A1 (start [(1, 3)] 0) [0] = some ([1], nzcv 0b0010) ∧
    regs 0xE1B00021 (start [(1, 0x80000001)] 0) [0] = some ([0], nzcv 0b0110) ∧
    regs 0xE1B000C1 (start [(1, 0x80000001)] 0) [0] = some ([0xC0000000], nzcv 0b1010) ∧
    regs 0xE1B00041 (start [(1, 0x80000000)] 0) [0] = some ([0xFFFFFFFF], nzcv 0b1010) ∧
    regs 0xE1B00041 (start [(1, 0x7FFFFFFF)] 0b0010) [0] = some ([0], nzcv 0b0100) := by decide +kernel

/-- V67 to V72, V84. -/
theorem test_move_rotated :
    regs 0xE1B00261 (start [(1, 0xF)] 0) [0] = some ([0xF0000000], nzcv 0b1010) ∧
    regs 0xE1B00FE1 (start [(1, 0x40000000)] 0) [0] = some ([0x80000000], nzcv 0b1010) ∧
    regs 0xE1B00061 (start [(1, 2)] 0b0010) [0] = some ([0x80000001], nzcv 0b1000) ∧
    regs 0xE1B00061 (start [(1, 3)] 0) [0] = some ([1], nzcv 0b0010) ∧
    regs 0xE3B004FF (start [] 0b0001) [0] = some ([0xFF000000], nzcv 0b1011) ∧
    regs 0xE3B000FF (start [] 0b0010) [0] = some ([0xFF], nzcv 0b0010) ∧
    regs 0xE1A0000F (startAt 0x08000100 [] 0) [0] = some ([0x08000108], nzcv 0) := by decide +kernel

/-- V74 to V78. -/
theorem test_logical :
    regs 0xE0110002 (start [(1, 0xF0F0F0F0), (2, 0x0F0F0F0F)] 0b0011) [0] = some ([0], nzcv 0b0111) ∧
    regs 0xE0310001 (start [(1, 0x12345678)] 0b0010) [0] = some ([0], nzcv 0b0110) ∧
    regs 0xE1910002 (start [(1, 0x80000000), (2, 1)] 0) [0] = some ([0x80000001], nzcv 0b1000) ∧
    regs 0xE3D100FF (start [(1, 0xFF)] 0) [0] = some ([0], nzcv 0b0100) ∧
    regs 0xE3F00000 (start [] 0) [0] = some ([0xFFFFFFFF], nzcv 0b1000) := by decide +kernel

/-- V79 to V82. -/
theorem test_test_opcodes :
    regs 0xE3110001 (start [(0, 0x77), (1, 2)] 0b0011) [0] = some ([0x77], nzcv 0b0111) ∧
    regs 0xE1310002 (start [(1, 0x55), (2, 0x55)] 0) [0] = some ([0], nzcv 0b0100) ∧
    nextOf (run 0xE10F0000 (start [(0, 0x77)] 0b1111)) = some (start [(0, 0x77)] 0b1111).finish ∧
    nextOf (run 0xE129F000 (start [] 0)) = some (start [] 0).finish := by decide +kernel

/-! ## Multiply (section 2.4) -/

/-- V87, V88, V92 to V94. -/
theorem test_multiply :
    regs 0xE0000291 (start [(1, 7), (2, 6)] 0b1111) [0] = some ([0x2A], nzcv 0b1111) ∧
    regs 0xE0400291 (start [(1, 7), (2, 6)] 0) [0] = some ([0x2A], nzcv 0) ∧
    regs 0xE0203291 (start [(1, 7), (2, 6), (3, 100)] 0) [0] = some ([0x8E], nzcv 0) ∧
    regs 0xE0203291 (start [(1, 0xFFFFFFFF), (2, 2), (3, 3)] 0) [0] = some ([1], nzcv 0) ∧
    regs 0xE000F291 (start [(1, 3), (2, 3)] 0) [0] = some ([9], nzcv 0) := by decide +kernel

/-- V89 to V91, V97, V102: N and Z of the result; each takes one draw. -/
theorem test_multiply_flags :
    drawn 0xE0100291 (start [(1, 0xFFFFFFFF), (2, 0xFFFFFFFF)] 0) [0] = some ([1], [false, false, true]) ∧
    drawn 0xE0100291 (start [(2, 5)] 0) [0] = some ([0], [false, true, true]) ∧
    drawn 0xE0100291 (start [(1, 0x00010000), (2, 0x8000)] 0) [0] = some ([0x80000000], [true, false, true]) ∧
    drawn 0xE0910392 (start [(3, 5)] 0) [0, 1] = some ([0, 0], [false, true, true]) ∧
    drawn 0xE0D10392 (start [(2, 0xFFFFFFFF), (3, 1)] 0) [0, 1] =
      some ([0xFFFFFFFF, 0xFFFFFFFF], [true, false, true]) := by decide +kernel

/-- V95, V96, V98 to V101, V103. -/
theorem test_multiply_long :
    regs 0xE0810392 (start [(2, 0xFFFFFFFF), (3, 2)] 0) [0, 1] = some ([0xFFFFFFFE, 1], nzcv 0) ∧
    regs 0xE0810392 (start [(2, 0xFFFFFFFF), (3, 0xFFFFFFFF)] 0) [0, 1] = some ([1, 0xFFFFFFFE], nzcv 0) ∧
    regs 0xE0A10392 (start [(0, 0xFFFFFFFF), (1, 1), (2, 0xFFFFFFFF), (3, 2)] 0) [0, 1] =
      some ([0xFFFFFFFD, 3], nzcv 0) ∧
    regs 0xE0A10392 (start [(0, 0xFFFFFFFF), (1, 0xFFFFFFFF), (2, 1), (3, 1)] 0) [0, 1] = some ([0, 0], nzcv 0) ∧
    regs 0xE0C10392 (start [(2, 0xFFFFFFFF), (3, 2)] 0) [0, 1] = some ([0xFFFFFFFE, 0xFFFFFFFF], nzcv 0) ∧
    regs 0xE0C10392 (start [(2, 0x80000000), (3, 0x80000000)] 0) [0, 1] = some ([0, 0x40000000], nzcv 0) ∧
    regs 0xE0E10392 (start [(0, 1), (2, 0xFFFFFFFF), (3, 2)] 0) [0, 1] =
      some ([0xFFFFFFFF, 0xFFFFFFFF], nzcv 0) := by decide +kernel

/-! ## Swap (section 2.5) -/

/-- The start of the swap vectors. -/
def swapStart (l : List (Reg × Word)) : State := ram 0x03000000 [0x11223344] (start l 0)

/-- V114, V116 to V119. -/
theorem test_swap :
    regsMem 0xE1020091 (swapStart [(1, 0xAABBCCDD), (2, 0x03000000)]) [0] [0x03000000] =
      some ([0x11223344], [0xAABBCCDD]) ∧
    regsMem 0xE1020090 (swapStart [(0, 0xDEADBEEF), (2, 0x03000000)]) [0] [0x03000000] =
      some ([0x11223344], [0xDEADBEEF]) ∧
    regsMem 0xE1020091 (swapStart [(1, 0xAABBCCDD), (2, 0x10000000)]) [0] [0x10000000, 0x03000000] =
      some ([0], [0, 0x11223344]) ∧
    regsMem 0xE1020091 (swapStart [(1, 0xAABBCCDD), (2, 0x03000001)]) [0] [0x03000000, 0x03000004] =
      some ([0x00112233], [0xBBCCDD44, 0xAA]) ∧
    regsMem 0xE1B20091 (swapStart [(1, 0xAABBCCDD), (2, 0x03000000)]) [0] [0x03000000] =
      some ([0x11223344], [0xAABBCCDD]) := by decide +kernel

/-- V115. -/
theorem test_swap_byte :
    regsMem 0xE1420091 (swapStart [(1, 0xAABBCCDD), (2, 0x03000000)]) [0] [0x03000000] =
      some ([0x44], [0x112233DD]) := by decide +kernel

/-! ## Single data transfer (section 2.6) -/

/-- The start of the load vectors. -/
def loadStart (l : List (Reg × Word)) : State :=
  ram 0x03000000 [0x11223344, 0xCAFEBABE, 0x80FF7F01, 0xDEADBEEF] (start ((1, 0x03000000) :: l) 0)

/-- V126 to V130, V136, V137, V139. -/
theorem test_load_immediate :
    regsMem 0xE5910004 (loadStart []) [0, 1] [] = some ([0xCAFEBABE, 0x03000000], []) ∧
    regsMem 0xE5110004 (loadStart [(1, 0x03000008)]) [0] [] = some ([0xCAFEBABE], []) ∧
    regsMem 0xE5B10004 (loadStart []) [0, 1] [] = some ([0xCAFEBABE, 0x03000004], []) ∧
    regsMem 0xE4910004 (loadStart []) [0, 1] [] = some ([0x11223344, 0x03000004], []) ∧
    regsMem 0xE4B10004 (loadStart []) [0, 1] [] = some ([0x11223344, 0x03000004], []) ∧
    regsMem 0xE5910001 (loadStart []) [0] [] = some ([0xBE112233], []) ∧
    regsMem 0xE5910000 (loadStart [(1, 0x10000000)]) [0] [] = some ([0], []) ∧
    regsMem 0xE5911004 (loadStart []) [1] [] = some ([0xCAFEBABE], []) := by decide +kernel

/-- V131 to V135, V138. -/
theorem test_load_register :
    regsMem 0xE7910102 (loadStart [(2, 3)]) [0] [] = some ([0xDEADBEEF], []) ∧
    regsMem 0xE7110002 (loadStart [(1, 0x03000008), (2, 4)]) [0] [] = some ([0xCAFEBABE], []) ∧
    regsMem 0xE7910022 (loadStart [(2, 0xFFFFFFFF)]) [0] [] = some ([0x11223344], []) ∧
    regsMem 0xE7910062 (loadStart [(2, 8)]) [0] [] = some ([0xCAFEBABE], []) ∧
    regsMem 0xE6910002 (loadStart [(2, 8)]) [0, 1] [] = some ([0x11223344, 0x03000008], []) ∧
    regsMem 0xE59F0004 (loadStart [(15, 0x03000008)]) [0] [] = some ([0xDEADBEEF], []) := by decide +kernel

/-- V141 to V143. -/
theorem test_load_byte :
    regsMem 0xE5D10008 (loadStart []) [0] [] = some ([1], []) ∧
    regsMem 0xE5D1000B (loadStart []) [0] [] = some ([0x80], []) ∧
    regsMem 0xE7510002 (ram 0x03000000 [0x80] (start [(1, 0x03000002), (2, 2)] 0)) [0] [] = some ([0x80], []) := by
  decide +kernel

/-- V144 to V148. -/
theorem test_store :
    regsMem 0xE4810004 (start [(0, 0x11223344), (1, 0x03000000)] 0) [1] [0x03000000] =
      some ([0x03000004], [0x11223344]) ∧
    regsMem 0xE5210004 (start [(0, 0xA5A5A5A5), (1, 0x03000008)] 0) [1] [0x03000004] =
      some ([0x03000004], [0xA5A5A5A5]) ∧
    regsMem 0xE5810002 (start [(0, 0xAABBCCDD), (1, 0x03000000)] 0) [1] [0x03000000, 0x03000004] =
      some ([0x03000000], [0xCCDD0000, 0xAABB]) ∧
    regsMem 0xE581F000 (startAt 0x08000100 [(1, 0x03000000)] 0) [] [0x03000000] = some ([], [0x08000108]) ∧
    nextOf (run 0xE5810000 (start [(0, 5), (1, 0x10000000)] 0)) = some (start [(0, 5), (1, 0x10000000)] 0).finish := by
  decide +kernel

/-- V149, V150, and the register form of a byte store (rules R181, R187). -/
theorem test_store_byte :
    regsMem 0xE5E10001 (start [(0, 0x123456AB), (1, 0x03000000)] 0) [1] [0x03000000] =
      some ([0x03000001], [0x0000AB00]) ∧
    regsMem 0xE5C10003 (ram 0x03000000 [0x11223344] (start [(0, 0x1FF), (1, 0x03000000)] 0)) [] [0x03000000] =
      some ([], [0xFF223344]) ∧
    regsMem 0xE7C10082 (start [(0, 0x77), (1, 0x03000000), (2, 1)] 0) [1] [0x03000000] =
      some ([0x03000000], [0x00770000]) := by decide +kernel

/-! ## Block data transfer (section 2.7) -/

/-- The start of the block load vectors. -/
def blockStartState (l : List (Reg × Word)) : State :=
  ram 0x03000000 [1, 2, 3, 4, 5, 6, 7, 8] (start ((0, 0x03000000) :: l) 0)

/-- V158, V160 to V164, V170. -/
theorem test_load_multiple :
    regsMem 0xE8BD4030 (blockStartState [(13, 0x03000000)]) [4, 5, 14, 13] [] = some ([1, 2, 3, 0x0300000C], []) ∧
    regsMem 0xE8900006 (blockStartState []) [1, 2, 0] [] = some ([1, 2, 0x03000000], []) ∧
    regsMem 0xE9900006 (blockStartState []) [1, 2] [] = some ([2, 3], []) ∧
    regsMem 0xE8100006 (blockStartState [(0, 0x03000008)]) [1, 2] [] = some ([2, 3], []) ∧
    regsMem 0xE9100006 (blockStartState [(0, 0x03000008)]) [1, 2] [] = some ([1, 2], []) ∧
    regsMem 0xE9300006 (blockStartState [(0, 0x03000008)]) [1, 2, 0] [] = some ([1, 2, 0x03000000], []) ∧
    regsMem 0xE8900003 (blockStartState []) [0, 1] [] = some ([1, 2], []) := by decide +kernel

/-- The start of the block store vectors. -/
def blockStoreStart (r0 : Word) : State := startAt 0x08000100 [(0, r0), (1, 0xAA), (2, 0xBB)] 0

/-- V159, V165 to V169, V171. -/
theorem test_store_multiple :
    regsMem 0xE92D4030 (start [(13, 0x03000010), (4, 1), (5, 2), (14, 3)] 0) [13] [0x03000004, 0x03000008, 0x0300000C] =
      some ([0x03000004], [1, 2, 3]) ∧
    regsMem 0xE8800006 (blockStoreStart 0x03000000) [0] [0x03000000, 0x03000004] =
      some ([0x03000000], [0xAA, 0xBB]) ∧
    regsMem 0xE9A00006 (blockStoreStart 0x03000000) [0] [0x03000004, 0x03000008] =
      some ([0x03000008], [0xAA, 0xBB]) ∧
    regsMem 0xE8000006 (blockStoreStart 0x03000008) [0] [0x03000004, 0x03000008] =
      some ([0x03000008], [0xAA, 0xBB]) ∧
    regsMem 0xE8200006 (blockStoreStart 0x03000008) [0] [0x03000004, 0x03000008] =
      some ([0x03000000], [0xAA, 0xBB]) ∧
    regsMem 0xE8800003 (blockStoreStart 0x03000000) [0] [0x03000000, 0x03000004] =
      some ([0x03000000], [0x03000000, 0xAA]) ∧
    regsMem 0xE8808002 (blockStoreStart 0x03000000) [0] [0x03000000, 0x03000004] =
      some ([0x03000000], [0xAA, 0x08000108]) := by decide +kernel

/-! ## Branch (section 2.8) -/

/-- V30, V181 to V185, V187. -/
theorem test_branch :
    goes 0xEAFFFFFE (startAt 0x08000040 [] 0) = some (0x08000040, .arm, true) ∧
    goes 0xEAFFFFFF (startAt 0x08000040 [] 0) = some (0x08000044, .arm, true) ∧
    goes 0xEA000000 (startAt 0x08000040 [] 0) = some (0x08000048, .arm, true) ∧
    goes 0xEA7FFFFF (start [] 0) = some (0x0A000004, .arm, true) ∧
    goes 0xEA800000 (start [] 0) = some (0x06000008, .arm, true) ∧
    goes 0xEA000000 (startAt 0xFFFFFFFC [] 0) = some (4, .arm, true) ∧
    goes 0x0A000002 (startAt 0x08000010 [] 0b0100) = some (0x08000020, .arm, true) ∧
    goes 0x0A000002 (startAt 0x08000010 [] 0) = some (0x08000018, .arm, false) := by decide +kernel

/-- V3, V31, V186. -/
theorem test_branch_with_link :
    regs 0xEB000001 (startAt 0x08000010 [] 0) [14, 15] = some ([0x08000014, 0x0800001C], nzcv 0) ∧
    regs 0xEBFFFFFC (startAt 0x08000010 [] 0) [14, 15] = some ([0x08000014, 0x08000008], nzcv 0) ∧
    regs 0x1B000001 (start [(14, 0x55)] 0b0100) [14, 15] = some ([0x55, 0x08000008], nzcv 0b0100) := by decide +kernel

/-- V189 to V194. -/
theorem test_branch_exchange :
    goes 0xE12FFF1E (start [(14, 0x08000101)] 0) = some (0x08000100, .thumb, true) ∧
    goes 0xE12FFF1E (start [(14, 0x08000100)] 0) = some (0x08000100, .arm, true) ∧
    goes 0xE12FFF10 (start [(0, 0x08000102)] 0) = some (0x08000102, .arm, true) ∧
    goes 0xE12FFF1F (startAt 0x08000040 [] 0) = some (0x08000048, .arm, true) ∧
    goes 0xE1A00211 (start [(1, 0x08000200), (0, 0x77)] 0) = some (0x08000200, .arm, true) ∧
    goes 0xE1A00211 (start [(1, 3)] 0) = some (2, .thumb, true) := by decide +kernel

/-! ## Steps and error rows -/

/-- A word placed for execution: the next step runs it, with the PC update of rule R92. -/
theorem test_step_runs_the_placed_word :
    nextOf (step (State.reset.withFetchWord 32 0xE3A00005)) =
      some { State.reset with
        regs := (State.reset.regs.set 0 5).set 15 4, fetchLatch := some 0, decodeLatch := some 0,
        report := .executed .continued } := by decide +kernel

/-- The step of a taken branch flushes both latches and keeps the target (rule R96). -/
theorem test_step_flushes :
    nextOf (step (State.reset.withFetchWord 32 0xEA000032)) =
      some { State.reset with regs := State.reset.regs.set 15 200, report := .executed .redirected } := by
  decide +kernel

/-- P9: from reset with nothing loaded the first call is a bubble that fetches `ANDEQ R0, R0, R0`. -/
theorem test_first_step_from_reset :
    nextOf (step State.reset) =
      some { State.reset with regs := State.reset.regs.set 15 4, fetchLatch := some 0 } := by decide +kernel

/-- V16, V18 to V21, V23 executed: each reports its word and reason. -/
theorem test_error_rows :
    faultOf (run 0xF0000000 State.reset) = some (.decodeError ⟨0xF0000000, .reservedCondition⟩) ∧
    faultOf (run 0xE1D100B0 State.reset) = some (.decodeError ⟨0xE1D100B0, .halfwordTransfer⟩) ∧
    faultOf (run 0xE19100D0 State.reset) = some (.decodeError ⟨0xE19100D0, .halfwordTransfer⟩) ∧
    faultOf (run 0xE19100F0 State.reset) = some (.decodeError ⟨0xE19100F0, .halfwordTransfer⟩) ∧
    faultOf (run 0xE7F000F0 State.reset) = some (.decodeError ⟨0xE7F000F0, .undefinedEncoding⟩) ∧
    faultOf (run 0xEF000000 State.reset) = some (.decodeError ⟨0xEF000000, .coprocessorOrSwi⟩) := by decide +kernel

/-! ## Witnesses: for each obligation with hypotheses, a case that meets them -/

/-- Parameters with two small images and writable images. -/
def someParams : Config.Params :=
  { Config.defaultParams with firmwareImage := [0, 7], romImage := [1, 0, 3], roRegionsWritable := true }

theorem witness_constructed_memory :
    paramsWf someParams = true ∧ (constructState someParams).mem.readByte 1 = 7 ∧
    (constructState someParams).mem.readByte 0x08000002 = 3 ∧ (constructState someParams).mem.readByte 0x08000003 = 0 := by
  decide +kernel

theorem witness_constructed_state_is_ok : paramsWf Config.defaultParams = true ∧ paramsWf someParams = true := by
  decide +kernel

/-- The last byte of the fast RAM is writable, the next address is not. -/
theorem witness_byte_write :
    State.reset.mem.wf = true ∧ State.reset.mem.map.writable (0x03007FFF : Word).toNat = true ∧
    State.reset.mem.map.writable (0x03008000 : Word).toNat = false := by decide +kernel

/-- Addresses on both sides of each region's ends (V125 for the images). -/
theorem witness_unmapped :
    (constructState someParams).mem.map.backed 1 = true ∧ (constructState someParams).mem.map.backed 2 = false ∧
    (constructState someParams).mem.map.backed 0x08000002 = true ∧
    (constructState someParams).mem.map.backed 0x08000003 = false ∧
    State.reset.mem.map.backed 0x02000000 = true ∧ State.reset.mem.map.backed 0x0203FFFF = true ∧
    State.reset.mem.map.backed 0x02040000 = false ∧ State.reset.mem.map.backed 0x01FFFFFF = false ∧
    State.reset.mem.map.backed 0x02FFFFFF = false ∧ State.reset.mem.map.backed 0x03007FFF = true ∧
    State.reset.mem.map.backed 0x03008000 = false := by decide +kernel

/-- The last four bytes of the fast RAM are all writable; of the four from 0x03007FFE the first two are. -/
theorem witness_stored_word :
    State.reset.mem.wf = true ∧
    (∀ k, k < 4 → State.reset.mem.map.writable ((0x03007FFC : Word) + BitVec.ofNat 32 k).toNat = true) ∧
    (∀ k, k < 4 → State.reset.mem.map.writable ((0x03007FFE : Word) + BitVec.ofNat 32 k).toNat = decide (k < 2)) := by
  decide +kernel

/-- Words read where nothing can be stored: in an image, over its end, over the end of a RAM, at the top of the address
space, and unmapped (rules R42, R50). -/
theorem test_read_word_anywhere :
    (constructState { someParams with romImage := [1, 2, 3, 4, 5], roRegionsWritable := false }).mem.readWord
      0x08000001 = 0x05040302 ∧
    (constructState someParams).mem.readWord 0x08000002 = 3 ∧
    (ram 0x03007FFC [0x11223344] State.reset).mem.readWord 0x03007FFE = 0x1122 ∧
    (constructState someParams).mem.readWord 0xFFFFFFFF = 0x00070000 ∧
    (constructState someParams).mem.readWord 0x10000000 = 0 := by decide +kernel

/-- Rotate fields 0, 1 and 15: the C flag, then bit 31 of the value, set and clear (V6, V71, V72). -/
theorem witness_immediate :
    rotImm ⟨0, 0xFF⟩ true = ⟨0xFF, true⟩ ∧ rotImm ⟨0, 0xFF⟩ false = ⟨0xFF, false⟩ ∧
    rotImm ⟨1, 0xFF⟩ false = ⟨0xC000003F, true⟩ ∧ rotImm ⟨15, 0xFF⟩ true = ⟨0x3FC, false⟩ ∧
    rotImm ⟨4, 0xFF⟩ false = ⟨0xFF000000, true⟩ := by decide

/-- Two orders of writing the same two bytes. -/
def writtenUp : Memory := (State.reset.mem.writeByte 0x03000000 1).writeByte 0x03000001 2
def writtenDown : Memory := (State.reset.mem.writeByte 0x03000001 2).writeByte 0x03000000 1

theorem written_alike : writtenUp = writtenDown := by decide +kernel

theorem witness_canonical_memories :
    writtenUp.wf = true ∧ writtenDown.wf = true ∧ writtenUp.map = writtenDown.map ∧
    ∀ a, writtenUp.readByte a = writtenDown.readByte a :=
  ⟨by decide +kernel, by decide +kernel, by decide +kernel, fun _ => by rw [written_alike]⟩

theorem witness_decode_of_encode :
    (Instr.addReg .al false 3 3 ⟨2, .ror, 31⟩).wellFormed = true ∧ (Instr.bx .le 14).wellFormed = true ∧
    (Instr.errHalfword01 0xE1D100B0).wellFormed = true := by decide

theorem witness_every_word_in_its_row :
    hasCondition 0xE0833002 = true ∧ (Instr.addReg .eq true 0 0 ⟨0, .lsl, 0⟩).row ≠ (0xF0000000, 0xF0000000) ∧
    inRow (Instr.addReg .eq true 0 0 ⟨0, .lsl, 0⟩).row.1 (Instr.addReg .eq true 0 0 ⟨0, .lsl, 0⟩).row.2 0xE0833002 =
      true := by decide

theorem witness_condition_field : hasCondition 0xEFFFFFFF = true ∧ hasCondition 0x00000000 = true := by decide

/-- Both sides of both equivalences are met, and missed, by words with a condition. -/
theorem witness_halfword_and_coprocessor :
    hasCondition 0xE1D100B0 = true ∧ decode 0xE1D100B0 = .error ⟨0xE1D100B0, .halfwordTransfer⟩ ∧
    hasCondition 0xEC000000 = true ∧ decode 0xEC000000 = .error ⟨0xEC000000, .coprocessorOrSwi⟩ ∧
    hasCondition 0xE1020090 = true ∧ decode 0xE1020090 = .ok (.swp .al 2 0 0) := by decide

theorem witness_reserved_and_undefined :
    decode 0xFFFFFFFF = .error ⟨0xFFFFFFFF, .reservedCondition⟩ ∧
    decode 0xE6000010 = .error ⟨0xE6000010, .undefinedEncoding⟩ ∧
    decode 0xE6000000 = .ok (.strReg .al ⟨false, false, false⟩ 0 0 ⟨0, .lsl, 0⟩) := by decide

/-- The least and the greatest word count. -/
theorem witness_branch_offset :
    (0x800000 : BitVec 24).toInt = -(2 ^ 23) ∧ (0x7FFFFF : BitVec 24).toInt = 2 ^ 23 - 1 ∧
    (branchOffset 0x800000).toInt = -(2 ^ 25) ∧ (branchOffset 0x7FFFFF).toInt = 2 ^ 25 - 4 := by decide

/-- Amounts 1 and 31 of each shift (V60, V61, V62, V68). -/
theorem witness_shifter :
    shift .lsl 1 0xC0000000 false = ⟨0x80000000, true⟩ ∧ shift .lsl 31 3 false = ⟨0x80000000, true⟩ ∧
    shift .lsr 1 3 false = ⟨1, true⟩ ∧ shift .asr 31 0x80000000 true = ⟨0xFFFFFFFF, false⟩ ∧
    shift .ror 31 0x40000000 false = ⟨0x80000000, true⟩ := by decide

/-- The hypotheses of the statements of data processing that write a register: a condition that holds and Rd = 14. -/
theorem witness_data_processing_complete :
    condHolds .gt (start [] 0b1001).flags = true ∧ (14 : Reg) ≠ 15 ∧ condHolds .al (start [] 0).flags = true := by
  decide +kernel

theorem witness_data_processing_to_r15 :
    opMov ∈ writing ∧ condHolds .al (start [] 0).flags = true ∧ turnedAway 0xE1A0F00E (start [] 0) = some .writesPc ∧
    turnedAway 0xE1B0F00E (start [] 0) = some .writesPc := by
  refine ⟨by simp [writing], ?_⟩
  decide +kernel

theorem witness_multiply_complete :
    condHolds .al (start [] 0).flags = true ∧
    ((0 : Reg) ≠ 15 ∧ (1 : Reg) ≠ 15 ∧ (2 : Reg) ≠ 15 ∧ (0 : Reg) ≠ 1) ∧ (3 : Reg) ≠ 15 := by decide +kernel

theorem witness_multiply_long_complete :
    condHolds .al (start [] 0).flags = true ∧
    ((1 : Reg) ≠ 15 ∧ (0 : Reg) ≠ 15 ∧ (2 : Reg) ≠ 15 ∧ (3 : Reg) ≠ 15 ∧ (1 : Reg) ≠ 0 ∧ (1 : Reg) ≠ 2 ∧
      (0 : Reg) ≠ 2) := by decide +kernel

/-- V104, V106 to V113. -/
theorem witness_multiply_refusals :
    turnedAway 0xE0000290 (start [] 0) = some .multiplyOperandRestriction ∧
    turnedAway 0xE00F0291 (start [] 0) = some .writesPc ∧ turnedAway 0xE000029F (start [] 0) = some .pcOperand ∧
    turnedAway 0xE0000F91 (start [] 0) = some .pcOperand ∧ turnedAway 0xE020F291 (start [] 0) = some .pcOperand ∧
    turnedAway 0xE0200290 (start [] 0) = some .multiplyOperandRestriction ∧
    turnedAway 0xE0800392 (start [] 0) = some .multiplyOperandRestriction ∧
    turnedAway 0xE0812392 (start [] 0) = some .multiplyOperandRestriction ∧
    turnedAway 0xE0821392 (start [] 0) = some .multiplyOperandRestriction ∧
    turnedAway 0xE08F0392 (start [] 0) = some .writesPc ∧ turnedAway 0xE0810F92 (start [] 0) = some .pcOperand := by
  decide +kernel

theorem witness_swap_complete :
    condHolds .al (swapStart []).flags = true ∧
    ((0 : Reg) ≠ 15 ∧ (2 : Reg) ≠ 15 ∧ (1 : Reg) ≠ 15 ∧ (2 : Reg) ≠ 0 ∧ (2 : Reg) ≠ 1) := by decide +kernel

/-- V120 to V124. -/
theorem witness_swap_refusals :
    turnedAway 0xE1022091 (swapStart []) = some .swapOperandRestriction ∧
    turnedAway 0xE1020092 (swapStart []) = some .swapOperandRestriction ∧
    turnedAway 0xE102F091 (swapStart []) = some .writesPc ∧ turnedAway 0xE10F0091 (swapStart []) = some .pcOperand ∧
    turnedAway 0xE102009F (swapStart []) = some .pcOperand := by decide +kernel

/-- With write-back (V128: R0, [R1, #4]!) and without it, where the base may be Rd (V139). -/
theorem witness_single_loads :
    condHolds .al (loadStart []).flags = true ∧ ((0 : Reg) ≠ 15 ∧ (Offset.imm 4).rm ≠ some 15) ∧
    ((1 : Reg) ≠ 15 ∧ (1 : Reg) ≠ 0 ∧ (Offset.imm 4).rm ≠ some 1) ∧
    ¬ ((⟨true, true, false⟩ : Indexing).p = false ∨ (⟨true, true, false⟩ : Indexing).w = true) := by decide +kernel

/-- The same for a register offset, and for Rd = 15 of a store (V147). -/
theorem witness_single_stores :
    condHolds .al (start [] 0).flags = true ∧ (Offset.reg ⟨2, .lsl, 1⟩).rm ≠ some 15 ∧
    ((1 : Reg) ≠ 15 ∧ (1 : Reg) ≠ 15 ∧ (Offset.reg ⟨2, .lsl, 1⟩).rm ≠ some 1) ∧
    runs 0xE581F000 (start [(1, 0x03000000)] 0) = true ∧ runs 0xE7A10082 (start [(1, 0x03000000)] 0) = true := by
  decide +kernel

/-- V151 to V157, and the same forms of a store. -/
theorem witness_single_transfer_refusals :
    turnedAway 0xE591F000 (loadStart []) = some .writesPc ∧ turnedAway 0xE5BF0004 (loadStart []) = some .writesPc ∧
    turnedAway 0xE49F0004 (loadStart []) = some .writesPc ∧ turnedAway 0xE5AF0004 (loadStart []) = some .writesPc ∧
    turnedAway 0xE791000F (loadStart []) = some .pcOperand ∧ turnedAway 0xE7C1000F (loadStart []) = some .pcOperand ∧
    turnedAway 0xE5B11004 (loadStart []) = some .baseRegisterConflict ∧
    turnedAway 0xE4911004 (loadStart []) = some .baseRegisterConflict ∧
    turnedAway 0xE4811004 (loadStart []) = some .baseRegisterConflict ∧
    turnedAway 0xE7B10001 (loadStart []) = some .baseRegisterConflict ∧
    turnedAway 0xE7E10001 (loadStart []) = some .baseRegisterConflict := by decide +kernel

/-- All fifteen registers, and one with write-back of a base that is not in the list. -/
theorem witness_load_multiple :
    condHolds .al (blockStartState []).flags = true ∧
    ((0x7FFF : BitVec 16) ≠ 0 ∧ (0 : Reg) ≠ 15 ∧ (0x7FFF : BitVec 16).getLsbD 15 = false) ∧
    (0x4030 : BitVec 16).getLsbD (13 : Reg).val = false ∧ runs 0xE8907FFF (blockStartState []) = true ∧
    runs 0xE8BD4030 (blockStartState []) = true := by decide +kernel

/-- A store at the end of the fast RAM: the last word is writable, the next is not. -/
theorem witness_store_multiple :
    condHolds .al (blockStoreStart 0x03007FFC).flags = true ∧ (blockStoreStart 0x03007FFC).mem.wf = true ∧
    (blockStoreStart 0x03007FFC).mem.map.writable (0x03007FFF : Word).toNat = true ∧
    (blockStoreStart 0x03007FFC).mem.map.writable (0x03008000 : Word).toNat = false ∧
    runs 0xE8A00006 (blockStoreStart 0x03007FFC) = true ∧ (6 : BitVec 16).getLsbD (0 : Reg).val = false := by
  decide +kernel

/-- V173 to V175, V177 to V180. -/
theorem witness_block_transfer_refusals :
    turnedAway 0xE8D00006 (blockStartState []) = some .forceModeBits ∧
    turnedAway 0xE8D00000 (blockStartState []) = some .forceModeBits ∧
    turnedAway 0xE8900000 (blockStartState []) = some .emptyRegisterList ∧
    turnedAway 0xE89F0006 (blockStartState []) = some .pcOperand ∧
    turnedAway 0xE8908006 (blockStartState []) = some .writesPc ∧
    turnedAway 0xE8B00007 (blockStartState []) = some .baseRegisterConflict ∧
    turnedAway 0xE8A00007 (blockStartState []) = some .baseRegisterConflict ∧
    turnedAway 0xE8C00006 (blockStartState []) = some .forceModeBits ∧
    turnedAway 0xE8800000 (blockStartState []) = some .emptyRegisterList := by decide +kernel

theorem witness_branch_and_link :
    condHolds .al (startAt 0x08000010 [] 0).flags = true ∧ (startAt 0x08000010 [] 0).pc = 0x08000010 + 8 ∧
    condHolds .al (startAt 0xFFFFFFFC [] 0).flags = true ∧ (startAt 0xFFFFFFFC [] 0).pc = 0xFFFFFFFC + 8 := by
  decide +kernel

theorem witness_branch_exchange :
    condHolds .al (start [(14, 0x08000101)] 0).flags = true ∧ ((start [(14, 0x08000101)] 0).reg 14).getLsbD 0 = true := by
  decide +kernel

/-- A state whose decode latch holds `MOVEQ R0, #1` while Z = 0. -/
def falseStart : State := (start [(0, 0x77)] 0).withFetchWord 32 0x03A00001

theorem witness_false_condition :
    (decodeWord 0x03A00001).cond = some .eq ∧ condHolds .eq falseStart.flags = false ∧ falseStart.tag = .arm ∧
    falseStart.decodeLatch = some 0x03A00001 ∧
    (decodeWord 0x0F000000).decodeError = some ⟨0x0F000000, .coprocessorOrSwi⟩ := by decide +kernel

/-- One word of each shape of frame gives a next state. -/
theorem witness_frames :
    runs 0xE0910002 (start [(1, 1)] 0) = true ∧ runs 0xE1510002 (start [] 0) = true ∧
    runs 0xE0100291 (start [] 0) = true ∧ runs 0xE0910392 (start [] 0) = true ∧
    runs 0xE5910004 (loadStart []) = true ∧ runs 0xE7510002 (loadStart []) = true ∧
    runs 0xE8BD4030 (blockStartState []) = true ∧ runs 0xE4810004 (loadStart []) = true ∧
    runs 0xE5E10001 (loadStart []) = true ∧ runs 0xE92D4030 (blockStartState []) = true ∧
    runs 0xE1020091 (swapStart []) = true ∧ runs 0xE1420091 (swapStart []) = true ∧
    runs 0xEA000032 (start [] 0) = true ∧ runs 0xEB000001 (start [] 0) = true ∧ runs 0xE12FFF1E (start [] 0) = true ∧
    (loadStart []).mem.wf = true ∧ (swapStart []).mem.wf = true ∧ isBranch (.b .al 50) = true := by decide +kernel

/-- An instruction, an error row and (never) a refusal in the decode latch. -/
theorem witness_step_runs_the_decoded_instruction :
    falseStart.tag = .arm ∧ falseStart.decodeLatch = some 0x03A00001 ∧
    nextOf (exec (decodeWord 0x03A00001) (fetchAndShift falseStart)) =
      some { fetchAndShift falseStart with report := .skipped } ∧
    faultOf (exec (decodeWord 0xEF000000) (fetchAndShift falseStart)) =
      some (.decodeError ⟨0xEF000000, .coprocessorOrSwi⟩) := by decide +kernel

theorem witness_thumb_state : (hostSetTag State.reset .thumb).tag = .thumb := by decide

/-- The answer of a step, for the witnesses about runs of steps. -/
def stepped (s : State) : State :=
  match step s with
  | .next t => t
  | .fault _ => s
  | .refused _ => s

theorem witness_pipeline :
    nextOf (step (start [] 0)) = some (stepped (start [] 0)) ∧
    (stepped (start [] 0)).report ≠ .executed .redirected ∧
    nextOf (step (stepped (start [] 0))) = some (stepped (stepped (start [] 0))) ∧
    (stepped (stepped (start [] 0))).report ≠ .executed .redirected ∧
    nextOf (step (State.reset.withFetchWord 32 0xEA000032)) = some (stepped (State.reset.withFetchWord 32 0xEA000032)) ∧
    (stepped (State.reset.withFetchWord 32 0xEA000032)).report = .executed .redirected := by decide +kernel

theorem witness_pipeline_refills :
    (start [] 0).tag = .arm ∧ pipelineEmpty (start [] 0) = true ∧
    nextOf (step (stepped (stepped (start [] 0)))) = some (stepped (stepped (stepped (start [] 0)))) := by decide +kernel

theorem witness_every_step_keeps_the_state_ok :
    stateOk (blockStartState []) = true ∧
    nextOf (step ((blockStartState []).withFetchWord 32 0xE92D4030)) =
      some (stepped ((blockStartState []).withFetchWord 32 0xE92D4030)) ∧
    stateOk ((blockStartState []).withFetchWord 32 0xE92D4030) = true := by decide +kernel

theorem witness_state_tag :
    nextOf (step (State.reset.withFetchWord 32 0xE3A00005)) = some (stepped (State.reset.withFetchWord 32 0xE3A00005)) ∧
    (State.reset.withFetchWord 32 0xE3A00005).decodeLatch = some 0xE3A00005 ∧
    decodeWord 0xE3A00005 = .movImm .al false 0 0 ⟨0, 5⟩ := by decide +kernel

theorem witness_flags_change :
    nextOf (step (State.reset.withFetchWord 32 0xE1510002)) = some (stepped (State.reset.withFetchWord 32 0xE1510002)) ∧
    (stepped (State.reset.withFetchWord 32 0xE1510002)).flags ≠ (State.reset.withFetchWord 32 0xE1510002).flags := by
  decide +kernel

end Sys2Proof.Tests
end

section
/-! PROOFS. The operands an instruction word carries (`30_encoding.md` section 3): the rotated immediate, the register
list and the branch offset, each tied to the library's operation it is, and the obligations about them. -/

namespace Sys2Proof.Machine

/-! ## The rotated immediate -/

/-- The shift primitive `ror32` (rule R10) is the library's rotation: the two differ only in how they write a rotation
by a multiple of 32. -/
theorem ror32_eq_rotateRight (v : Word) (n : Nat) : ror32 v n = v.rotateRight n := by
  rw [ror32, lsr, lsl, BitVec.rotateRight_def]
  by_cases h : n % 32 = 0
  · simp [h]
  · rw [Nat.mod_eq_of_lt (a := 32 - n % 32) (by omega)]

theorem value_rotImm (o : RotImm) (c : Bool) :
    (rotImm o c).value = ror32 (o.imm8.setWidth 32) (2 * o.rotate.toNat) := rfl

theorem carry_rotImm (o : RotImm) (c : Bool) :
    (rotImm o c).carry = if o.rotate = 0 then c else (rotImm o c).value.getLsbD 31 := by
  rw [← BitVec.msb_eq_getLsbD_last (rotImm o c).value]
  rfl

/-- Settles O15: the value as a rotation and bit by bit, the carry-out by whether the rotate field is 0. -/
theorem immediateIsRotatedByTwiceItsField : Obligations.ImmediateIsRotatedByTwiceItsField := by
  intro o c
  refine ⟨?_, fun i hi => ?_, fun h0 => ?_, fun h0 => ?_, fun s => rfl⟩
  · rw [value_rotImm, ror32_eq_rotateRight]
  · rw [value_rotImm, getLsbD_ror32 _ _ i hi]
  · rw [carry_rotImm, if_pos h0]
  · rw [carry_rotImm, if_neg h0]

/-! ## The register list -/

theorem listedRegs_pairwise_lt (list : BitVec 16) : (listedRegs list).Pairwise (· < ·) :=
  List.Pairwise.filter _ (by decide)

/-- Settles O35: the list is a filter of the sixteen registers in rising order. -/
theorem registerListIsTheSetBitsAscending : Obligations.RegisterListIsTheSetBitsAscending :=
  fun list => ⟨listedRegs_pairwise_lt list, mem_listedRegs list⟩

/-! ## The branch offset -/

/-- The shift by 2 is a multiplication by 4 (rule R73), and 26 bits of a signed number fit in a word. -/
theorem toInt_branchOffset (offset24 : BitVec 24) : (branchOffset offset24).toInt = 4 * offset24.toInt := by
  have hlo := offset24.le_toInt
  have hhi := offset24.toInt_lt
  calc (branchOffset offset24).toInt
      = ((offset24.signExtend 32).toInt * (BitVec.twoPow 32 2).toInt).bmod (2 ^ 32) := by
        rw [branchOffset, lsl, BitVec.shiftLeft_eq_mul_twoPow, BitVec.toInt_mul]
    _ = (offset24.toInt * 4).bmod (2 ^ 32) := by
        rw [BitVec.toInt_signExtend_of_le (by decide)]; rfl
    _ = offset24.toInt * 4 := Int.bmod_eq_of_le (by omega) (by omega)
    _ = 4 * offset24.toInt := Int.mul_comm ..

end Sys2Proof.Machine
end

section
/-! PROOFS. What a word decodes to, through the bits that select it: the branch the encoder writes, and the buckets that
are DecodeErrors. -/

namespace Sys2Proof

/-- With a condition in its condition field, a word decodes by its body (rules R61, R62). -/
theorem decodeWord_eq_decodeBody {w : Word} {c : Cond}
    (h : Cond.ofBits (bitAt w 31) (bitAt w 30) (bitAt w 29) (bitAt w 28) = some c) : decodeWord w = decodeBody c w := by
  rw [decodeWord, h]

/-! ## Branches -/

/-- Decoding undoes the encoding of a branch: the selecting bits and the offset field lie where rule R70 reads them. -/
theorem decodeWord_encodeBranch (link : Bool) (c : Cond) (offset24 : BitVec 24) :
    decodeWord (encodeBranch link c offset24) = if link then .bl c offset24 else .b c offset24 := by
  set w := encodeBranch link c offset24 with hw
  have hcond : Cond.ofBits (bitAt w 31) (bitAt w 30) (bitAt w 29) (bitAt w 28) = some c := by
    simp [hw, encodeBranch, -BitVec.getLsbD_eq_getElem]
  have hclass : bitAt w 27 = true ∧ bitAt w 26 = false ∧ bitAt w 25 = true ∧ bitAt w 24 = link := by
    simp [hw, encodeBranch, -BitVec.getLsbD_eq_getElem]
  have hoffset : fieldAt w 0 24 = offset24 := by
    simp [hw, encodeBranch, fieldAt_or, fieldAt_placeAt_same, fieldAt_placeAt_below]
  obtain ⟨h27, h26, h25, h24⟩ := hclass
  rw [decodeWord_eq_decodeBody hcond]
  cases link <;> simp only [decodeBody, decodeBranch, h27, h26, h25, h24, hoffset] <;> rfl

/-- Settles O17: the field of a count `k` is `k` modulo 2^24. -/
theorem branchOffsetIsFourTimesTheSignedField : Obligations.BranchOffsetIsFourTimesTheSignedField := by
  refine ⟨fun offset24 => ?_, fun k c hlo hhi => ?_⟩
  · have hlo := offset24.le_toInt
    have hhi := offset24.toInt_lt
    rw [Machine.toInt_branchOffset]
    omega
  · exact ⟨BitVec.ofInt 24 k, BitVec.toInt_ofInt_eq_self (by decide) (by omega) (by omega),
      decodeWord_encodeBranch false c _, decodeWord_encodeBranch true c _⟩

/-! ## The error rows of the decode tree -/

theorem decode_eq_error_iff (w : Word) (e : DecodeError) :
    decode w = .error e ↔ (decodeWord w).decodeError = some e := by
  unfold decode
  split <;> simp_all

theorem decodeError_dpImmOf (b24 b23 b22 b21 : Bool) (c : Cond) (s : Bool) (rn rd : Reg) (o : RotImm) :
    (dpImmOf b24 b23 b22 b21 c s rn rd o).decodeError = none := by
  unfold dpImmOf; split <;> rfl

@[simp] theorem decodeError_decodeDpImm (c : Cond) (w : Word) : (decodeDpImm c w).decodeError = none :=
  decodeError_dpImmOf ..

theorem decodeError_dpRegOf (b24 b23 b22 b21 : Bool) (c : Cond) (s : Bool) (rn rd : Reg) (o : ShiftedReg) :
    (dpRegOf b24 b23 b22 b21 c s rn rd o).decodeError = none := by
  unfold dpRegOf; split <;> rfl

@[simp] theorem decodeError_decodeDpReg (c : Cond) (w : Word) : (decodeDpReg c w).decodeError = none :=
  decodeError_dpRegOf ..

@[simp] theorem decodeError_decodeBx (c : Cond) (w : Word) : (decodeBx c w).decodeError = none := rfl

@[simp] theorem decodeError_decodeSwap (c : Cond) (w : Word) : (decodeSwap c w).decodeError = none := by
  unfold decodeSwap; split <;> rfl

@[simp] theorem decodeError_decodeMulLong (c : Cond) (w : Word) : (decodeMulLong c w).decodeError = none := by
  unfold decodeMulLong; split <;> rfl

@[simp] theorem decodeError_decodeMul (c : Cond) (w : Word) : (decodeMul c w).decodeError = none := by
  unfold decodeMul; split <;> rfl

@[simp] theorem decodeError_decodeSingleImm (c : Cond) (w : Word) : (decodeSingleImm c w).decodeError = none := by
  unfold decodeSingleImm; split <;> rfl

@[simp] theorem decodeError_decodeSingleReg (c : Cond) (w : Word) : (decodeSingleReg c w).decodeError = none := by
  unfold decodeSingleReg; split <;> rfl

@[simp] theorem decodeError_decodeBlock (c : Cond) (w : Word) : (decodeBlock c w).decodeError = none := by
  unfold decodeBlock; split <;> rfl

@[simp] theorem decodeError_decodeBranch (c : Cond) (w : Word) : (decodeBranch c w).decodeError = none := by
  unfold decodeBranch; split <;> rfl

@[simp] theorem decodeError_errUndefined (w : Word) :
    (Instr.errUndefined w).decodeError = some ⟨w, .undefinedEncoding⟩ := rfl

@[simp] theorem decodeError_errCoprocessorOrSwi (w : Word) :
    (Instr.errCoprocessorOrSwi w).decodeError = some ⟨w, .coprocessorOrSwi⟩ := rfl

/-- Among the words with bits 7 and 4 set, bits 6:5 select the halfword bucket (rule R66). -/
theorem decodeError_decodeExtension (c : Cond) (w : Word) :
    (decodeExtension c w).decodeError =
      if bitAt w 5 = true ∨ bitAt w 6 = true then some ⟨w, .halfwordTransfer⟩ else none := by
  unfold decodeExtension
  split
  case h_4 h6 h5 => split_ifs <;> simp_all
  all_goals simp only [Instr.decodeError, *, true_or, or_true, if_true]

/-- The three error buckets of a word's body, each with the bits that select it (rules R66, R68, R69). -/
theorem decodeError_decodeBody (c : Cond) (w : Word) :
    (decodeBody c w).decodeError =
      if bitAt w 26 = true ∧ bitAt w 27 = true then some ⟨w, .coprocessorOrSwi⟩
      else if (bitAt w 26 = true ∧ bitAt w 27 = false) ∧ bitAt w 25 = true ∧ bitAt w 4 = true then
        some ⟨w, .undefinedEncoding⟩
      else if (bitAt w 25 = false ∧ bitAt w 26 = false ∧ bitAt w 27 = false) ∧ bitAt w 7 = true ∧ bitAt w 4 = true ∧
          (bitAt w 5 = true ∨ bitAt w 6 = true) then some ⟨w, .halfwordTransfer⟩
      else none := by
  unfold decodeBody
  split
  case h_1 h27 h26 =>
    by_cases h25 : bitAt w 25 = true
    · simp [h27, h26, h25, -BitVec.getLsbD_eq_getElem]
    by_cases h4 : bitAt w 4 = true
    · by_cases h7 : bitAt w 7 = true <;>
        simp [h27, h26, h25, h4, h7, decodeError_decodeExtension, -BitVec.getLsbD_eq_getElem]
    · simp [h27, h26, h25, h4, -BitVec.getLsbD_eq_getElem]
  case h_2 h27 h26 =>
    by_cases h25 : bitAt w 25 = true
    · by_cases h4 : bitAt w 4 = true <;> simp [h27, h26, h25, h4, -BitVec.getLsbD_eq_getElem]
    · simp [h27, h26, h25, -BitVec.getLsbD_eq_getElem]
  case h_3 h27 h26 =>
    by_cases h25 : bitAt w 25 = true <;> simp [h27, h26, h25, -BitVec.getLsbD_eq_getElem]
  case h_4 h27 h26 => simp [h27, h26, -BitVec.getLsbD_eq_getElem]

/-! ## Fields as their bits -/

theorem fieldAt_eq_iff (w : Word) (lo : Nat) {n : Nat} (k : BitVec n) :
    fieldAt w lo n = k ↔ ∀ i : Fin n, bitAt w (lo + i) = k.getLsbD i := by
  rw [BitVec.eq_of_getLsbD_eq_iff]
  refine Iff.trans (forall₂_congr fun i hi => ?_) Fin.forall_iff.symm
  simp [hi]

theorem fieldAt_two_eq_iff (w : Word) (lo : Nat) (k : BitVec 2) :
    fieldAt w lo 2 = k ↔ bitAt w lo = k.getLsbD 0 ∧ bitAt w (lo + 1) = k.getLsbD 1 := by
  rw [fieldAt_eq_iff, Fin.forall_fin_two]; rfl

theorem fieldAt_three_eq_iff (w : Word) (lo : Nat) (k : BitVec 3) :
    fieldAt w lo 3 = k ↔
      bitAt w lo = k.getLsbD 0 ∧ bitAt w (lo + 1) = k.getLsbD 1 ∧ bitAt w (lo + 2) = k.getLsbD 2 := by
  rw [fieldAt_eq_iff, Fin.forall_fin_succ, Fin.forall_fin_two]; rfl

/-- Settles O12: the buckets of `decodeError_decodeBody`, whose bits exclude each other. -/
theorem halfwordAndCoprocessorWordsAreDecodeErrors : Obligations.HalfwordAndCoprocessorWordsAreDecodeErrors := by
  intro w hw
  obtain ⟨c, hc⟩ := (hasCondition_iff w).mp hw
  have hclass0 : w.extractLsb' 25 3 = 0 ↔ bitAt w 25 = false ∧ bitAt w 26 = false ∧ bitAt w 27 = false :=
    fieldAt_three_eq_iff w 25 0
  have hclass3 : w.extractLsb' 26 2 = 3 ↔ bitAt w 26 = true ∧ bitAt w 27 = true := fieldAt_two_eq_iff w 26 3
  have hkind : w.extractLsb' 5 2 ≠ 0 ↔ bitAt w 5 = true ∨ bitAt w 6 = true :=
    (not_congr (fieldAt_two_eq_iff w 5 0)).trans (by simp [-not_and, not_and_or, -BitVec.getLsbD_eq_getElem])
  rw [decode_eq_error_iff, decode_eq_error_iff, decodeWord_eq_decodeBody hc, decodeError_decodeBody, hclass0, hclass3,
    hkind]
  constructor
  · split_ifs <;> simp_all
  · split_ifs <;> simp_all

end Sys2Proof
end

section
/-! PROOFS. The sequencer (`40_pipeline_sequencer.md`): which instructions redirect (rule R95), what an effect leaves of
the pipeline, and what the PC update makes of it (rule R96). -/

namespace Sys2Proof.Machine

/-! ## Which instructions redirect -/

/-- The shape of every instruction that is neither a branch nor a comparison: skipped, refused, or finished. -/
theorem not_redirected_of_finish {c : Cond} {r : Option UnimplementedReason} {s t u : State}
    (h : whenCond c s (unlessRefused r u.finish) = .next t) : t.report ≠ .executed .redirected := by
  rcases whenCond_next h with ⟨_, rfl⟩ | ⟨_, h⟩
  · simp
  · obtain ⟨_, rfl⟩ := unlessRefused_next h
    simp

theorem not_redirected_of_dpCompare {c : Cond} {a : Bool} {out : AluOut} {s t : State}
    (h : dpCompare c a out s = .next t) : t.report ≠ .executed .redirected :=
  not_redirected_of_finish (r := none) h

/-- The shape of the three branches: skipped, or redirected. -/
theorem redirected_iff_of_redirect {c : Cond} {s t u : State} {a : Word}
    (h : whenCond c s (.next (u.redirect a)) = .next t) :
    t.report = .executed .redirected ↔ condHolds c s.flags = true := by
  rcases whenCond_next h with ⟨hc, rfl⟩ | ⟨hc, h⟩
  · simp [hc]
  · injection h with h
    subst h
    simp [hc]

/-- Only B, BL and BX redirect, and they do so when their condition holds (rule R95). -/
theorem exec_redirected_iff {i : Instr} {s t : State} (h : exec i s = .next t) :
    t.report = .executed .redirected ↔ isBranch i = true ∧ ∀ c, i.cond = some c → condHolds c s.flags = true := by
  cases i
  case b | bl | bx => simpa [isBranch, Instr.cond] using redirected_iff_of_redirect h
  case tstImm | teqImm | cmpImm | cmnImm | tstReg | teqReg | cmpReg | cmnReg =>
    simpa [isBranch] using not_redirected_of_dpCompare h
  case errReservedCondition | errHalfword01 | errHalfword10 | errHalfword11 | errUndefined | errCoprocessorOrSwi =>
    nomatch h
  all_goals simpa [isBranch] using not_redirected_of_finish h

/-! ## What an effect leaves of the pipeline -/

/-- No instruction touches a latch: only the sequencer does. -/
theorem Effect.latches {s t : State} (h : Effect s t) : t.fetchLatch = s.fetchLatch ∧ t.decodeLatch = s.decodeLatch := by
  cases h <;> simp

theorem pc_setReg_of_ne (s : State) {r : Reg} (v : Word) (h : r ≠ Reg.pc) : (s.setReg r v).pc = s.pc :=
  reg_setReg_ne s v h.symm

theorem pc_baseWriteBack (s : State) {ix : Indexing} {rn : Reg} (base off : Word)
    (h : writesBack ix = true → rn ≠ Reg.pc) : (s.baseWriteBack ix rn base off).pc = s.pc := by
  rw [State.pc, reg_baseWriteBack, if_neg fun ⟨hw, e⟩ => h hw e.symm]

theorem pc_blockBase (s : State) (bm : BlockMode) {rn : Reg} (base bytes : Word) (h : rn ≠ Reg.pc) :
    (s.blockBase bm rn base bytes).pc = s.pc := by
  rw [State.pc, reg_blockBase, if_neg fun ⟨_, e⟩ => h e.symm]

/-- R15 is written by a redirection and by nothing else: every other destination is refused when it is R15. -/
theorem Effect.pc_of_not_redirected {s t : State} (h : Effect s t) (hr : t.report ≠ .executed .redirected) :
    t.pc = s.pc := by
  cases h
  case skip | compare => simp
  case write h | multiply h | swap h => simp [pc_setReg_of_ne _ _ h]
  case multiplyLong hhi hlo => simp [pc_setReg_of_ne _ _ hhi, pc_setReg_of_ne _ _ hlo]
  case load hrd hrn => simp [pc_baseWriteBack _ _ _ hrn, pc_setReg_of_ne _ _ hrd]
  case store hrn => simp [pc_baseWriteBack _ _ _ hrn]
  case loadBlock hl hrn => simp [reg_loadRegs_of_notMem _ _ _ _ _ hl, pc_blockBase _ _ _ _ hrn]
  case storeBlock hrn => simp [pc_blockBase _ _ _ _ hrn]
  case branch | branchLink | exchange => simp at hr

/-! ## The PC update -/

theorem pc_pcUpdate_of_redirected {s : State} (h : s.report = .executed .redirected) :
    (pcUpdate s).pc = s.pc := by
  rw [pcUpdate_redirected s h]; simp

theorem pc_pcUpdate_of_not_redirected {s : State} (h : s.report ≠ .executed .redirected) :
    (pcUpdate s).pc = s.pc + 4 := by
  rw [pcUpdate_other s h]; simp

/-- Settles O52: the branches by `exec_redirected_iff`, R15 by `Effect.pc_of_not_redirected`. -/
theorem onlyTakenBranchesRedirect : Obligations.OnlyTakenBranchesRedirect := fun _ _ _ h =>
  ⟨exec_redirected_iff h,
    fun hr => ⟨(exec_effect h).pc_of_not_redirected hr, pc_pcUpdate_of_not_redirected hr⟩,
    pc_pcUpdate_of_redirected⟩

/-- Without a redirection the PC update completes a move of the pipeline by one, when what ran since the fetch left R15
and the latches alone. -/
theorem pcUpdate_moved {s u : State} (hr : u.report ≠ .executed .redirected) (hpc : u.pc = s.pc)
    (hf : u.fetchLatch = (fetchAndShift s).fetchLatch) (hd : u.decodeLatch = (fetchAndShift s).decodeLatch) :
    (pcUpdate u).pc = s.pc + 4 ∧ (pcUpdate u).fetchLatch = some (s.mem.readWord s.pc) ∧
      (pcUpdate u).decodeLatch = s.fetchLatch := by
  refine ⟨by rw [pc_pcUpdate_of_not_redirected hr, hpc], ?_⟩
  simp [pcUpdate_other u hr, hf, hd]

/-- Settles O53: a bubble leaves the pipeline as fetched, an executed word as its effect says; a flush touches no
register. -/
theorem stepMovesOrFlushesThePipeline : Obligations.StepMovesOrFlushesThePipeline := by
  intro s t h
  obtain ⟨_, ⟨_, rfl⟩ | ⟨w, u, hw, he, rfl⟩⟩ := step_next h
  · exact ⟨fun hr => by simp at hr, fun _ => pcUpdate_moved (by simp) rfl rfl rfl⟩
  · rw [report_pcUpdate]
    refine ⟨fun hr => ?_, fun hr => ?_⟩
    · rw [pcUpdate_redirected u hr]
      exact ⟨rfl, rfl, w, u, hw, he, rfl⟩
    · have hu := exec_effect he
      exact pcUpdate_moved hr (hu.pc_of_not_redirected hr) hu.latches.1 hu.latches.2

end Sys2Proof.Machine
end

section
/-! PROOFS. Gating (`41_condition_codes.md` rule R112): every instruction with a condition runs under it, a DecodeError
runs under none, and a step over a false condition only advances the pipeline. -/

namespace Sys2Proof.Machine

/-! ## What gates an instruction -/

/-- Whatever an instruction with a condition does, it does behind the gate of that condition. -/
theorem exec_eq_whenCond {i : Instr} {c : Cond} (h : i.cond = some c) (s : State) :
    ∃ taken, exec i s = whenCond c s taken := by
  cases i
  case errReservedCondition | errHalfword01 | errHalfword10 | errHalfword11 | errUndefined | errCoprocessorOrSwi =>
    nomatch h
  all_goals
    obtain rfl := Option.some.inj h
    exact ⟨_, rfl⟩

theorem exec_of_not_condHolds {i : Instr} {c : Cond} {s : State} (hi : i.cond = some c)
    (hc : condHolds c s.flags = false) : exec i s = .next s.skip := by
  obtain ⟨taken, he⟩ := exec_eq_whenCond hi s
  rw [he, whenCond_of_not hc]

/-- Only the error rows carry a DecodeError, and raising it is all they do (rule R94). -/
theorem exec_of_decodeError {i : Instr} {e : DecodeError} (h : i.decodeError = some e) (s : State) :
    exec i s = .fault (.decodeError e) := by
  cases i
  case errReservedCondition | errHalfword01 | errHalfword10 | errHalfword11 | errUndefined | errCoprocessorOrSwi =>
    obtain rfl := Option.some.inj h
    rfl
  all_goals nomatch h

/-! ## The step over a false condition -/

theorem step_of_decodeLatch {s : State} {w : Word} (ht : s.tag = .arm) (hw : s.decodeLatch = some w) :
    step s = afterExec (exec (decodeWord w) (fetchAndShift s)) := by
  simp [step, advanceWith, ht, advanceArm, hw]

/-- The fetch looks at no flag, so the gate sees those of the state before the step. -/
theorem step_of_not_condHolds {s : State} {w : Word} {c : Cond} (ht : s.tag = .arm) (hw : s.decodeLatch = some w)
    (hi : (decodeWord w).cond = some c) (hc : condHolds c s.flags = false) :
    step s = .next (pcUpdate (fetchAndShift s).skip) := by
  have hfetched : condHolds c (fetchAndShift s).flags = false := hc
  rw [step_of_decodeLatch ht hw, exec_of_not_condHolds hi hfetched, afterExec]

/-- Settles O41: the gate `exec_eq_whenCond` answers a skip, and the step adds the fetch before it and the advance of
R15 after it. -/
theorem falseConditionLeavesTheStateAlone : Obligations.FalseConditionLeavesTheStateAlone := by
  refine ⟨fun i c s hi hc => ?_, fun s w c ht hw hi hc => ?_, fun i e s he => ?_⟩
  · exact exec_of_not_condHolds hi hc
  · rw [step_of_not_condHolds ht hw hi hc, pcUpdate_other _ (by simp)]
    rfl
  · exact exec_of_decodeError he s

end Sys2Proof.Machine
end

section
/-! PROOFS. The barrel shifter (`42_data_processing.md` rule R122): the two rows of each shift type as equations, and
the values of the rows bit by bit. -/

namespace Sys2Proof.Machine

/-! ## The rows of amount 0 -/

theorem shift_lsl_zero (m : Word) (c : Bool) : shift .lsl 0 m c = ⟨m, c⟩ := rfl

theorem shift_lsr_zero (m : Word) (c : Bool) : shift .lsr 0 m c = ⟨0, m.msb⟩ := by
  rw [BitVec.msb_eq_getLsbD_last m]; rfl

theorem shift_asr_zero (m : Word) (c : Bool) :
    shift .asr 0 m c = ⟨if m.msb then 0xFFFFFFFF else 0, m.msb⟩ := by
  rw [BitVec.msb_eq_getLsbD_last m]; rfl

/-- RRX shifts the C flag in from the left. -/
theorem shift_ror_zero (m : Word) (c : Bool) :
    shift .ror 0 m c = ⟨lsl ((BitVec.ofBool c).setWidth 32) 31 ||| lsr m 1, m.getLsbD 0⟩ := rfl

theorem getLsbD_rrx (m : Word) (c : Bool) {i : Nat} (hi : i < 32) :
    (shift .ror 0 m c).value.getLsbD i = if i = 31 then c else m.getLsbD (i + 1) := by
  rw [shift_ror_zero, lsl, lsr, BitVec.getLsbD_or, BitVec.getLsbD_shiftLeft, BitVec.getLsbD_ushiftRight]
  by_cases h : i = 31
  · subst h
    simp [-BitVec.getLsbD_eq_getElem]
  · have hlow : i < 31 := by omega
    simp [h, hlow, Nat.add_comm 1 i]

/-! ## The rows of the amounts 1 to 31 -/

section
variable {n : Nat} (hn : 0 < n) (m : Word) (c : Bool)
include hn

theorem shift_lsl_pos : shift .lsl n m c = ⟨lsl m n, m.getLsbD (32 - n)⟩ := if_neg hn.ne'

theorem shift_lsr_pos : shift .lsr n m c = ⟨lsr m n, m.getLsbD (n - 1)⟩ := if_neg hn.ne'

theorem shift_asr_pos : shift .asr n m c = ⟨asr m n, m.getLsbD (n - 1)⟩ := if_neg hn.ne'

theorem shift_ror_pos : shift .ror n m c = ⟨ror32 m n, m.getLsbD (n - 1)⟩ := if_neg hn.ne'

end

theorem getLsbD_lsl (m : Word) (n : Nat) {i : Nat} (hi : i < 32) :
    (lsl m n).getLsbD i = (decide (n ≤ i) && m.getLsbD (i - n)) := by
  rw [lsl, BitVec.getLsbD_shiftLeft, decide_eq_true hi, Bool.true_and, ← decide_not, decide_eq_decide.2 Nat.not_lt]

theorem getLsbD_lsr (m : Word) (n i : Nat) : (lsr m n).getLsbD i = m.getLsbD (i + n) := by
  rw [lsr, BitVec.getLsbD_ushiftRight, Nat.add_comm]

theorem getLsbD_asr (m : Word) (n : Nat) {i : Nat} (hi : i < 32) :
    (asr m n).getLsbD i = if i + n < 32 then m.getLsbD (i + n) else m.msb := by
  rw [asr, BitVec.getLsbD_sshiftRight, decide_eq_false (Nat.not_le.2 hi), Bool.not_false, Bool.true_and,
    Nat.add_comm n i]

/-- The bit a rotation carries out is the one it brings to the top. -/
theorem msb_ror32 (m : Word) {n : Nat} (h0 : 0 < n) (hn : n < 32) : (ror32 m n).msb = m.getLsbD (n - 1) := by
  have htop : (31 + n) % 32 = n - 1 := by omega
  rw [BitVec.msb_eq_getLsbD_last, getLsbD_ror32 m n 31 (by decide), htop]

/-- Settles O16: the rows of amount 0 as they stand, those of the amounts 1 to 31 through the shift primitives. -/
theorem shifterFollowsItsTable : Obligations.ShifterFollowsItsTable := by
  refine ⟨fun o s => ⟨rfl, rfl⟩, fun m c n hn => ⟨shift_lsl_zero m c, shift_lsr_zero m c, shift_asr_zero m c,
    ⟨congrArg ShifterOut.carry (shift_ror_zero m c), fun i hi => getLsbD_rrx m c hi⟩, fun h0 => ?_⟩⟩
  rw [shift_lsl_pos h0, shift_lsr_pos h0, shift_asr_pos h0, shift_ror_pos h0]
  exact ⟨⟨rfl, fun i hi => getLsbD_lsl m n hi⟩, ⟨rfl, fun i _ => getLsbD_lsr m n i⟩,
    ⟨rfl, fun i hi => getLsbD_asr m n hi⟩, rfl, (msb_ror32 m h0 hn).symm, fun i hi => getLsbD_ror32 m n i hi⟩

end Sys2Proof.Machine
end

section
/-! PROOFS. Data processing (`42_data_processing.md`): what the two shared endings of rule R120 answer once the
condition holds, what each mnemonic computes in either operand form, and the obligations about their next states. -/

namespace Sys2Proof.Machine

open Sys2Proof.Claims

/-! ## The two endings -/

/-- Past the condition and with Rd not R15, the value written is whatever the result is shown equal to. -/
theorem dpWrite_of_result {c : Cond} {rd : Reg} {s : State} {out : AluOut} {r : Word} (hc : condHolds c s.flags = true)
    (hrd : rd ≠ 15) (a : Bool) (hr : out.result = r) : dpWrite c a rd out s = writes s a rd r out.flags := by
  subst hr
  rw [dpWrite, whenCond_of_holds hc, if_neg hrd]
  cases a <;> rfl

theorem dpCompare_of_holds {c : Cond} {s : State} (hc : condHolds c s.flags = true) (a : Bool) (out : AluOut) :
    dpCompare c a out s = compares s a out.flags := by
  rw [dpCompare, whenCond_of_holds hc]
  cases a <;> rfl

/-! ## What each mnemonic computes -/

section
variable (c : Cond) (a : Bool) (rn rd : Reg) (o : Op2) (s : State)

theorem exec_opAnd : exec (opAnd.instr c a rn rd o) s =
    dpWrite c a rd (aluAnd s.flags (s.reg rn) (o.out s).value (o.out s).carry) s := by cases o <;> rfl

theorem exec_opEor : exec (opEor.instr c a rn rd o) s =
    dpWrite c a rd (aluEor s.flags (s.reg rn) (o.out s).value (o.out s).carry) s := by cases o <;> rfl

theorem exec_opSub : exec (opSub.instr c a rn rd o) s =
    dpWrite c a rd (aluSub s.flags (s.reg rn) (o.out s).value (o.out s).carry) s := by cases o <;> rfl

theorem exec_opRsb : exec (opRsb.instr c a rn rd o) s =
    dpWrite c a rd (aluRsb s.flags (s.reg rn) (o.out s).value (o.out s).carry) s := by cases o <;> rfl

theorem exec_opAdd : exec (opAdd.instr c a rn rd o) s =
    dpWrite c a rd (aluAdd s.flags (s.reg rn) (o.out s).value (o.out s).carry) s := by cases o <;> rfl

theorem exec_opAdc : exec (opAdc.instr c a rn rd o) s =
    dpWrite c a rd (aluAdc s.flags (s.reg rn) (o.out s).value (o.out s).carry) s := by cases o <;> rfl

theorem exec_opSbc : exec (opSbc.instr c a rn rd o) s =
    dpWrite c a rd (aluSbc s.flags (s.reg rn) (o.out s).value (o.out s).carry) s := by cases o <;> rfl

theorem exec_opRsc : exec (opRsc.instr c a rn rd o) s =
    dpWrite c a rd (aluRsc s.flags (s.reg rn) (o.out s).value (o.out s).carry) s := by cases o <;> rfl

theorem exec_opTst : exec (opTst.instr c a rn rd o) s =
    dpCompare c a (aluTst s.flags (s.reg rn) (o.out s).value (o.out s).carry) s := by cases o <;> rfl

theorem exec_opTeq : exec (opTeq.instr c a rn rd o) s =
    dpCompare c a (aluTeq s.flags (s.reg rn) (o.out s).value (o.out s).carry) s := by cases o <;> rfl

theorem exec_opCmp : exec (opCmp.instr c a rn rd o) s =
    dpCompare c a (aluCmp s.flags (s.reg rn) (o.out s).value (o.out s).carry) s := by cases o <;> rfl

theorem exec_opCmn : exec (opCmn.instr c a rn rd o) s =
    dpCompare c a (aluCmn s.flags (s.reg rn) (o.out s).value (o.out s).carry) s := by cases o <;> rfl

theorem exec_opOrr : exec (opOrr.instr c a rn rd o) s =
    dpWrite c a rd (aluOrr s.flags (s.reg rn) (o.out s).value (o.out s).carry) s := by cases o <;> rfl

theorem exec_opMov : exec (opMov.instr c a rn rd o) s =
    dpWrite c a rd (aluMov s.flags (o.out s).value (o.out s).carry) s := by cases o <;> rfl

theorem exec_opBic : exec (opBic.instr c a rn rd o) s =
    dpWrite c a rd (aluBic s.flags (s.reg rn) (o.out s).value (o.out s).carry) s := by cases o <;> rfl

theorem exec_opMvn : exec (opMvn.instr c a rn rd o) s =
    dpWrite c a rd (aluMvn s.flags (o.out s).value (o.out s).carry) s := by cases o <;> rfl

end

/-! ## The logical opcodes -/

/-- The model's flags of a logical opcode (rule R126) are those the statements name. -/
theorem flags_logicalOut (s : State) (carry : Bool) (r : Word) :
    (logicalOut s.flags carry r).flags = logicalFlags s r carry := rfl

theorem dpWrite_logicalOut {c : Cond} {rd : Reg} {s : State} (hc : condHolds c s.flags = true) (hrd : rd ≠ 15)
    (a carry : Bool) (r : Word) :
    dpWrite c a rd (logicalOut s.flags carry r) s = writes s a rd r (logicalFlags s r carry) := by
  rw [← flags_logicalOut]
  exact dpWrite_of_result hc hrd a rfl

theorem dpCompare_logicalOut {c : Cond} {s : State} (hc : condHolds c s.flags = true) (a carry : Bool) (r : Word) :
    dpCompare c a (logicalOut s.flags carry r) s = compares s a (logicalFlags s r carry) := by
  rw [← flags_logicalOut, dpCompare_of_holds hc]

/-- Settles O20: each opcode writes its `logicalOut`. -/
theorem logicalOpcodesComplete : Obligations.LogicalOpcodesComplete := by
  intro c a rn rd o s hc hrd
  rw [exec_opAnd, exec_opEor, exec_opOrr, exec_opBic]
  exact ⟨dpWrite_logicalOut hc hrd .., dpWrite_logicalOut hc hrd .., dpWrite_logicalOut hc hrd ..,
    dpWrite_logicalOut hc hrd ..⟩

/-- Settles O21: Rn stands in neither equation of the two mnemonics. -/
theorem moveOpcodesComplete : Obligations.MoveOpcodesComplete := by
  intro c a rn rd o s hc hrd
  rw [exec_opMov, exec_opMvn]
  exact ⟨dpWrite_logicalOut hc hrd .., dpWrite_logicalOut hc hrd ..⟩

/-- Settles O24: each opcode compares by its `logicalOut`, and Rd stands in neither equation. -/
theorem testOpcodesComplete : Obligations.TestOpcodesComplete := by
  intro c a rn rd o s hc
  rw [exec_opTst, exec_opTeq]
  exact ⟨dpCompare_logicalOut hc .., dpCompare_logicalOut hc ..⟩

/-! ## The arithmetic opcodes -/

theorem result_addWithCarry_false (x y : Word) : (addWithCarry x y false).result = x + y := by
  rw [result_addWithCarry]; exact BitVec.add_zero _

/-- Settles O22: the results by the laws of AddWithCarry with a fixed carry-in. -/
theorem addAndSubtractComplete : Obligations.AddAndSubtractComplete := by
  intro c a rn rd o s hc hrd
  rw [exec_opSub, exec_opRsb, exec_opAdd]
  exact ⟨dpWrite_of_result hc hrd a (result_addWithCarry_not ..),
    dpWrite_of_result hc hrd a (result_addWithCarry_not ..),
    dpWrite_of_result hc hrd a (result_addWithCarry_false ..)⟩

/-- Settles O23: the results by the laws of AddWithCarry with the C flag as carry-in. -/
theorem carryOpcodesComplete : Obligations.CarryOpcodesComplete := by
  intro c a rn rd o s hc hrd
  rw [exec_opAdc, exec_opSbc, exec_opRsc]
  exact ⟨dpWrite_of_result hc hrd a (result_addWithCarry ..),
    dpWrite_of_result hc hrd a (result_addWithCarry_borrow ..),
    dpWrite_of_result hc hrd a (result_addWithCarry_borrow ..)⟩

/-! ## The flags of a sum and of a difference -/

/-- The flags of AddWithCarry, N and Z and V through its result (rule R127). -/
theorem flags_addWithCarry (x y : Word) (k : Bool) :
    (addWithCarry x y k).flags = ⟨(addWithCarry x y k).result.msb, decide ((addWithCarry x y k).result = 0),
      decide (2 ^ 32 ≤ x.toNat + y.toNat + k.toNat),
      decide (x.toInt + y.toInt + (k.toNat : Int) ≠ (addWithCarry x y k).result.toInt)⟩ := rfl

theorem flags_addWithCarry_false (x y : Word) :
    (addWithCarry x y false).flags = ⟨(x + y).msb, decide (x + y = 0), decide (2 ^ 32 ≤ x.toNat + y.toNat),
      decide (x.toInt + y.toInt ≠ (x + y).toInt)⟩ := by
  rw [flags_addWithCarry, result_addWithCarry_false]
  simp

/-- The signed value of a complement: adding 1 to it negates. -/
theorem toInt_complement (y : Word) : (~~~y).toInt = -y.toInt - 1 := by
  have hy := y.isLt
  rw [BitVec.toInt_eq_toNat_cond, BitVec.toInt_eq_toNat_cond, BitVec.toNat_not]
  split_ifs <;> omega

theorem flags_addWithCarry_not (x y : Word) :
    (addWithCarry x (~~~y) true).flags = ⟨(x - y).msb, decide (x = y), decide (y.toNat ≤ x.toNat),
      decide (x.toInt - y.toInt ≠ (x - y).toInt)⟩ := by
  have hzero : x - y = 0 ↔ x = y := sub_eq_zero
  have hcarry : 2 ^ 32 ≤ x.toNat + (~~~y).toNat + true.toNat ↔ y.toNat ≤ x.toNat := by
    have hy := y.isLt
    rw [BitVec.toNat_not, Bool.toNat_true]
    omega
  have hdiff : x.toInt + (~~~y).toInt + ((true.toNat : Nat) : Int) = x.toInt - y.toInt := by
    rw [toInt_complement, Bool.toNat_true]
    omega
  rw [flags_addWithCarry, result_addWithCarry_not]
  simp only [hzero, hcarry, hdiff]

/-- Settles O25: CMP by the flags of a difference, CMN by those of a sum; Rd stands in neither equation. -/
theorem compareOpcodesComplete : Obligations.CompareOpcodesComplete := by
  intro c a rn rd o s hc
  rw [exec_opCmp, exec_opCmn, dpCompare_of_holds hc, dpCompare_of_holds hc, aluCmp, aluCmn, flags_addWithCarry_not,
    flags_addWithCarry_false]
  exact ⟨rfl, rfl⟩

end Sys2Proof.Machine
end

section
/-! PROOFS. Swap (`44_swap.md`): what rule R161 lets pass, and the next state of a swap of either width (rule R160). -/

namespace Sys2Proof.Machine

open Sys2Proof.Claims

/-- Conversely to `swapRefusal_none`: each check of rule R161 needs one of the equalities excluded here. -/
theorem swapRefusal_eq_none {rn rd rm : Reg} (hrd : rd ≠ Reg.pc) (hrn : rn ≠ Reg.pc) (hrm : rm ≠ Reg.pc)
    (hnd : rn ≠ rd) (hnm : rn ≠ rm) : swapRefusal rn rd rm = none := by
  rw [swapRefusal, if_neg hrd, if_neg (not_or.2 ⟨hrn, hrm⟩), if_neg (not_or.2 ⟨hnd, hnm⟩)]

/-- Past the condition and the refusal checks, a swap loads Rd from the memory before the store. -/
theorem swapAt_of_holds {c : Cond} {rn rd rm : Reg} {s : State} (hc : condHolds c s.flags = true)
    (hr : swapRefusal rn rd rm = none) (wd : Width) :
    swapAt wd c rn rd rm s = .next { after s (with1 s rd (s.mem.load wd (s.reg rn))) s.flags with
      mem := s.mem.store wd (s.reg rn) (s.reg rm) } := by
  rw [swapAt, whenCond_of_holds hc, hr, unlessRefused_none]
  rfl

/-- A byte store writes the register truncated to its low byte (rule R12). -/
theorem store_byte (m : Memory) (a v : Word) : m.store .byte a v = m.writeByte a (v.setWidth 8) := by
  rw [Memory.store, BitVec.setWidth_eq_extractLsb' (by decide)]

/-- Settles O30: the two instructions are the swap at the two widths. -/
theorem swapComplete : Obligations.SwapComplete := by
  intro c rn rd rm s hc hrd hrn hrm hnd hnm
  have hswap := swapAt_of_holds hc (swapRefusal_eq_none hrd hrn hrm hnd hnm)
  refine ⟨hswap .word, ?_⟩
  rw [← store_byte]
  exact hswap .byte

end Sys2Proof.Machine
end

section
/-! PROOFS. Branch (`45_branch.md`): a redirection as a next state, the branch offset as a number, the mask of an
exchange bit by bit, and the obligations about the next states of B, BL and BX. -/

namespace Sys2Proof.Machine

open Sys2Proof.Claims

/-- A redirection writes R15 and the report, and nothing else (rule R95). -/
theorem redirect_eq_with1 (s : State) (target : Word) :
    s.redirect target = { s with regs := with1 s 15 target, report := .executed .redirected } := rfl

/-! ## B and BL -/

theorem branchOffset_eq_ofInt (offset24 : BitVec 24) : branchOffset offset24 = BitVec.ofInt 32 (4 * offset24.toInt) := by
  rw [← toInt_branchOffset, BitVec.ofInt_toInt]

section
variable {c : Cond} {s : State} (hc : condHolds c s.flags = true) (offset24 : BitVec 24)
include hc

theorem exec_b_of_holds : exec (.b c offset24) s = .next (s.redirect (s.pc + branchOffset offset24)) :=
  whenCond_of_holds hc _

theorem exec_bl_of_holds : exec (.bl c offset24) s =
    .next ((s.setReg Reg.lr (s.pc - 4)).redirect (s.pc + branchOffset offset24)) :=
  whenCond_of_holds hc _

end

/-- The link address: R15 reads A + 8, and 4 less is the address of the next instruction (rule R172). -/
theorem add_eight_sub_four (A : Word) : A + 8 - 4 = A + 4 := by bv_omega

/-- Settles O39: the target by the value of the branch offset, the link by `add_eight_sub_four`. -/
theorem branchAndLinkComplete : Obligations.BranchAndLinkComplete := by
  intro c s A offset24 hc hpc
  rw [exec_b_of_holds hc, exec_bl_of_holds hc, branchOffset_eq_ofInt, hpc, add_eight_sub_four]
  exact ⟨congrArg _ (redirect_eq_with1 s _), congrArg _ (redirect_eq_with1 (s.setReg Reg.lr (A + 4)) _)⟩

/-! ## BX -/

theorem exec_bx_of_holds {c : Cond} {s : State} (hc : condHolds c s.flags = true) (rm : Reg) : exec (.bx c rm) s =
    .next ((s.setTag (exchangeTag (s.reg rm))).redirect (s.reg rm &&& 0xFFFFFFFE)) :=
  whenCond_of_holds hc _

/-- The mask of an exchange clears bit 0 and keeps every other bit (rule R173). -/
theorem getLsbD_and_exchangeMask (v : Word) (i : Nat) :
    (v &&& 0xFFFFFFFE).getLsbD i = (v.getLsbD i && decide (i ≠ 0)) := by
  have hmask : (0xFFFFFFFE : Word) = ~~~1#32 := by decide
  rw [hmask, BitVec.getLsbD_and, BitVec.getLsbD_not, BitVec.getLsbD_one]
  by_cases hi : i < 32
  · simp [hi]
  · rw [BitVec.getLsbD_of_ge v i (Nat.not_lt.1 hi), Bool.false_and, Bool.false_and]

/-- Settles O40: the target is the source value under the exchange's mask. -/
theorem branchExchangeComplete : Obligations.BranchExchangeComplete := by
  intro c rm s hc
  refine ⟨s.reg rm &&& 0xFFFFFFFE, ?_, fun i hi => ?_, ?_⟩
  · rw [getLsbD_and_exchangeMask, decide_eq_false (not_not.2 rfl), Bool.and_false]
  · rw [getLsbD_and_exchangeMask, decide_eq_true hi.ne', Bool.and_true]
  · rw [exec_bx_of_holds hc, redirect_eq_with1]
    rfl

end Sys2Proof.Machine
end

section
/-! PROOFS. Block data transfer (`47_block_data_transfer.md`): what rule R192 lets pass, the four addressing modes of
rule R190 as the statements write them, and the next states of LDM and STM (rules R193, R194). -/

namespace Sys2Proof.Machine

open Sys2Proof.Claims

/-- Conversely to `blockRefusal_none`: each check of rule R192 needs one of the conditions excluded here. -/
theorem blockRefusal_eq_none {load : Bool} {bm : BlockMode} {rn : Reg} {list : BitVec 16} (hs : bm.s = false)
    (hlist : list ≠ 0#16) (hrn : rn ≠ Reg.pc) (hpc : load = true → list.getLsbD 15 = false)
    (hbase : bm.w = true → list.getLsbD rn.val = false) : blockRefusal load bm rn list = none := by
  have hload : ¬(load = true ∧ list.getLsbD 15 = true) := fun h => Bool.eq_false_iff.1 (hpc h.1) h.2
  have hwrite : ¬(bm.w = true ∧ list.getLsbD rn.val = true) := fun h => Bool.eq_false_iff.1 (hbase h.1) h.2
  rw [blockRefusal, if_neg (Bool.eq_false_iff.1 hs), if_neg hlist, if_neg hrn, if_neg hload, if_neg hwrite]

/-- The start address of rule R190, by U and then by P. -/
theorem blockStart_eq_ite (bm : BlockMode) (base bytes : Word) :
    blockStart bm base bytes =
      if bm.u then (if bm.p then base + 4 else base) else (if bm.p then base - bytes else base - bytes + 4) := by
  obtain ⟨p, u, s, w⟩ := bm
  cases u <;> cases p <;> rfl

theorem length_listedRegs_le (list : BitVec 16) : (listedRegs list).length ≤ 16 := List.length_filter_le ..

/-! ## The next states -/

section
variable {c : Cond} {bm : BlockMode} {rn : Reg} {list : BitVec 16} {s : State} (hc : condHolds c s.flags = true)
include hc

theorem exec_ldm_of_holds (hr : blockRefusal true bm rn list = none) : exec (.ldm c bm rn list) s =
    .next (loadRegs s.mem (blockStart bm (s.reg rn) (listBytes list)) (listedRegs list)
      (s.blockBase bm rn (s.reg rn) (listBytes list))).finish := by
  rw [exec, execLdm, whenCond_of_holds hc, hr, unlessRefused_none]

theorem exec_stm_of_holds (hr : blockRefusal false bm rn list = none) : exec (.stm c bm rn list) s =
    .next ((s.setMem (storeRegs s (blockStart bm (s.reg rn) (listBytes list)) (listedRegs list) s.mem)).blockBase bm rn
      (s.reg rn) (listBytes list)).finish := by
  rw [exec, execStm, whenCond_of_holds hc, hr, unlessRefused_none]

end

section
variable (s : State) (m : Memory) (bm : BlockMode) (rn : Reg) (base bytes : Word)

/-- After a load, a register outside the list is as the write-back of the base leaves it. -/
theorem reg_loadRegs_blockBase_of_notMem (a : Word) {l : List Reg} {q : Reg} (hq : q ∉ l) :
    (loadRegs m a l (s.blockBase bm rn base bytes)).reg q =
      if bm.w = true ∧ q = rn then blockWriteBack bm base bytes else s.reg q := by
  rw [reg_loadRegs_of_notMem _ _ _ _ q hq, reg_blockBase]

/-- What a load leaves unchanged (rule R193): everything but registers and report. -/
theorem finish_loadRegs_eq (a : Word) (l : List Reg) :
    (loadRegs m a l (s.blockBase bm rn base bytes)).finish = { s with
      regs := (loadRegs m a l (s.blockBase bm rn base bytes)).finish.regs, report := .executed .continued } :=
  state_ext (fun _ => rfl) (by simp) (by simp) (by simp) (by simp) rfl (by simp)

/-- What a store leaves unchanged (rule R194): everything but the memory, the report and a written-back base. -/
theorem finish_blockBase_eq :
    ((s.setMem m).blockBase bm rn base bytes).finish = { s with
      regs := if bm.w then with1 s rn (blockWriteBack bm base bytes) else s.regs, mem := m,
      report := .executed .continued } := by
  rw [State.blockBase]
  cases bm.w <;> rfl

end

/-- Settles O36: the listed registers by `loadRegs_get`, the others by `reg_loadRegs_blockBase_of_notMem`. -/
theorem loadMultipleComplete : Obligations.LoadMultipleComplete := by
  intro c bm rn list s hc hs hlist hrn hpc hbase regs bytes base start wbval
  have hrun := exec_ldm_of_holds hc (blockRefusal_eq_none hs hlist hrn (fun _ => hpc) hbase)
  rw [blockStart_eq_ite] at hrun
  have hother := fun q hq => reg_loadRegs_blockBase_of_notMem s s.mem bm rn base bytes start (l := regs) (q := q) hq
  refine ⟨_, hrun, fun k hk => ?_, fun hw => ?_, fun q hq hw => ?_, finish_loadRegs_eq ..⟩
  · exact loadRegs_get _ _ _ _ (listedRegs_nodup list) k hk
  · have hrnOut : rn ∉ regs := fun h => Bool.eq_false_iff.1 (hbase hw) ((mem_listedRegs list rn).1 h)
    exact (hother rn hrnOut).trans (if_pos ⟨hw, rfl⟩)
  · exact (hother q hq).trans (if_neg fun h => hw h.1 h.2)

/-- Settles O37: the bytes by `storeRegs_spec`, the rest by `finish_blockBase_eq`. -/
theorem storeMultipleComplete : Obligations.StoreMultipleComplete := by
  intro c bm rn list s hc hs hlist hrn hbase hwf regs bytes base start wbval
  obtain ⟨hmap, _, hstored, hkept⟩ := storeRegs_spec s regs start s.mem hwf (length_listedRegs_le list)
  have hrun := exec_stm_of_holds hc (blockRefusal_eq_none hs hlist hrn (nomatch ·) hbase)
  rw [blockStart_eq_ite, finish_blockBase_eq] at hrun
  exact ⟨_, hrun, hstored, hkept, hmap, rfl⟩

end Sys2Proof.Machine
end

section
/-! PROOFS. The decode tree against the opcode table (`30_encoding.md` rule R83): every word lies in the row of the
instruction read from it, and in no other. -/

namespace Sys2Proof

/-! ## A row as the bits it fixes -/

/-- The bits a mask selects. -/
def maskBits (m : Word) : List Nat := (List.range 32).filter m.getLsbD

/-- A word lies in a row when the bits the mask selects are those of the match (rule R83). -/
theorem inRow_iff_bits {m k : Word} (hk : k &&& m = k) (w : Word) :
    inRow m k w = true ↔ ∀ i ∈ maskBits m, bitAt w i = k.getLsbD i := by
  simp only [inRow, beq_iff_eq, maskBits, List.mem_filter, List.mem_range]
  refine ⟨fun h i hi => bit_of_mask h i hi.2, fun h => (and_eq_iff m k w).2 fun i hi => ?_⟩
  cases hm : m.getLsbD i with
  | true => rw [Bool.and_true, ← h i ⟨hi, hm⟩]
  | false => rw [← hk, BitVec.getLsbD_and, hm, Bool.and_false, Bool.and_false]

/-- The rows of the opcode table but the reserved-condition one, in the order of `Instr`. -/
def rows : List (Word × Word) := [
  (0x0FE00000, 0x02000000), (0x0FE00000, 0x02200000), (0x0FE00000, 0x02400000), (0x0FE00000, 0x02600000),
  (0x0FE00000, 0x02800000), (0x0FE00000, 0x02A00000), (0x0FE00000, 0x02C00000), (0x0FE00000, 0x02E00000),
  (0x0FE00000, 0x03000000), (0x0FE00000, 0x03200000), (0x0FE00000, 0x03400000), (0x0FE00000, 0x03600000),
  (0x0FE00000, 0x03800000), (0x0FE00000, 0x03A00000), (0x0FE00000, 0x03C00000), (0x0FE00000, 0x03E00000),
  (0x0FE00010, 0x00000000), (0x0FE00010, 0x00200000), (0x0FE00010, 0x00400000), (0x0FE00010, 0x00600000),
  (0x0FE00010, 0x00800000), (0x0FE00010, 0x00A00000), (0x0FE00010, 0x00C00000), (0x0FE00010, 0x00E00000),
  (0x0FE00010, 0x01000000), (0x0FE00010, 0x01200000), (0x0FE00010, 0x01400000), (0x0FE00010, 0x01600000),
  (0x0FE00010, 0x01800000), (0x0FE00010, 0x01A00000), (0x0FE00010, 0x01C00000), (0x0FE00010, 0x01E00000),
  (0x0FA000F0, 0x00000090), (0x0FA000F0, 0x00200090), (0x0FE000F0, 0x00800090), (0x0FE000F0, 0x00A00090),
  (0x0FE000F0, 0x00C00090), (0x0FE000F0, 0x00E00090), (0x0F4000F0, 0x01000090), (0x0F4000F0, 0x01400090),
  (0x0F000000, 0x0A000000), (0x0F000000, 0x0B000000), (0x0E000090, 0x00000010),
  (0x0E500000, 0x04100000), (0x0E500000, 0x04000000), (0x0E500000, 0x04500000), (0x0E500000, 0x04400000),
  (0x0E500010, 0x06100000), (0x0E500010, 0x06000000), (0x0E500010, 0x06500000), (0x0E500010, 0x06400000),
  (0x0E100000, 0x08100000), (0x0E100000, 0x08000000), (0x0E0000F0, 0x000000B0), (0x0E0000F0, 0x000000D0),
  (0x0E0000F0, 0x000000F0), (0x0E000010, 0x06000010), (0x0C000000, 0x0C000000)]

theorem row_mem_rows {i : Instr} (h : i.row ≠ (0xF0000000, 0xF0000000)) : i.row ∈ rows := by
  have hmem : rows.elem i.row = true := by
    cases i
    case errReservedCondition => contradiction
    all_goals rfl
  exact List.elem_iff.1 hmem

/-- The bits of a row outside its mask are 0 in its match. -/
theorem row_match_masked (i : Instr) : i.row.2 &&& i.row.1 = i.row.2 := by
  have hrows : (rows.all fun r => r.2 &&& r.1 == r.2) = true := by decide +kernel
  by_cases h : i.row = (0xF0000000, 0xF0000000)
  · rw [h]; decide
  · exact beq_iff_eq.1 (List.all_eq_true.1 hrows _ (row_mem_rows h))

/-- The word lies in the instruction's own row of the opcode table. -/
def InOwnRow (i : Instr) (w : Word) : Prop := inRow i.row.1 i.row.2 w = true

theorem inOwnRow_iff_bits (i : Instr) (w : Word) :
    InOwnRow i w ↔ ∀ k ∈ maskBits i.row.1, bitAt w k = i.row.2.getLsbD k := inRow_iff_bits (row_match_masked i) w

/-! ## Own row -/

/-- A data-processing word with an immediate operand2 lies in the row of its opcode. -/
theorem inOwnRow_dpImmOf {w : Word} {b24 b23 b22 b21 : Bool} (c : Cond) (s : Bool) (rn rd : Reg) (o : RotImm)
    (hclass : bitAt w 27 = false ∧ bitAt w 26 = false ∧ bitAt w 25 = true)
    (hop : bitAt w 24 = b24 ∧ bitAt w 23 = b23 ∧ bitAt w 22 = b22 ∧ bitAt w 21 = b21) :
    InOwnRow (dpImmOf b24 b23 b22 b21 c s rn rd o) w := by
  have hmask : maskBits 0x0FE00000#32 = [21, 22, 23, 24, 25, 26, 27] := by decide
  rw [inOwnRow_iff_bits]
  unfold dpImmOf
  split <;> simp [Instr.row, hmask, hclass, hop, -BitVec.getLsbD_eq_getElem]

/-- A data-processing word with a register operand2 lies in the row of its opcode. -/
theorem inOwnRow_dpRegOf {w : Word} {b24 b23 b22 b21 : Bool} (c : Cond) (s : Bool) (rn rd : Reg) (o : ShiftedReg)
    (hclass : bitAt w 27 = false ∧ bitAt w 26 = false ∧ bitAt w 25 = false ∧ bitAt w 4 = false)
    (hop : bitAt w 24 = b24 ∧ bitAt w 23 = b23 ∧ bitAt w 22 = b22 ∧ bitAt w 21 = b21) :
    InOwnRow (dpRegOf b24 b23 b22 b21 c s rn rd o) w := by
  have hmask : maskBits 0x0FE00010#32 = [4, 21, 22, 23, 24, 25, 26, 27] := by decide
  rw [inOwnRow_iff_bits]
  unfold dpRegOf
  split <;> simp [Instr.row, hmask, hclass, hop, -BitVec.getLsbD_eq_getElem]

/-- A word with bits 7 and 4 set lies in a row of the halfword bucket, of the swaps or of the multiplies. -/
theorem inOwnRow_decodeExtension (c : Cond) {w : Word} (hclass : bitAt w 27 = false ∧ bitAt w 26 = false ∧
    bitAt w 25 = false ∧ bitAt w 7 = true ∧ bitAt w 4 = true) : InOwnRow (decodeExtension c w) w := by
  have hhalf : maskBits 0x0E0000F0#32 = [4, 5, 6, 7, 25, 26, 27] := by decide
  have hswap : maskBits 0x0F4000F0#32 = [4, 5, 6, 7, 22, 24, 25, 26, 27] := by decide
  have hlong : maskBits 0x0FE000F0#32 = [4, 5, 6, 7, 21, 22, 23, 24, 25, 26, 27] := by decide
  have hmul : maskBits 0x0FA000F0#32 = [4, 5, 6, 7, 21, 23, 24, 25, 26, 27] := by decide
  rw [inOwnRow_iff_bits, decodeExtension]
  split
  case h_4 h6 h5 =>
    split_ifs with h24 h23
    · rw [decodeSwap]
      split <;> simp [Instr.row, *, -BitVec.getLsbD_eq_getElem]
    · rw [decodeMulLong]
      split <;> simp [Instr.row, *, -BitVec.getLsbD_eq_getElem]
    · rw [decodeMul]
      split <;> simp [Instr.row, *, -BitVec.getLsbD_eq_getElem]
  all_goals simp [Instr.row, *, -BitVec.getLsbD_eq_getElem]

theorem inOwnRow_decodeSingleImm (c : Cond) {w : Word}
    (hclass : bitAt w 27 = false ∧ bitAt w 26 = true ∧ bitAt w 25 = false) : InOwnRow (decodeSingleImm c w) w := by
  have hmask : maskBits 0x0E500000#32 = [20, 22, 25, 26, 27] := by decide
  rw [inOwnRow_iff_bits, decodeSingleImm]
  split <;> simp [Instr.row, *, -BitVec.getLsbD_eq_getElem]

theorem inOwnRow_decodeSingleReg (c : Cond) {w : Word} (hclass : bitAt w 27 = false ∧ bitAt w 26 = true ∧
    bitAt w 25 = true ∧ bitAt w 4 = false) : InOwnRow (decodeSingleReg c w) w := by
  have hmask : maskBits 0x0E500010#32 = [4, 20, 22, 25, 26, 27] := by decide
  rw [inOwnRow_iff_bits, decodeSingleReg]
  split <;> simp [Instr.row, *, -BitVec.getLsbD_eq_getElem]

theorem inOwnRow_decodeBranch (c : Cond) {w : Word}
    (hclass : bitAt w 27 = true ∧ bitAt w 26 = false ∧ bitAt w 25 = true) : InOwnRow (decodeBranch c w) w := by
  have hmask : maskBits 0x0F000000#32 = [24, 25, 26, 27] := by decide
  rw [inOwnRow_iff_bits, decodeBranch]
  split <;> simp [Instr.row, *, -BitVec.getLsbD_eq_getElem]

theorem inOwnRow_decodeBlock (c : Cond) {w : Word}
    (hclass : bitAt w 27 = true ∧ bitAt w 26 = false ∧ bitAt w 25 = false) : InOwnRow (decodeBlock c w) w := by
  have hmask : maskBits 0x0E100000#32 = [20, 25, 26, 27] := by decide
  rw [inOwnRow_iff_bits, decodeBlock]
  split <;> simp [Instr.row, *, -BitVec.getLsbD_eq_getElem]

/-- Each leaf of the decode tree reads a row whose bits the path to it has tested (rule R83). -/
theorem inOwnRow_decodeBody (c : Cond) (w : Word) : InOwnRow (decodeBody c w) w := by
  have hbx : maskBits 0x0E000090#32 = [4, 7, 25, 26, 27] := by decide
  have hundef : maskBits 0x0E000010#32 = [4, 25, 26, 27] := by decide
  have hcop : maskBits 0x0C000000#32 = [26, 27] := by decide
  rw [decodeBody]
  split
  case h_1 h27 h26 =>
    split_ifs with h25 h4 h7
    · exact inOwnRow_dpImmOf _ _ _ _ _ ⟨h27, h26, h25⟩ ⟨rfl, rfl, rfl, rfl⟩
    all_goals rw [Bool.not_eq_true] at h25
    · exact inOwnRow_dpRegOf _ _ _ _ _ ⟨h27, h26, h25, h4⟩ ⟨rfl, rfl, rfl, rfl⟩
    all_goals rw [Bool.not_eq_false] at h4
    · rw [inOwnRow_iff_bits]
      simp [decodeBx, Instr.row, hbx, h27, h26, h25, h7, h4, -BitVec.getLsbD_eq_getElem]
    · exact inOwnRow_decodeExtension c ⟨h27, h26, h25, Bool.not_eq_false _ ▸ h7, h4⟩
  case h_2 h27 h26 =>
    split_ifs with h25 h4
    · exact inOwnRow_decodeSingleImm c ⟨h27, h26, h25⟩
    all_goals rw [Bool.not_eq_false] at h25
    · rw [inOwnRow_iff_bits]
      simp [Instr.row, hundef, h27, h26, h25, h4, -BitVec.getLsbD_eq_getElem]
    · exact inOwnRow_decodeSingleReg c ⟨h27, h26, h25, Bool.eq_false_iff.2 h4⟩
  case h_3 h27 h26 =>
    split_ifs with h25
    · exact inOwnRow_decodeBranch c ⟨h27, h26, h25⟩
    · exact inOwnRow_decodeBlock c ⟨h27, h26, Bool.eq_false_iff.2 h25⟩
  case h_4 h27 h26 =>
    rw [inOwnRow_iff_bits]
    simp [Instr.row, hcop, h27, h26, -BitVec.getLsbD_eq_getElem]

/-! ## No other row -/

/-- No word lies in two rows but the reserved-condition one: any two of the others differ in a bit that both select. -/
theorem rows_apart : rows.Pairwise fun r q => r.2 &&& q.1 ≠ q.2 &&& r.1 := by decide +kernel

theorem row_eq_of_mem_rows {r q : Word × Word} {w : Word} (hr : r ∈ rows) (hq : q ∈ rows)
    (hwr : inRow r.1 r.2 w = true) (hwq : inRow q.1 q.2 w = true) : r = q := by
  have hsymm : Std.Symm fun r q : Word × Word => r.2 &&& q.1 ≠ q.2 &&& r.1 := ⟨fun _ _ h => h.symm⟩
  by_contra hne
  refine rows_apart.forall hr hq hne ?_
  rw [← beq_iff_eq.1 hwr, ← beq_iff_eq.1 hwq, BitVec.and_assoc, BitVec.and_assoc, BitVec.and_comm r.1]

/-! ## The condition field -/

theorem decodeWord_of_not_hasCondition {w : Word} (h : hasCondition w = false) :
    decodeWord w = .errReservedCondition w := by
  have hnone := Option.eq_none_iff_forall_ne_some.2 fun c hc => Bool.eq_false_iff.1 h ((hasCondition_iff w).2 ⟨c, hc⟩)
  rw [decodeWord, hnone]

theorem decodeWord_of_hasCondition {w : Word} (h : hasCondition w = true) : ∃ c, decodeWord w = decodeBody c w := by
  obtain ⟨c, hc⟩ := (hasCondition_iff w).1 h
  exact ⟨c, decodeWord_eq_decodeBody hc⟩

theorem wellFormed_of_inOwnRow {i : Instr} {w : Word} (hrow : InOwnRow i w) (hcond : hasCondition w = true)
    (hword : ∀ e, i.decodeError = some e → e.word = w) : i.wellFormed = true := by
  cases i
  case errReservedCondition => obtain rfl := hword _ rfl; exact hrow
  case errHalfword01 | errHalfword10 | errHalfword11 | errUndefined | errCoprocessorOrSwi =>
    obtain rfl := hword _ rfl
    exact Bool.and_eq_true_iff.2 ⟨hcond, hrow⟩
  all_goals rfl

theorem word_of_decodeError_decodeBody {c : Cond} {w : Word} {e : DecodeError}
    (h : (decodeBody c w).decodeError = some e) : e.word = w := by
  rw [decodeError_decodeBody] at h
  split_ifs at h <;> obtain rfl := Option.some.inj h <;> rfl

theorem not_reserved_of_inOwnRow {i : Instr} {w : Word} (hcond : hasCondition w = true) (hrow : InOwnRow i w) :
    i.row ≠ (0xF0000000, 0xF0000000) := by
  intro h
  rw [InOwnRow, h] at hrow
  simp only [hasCondition, hrow, Bool.not_true, Bool.false_eq_true] at hcond

/-- Settles O10: the row of the instruction read by `inOwnRow_decodeBody`, that there is no other by
`row_eq_of_mem_rows`. -/
theorem everyWordLiesInExactlyItsRow : Obligations.EveryWordLiesInExactlyItsRow := by
  intro w
  cases hcond : hasCondition w with
  | false =>
    rw [decodeWord_of_not_hasCondition hcond]
    have hres := (Bool.not_eq_false' _).mp hcond
    exact ⟨hres, hres, fun _ h => nomatch h⟩
  | true =>
    obtain ⟨c, hc⟩ := decodeWord_of_hasCondition hcond
    rw [hc]
    have hrow := inOwnRow_decodeBody c w
    exact ⟨wellFormed_of_inOwnRow hrow hcond fun _ => word_of_decodeError_decodeBody, hrow, fun i _ hi hrow' =>
      row_eq_of_mem_rows (row_mem_rows hi) (row_mem_rows (not_reserved_of_inOwnRow hcond hrow)) hrow' hrow⟩

end Sys2Proof
end

section
/-! PROOFS. Decoding undoes encoding (`30_encoding.md` sections 2 to 4): format by format, the selecting bits and the
fields lie where the decode tree reads them. -/

namespace Sys2Proof

/-! ## The formats -/

theorem decodeWord_encodeDpImm (op : BitVec 4) (c : Cond) (s : Bool) (rn rd : Reg) (o : RotImm) :
    decodeWord (encodeDpImm op c s rn rd o) =
      dpImmOf (op.getLsbD 3) (op.getLsbD 2) (op.getLsbD 1) (op.getLsbD 0) c s rn rd o := by
  set w := encodeDpImm op c s rn rd o with hw
  have hcond : Cond.ofBits (bitAt w 31) (bitAt w 30) (bitAt w 29) (bitAt w 28) = some c := by
    simp [hw, encodeDpImm, -BitVec.getLsbD_eq_getElem]
  have hclass : bitAt w 27 = false ∧ bitAt w 26 = false ∧ bitAt w 25 = true := by
    simp [hw, encodeDpImm, -BitVec.getLsbD_eq_getElem]
  have hop : bitAt w 24 = op.getLsbD 3 ∧ bitAt w 23 = op.getLsbD 2 ∧ bitAt w 22 = op.getLsbD 1 ∧
      bitAt w 21 = op.getLsbD 0 ∧ bitAt w 20 = s := by
    simp [hw, encodeDpImm, -BitVec.getLsbD_eq_getElem]
  have hfields : regAt w 16 = rn ∧ regAt w 12 = rd ∧ rotImmOf w = o := by
    simp [hw, encodeDpImm, regAt, rotImmOf, fieldAt_or, fieldAt_placeAt_same, fieldAt_placeAt_below,
      fieldAt_placeAt_above]
  rw [decodeWord_eq_decodeBody hcond]
  simp only [decodeBody, decodeDpImm, hclass, hop, hfields, if_true]

theorem decodeWord_encodeDpReg (op : BitVec 4) (c : Cond) (s : Bool) (rn rd : Reg) (o : ShiftedReg) :
    decodeWord (encodeDpReg op c s rn rd o) =
      dpRegOf (op.getLsbD 3) (op.getLsbD 2) (op.getLsbD 1) (op.getLsbD 0) c s rn rd o := by
  set w := encodeDpReg op c s rn rd o with hw
  have hcond : Cond.ofBits (bitAt w 31) (bitAt w 30) (bitAt w 29) (bitAt w 28) = some c := by
    simp [hw, encodeDpReg, ShiftedReg.word, -BitVec.getLsbD_eq_getElem]
  have hclass : bitAt w 27 = false ∧ bitAt w 26 = false ∧ bitAt w 25 = false ∧ bitAt w 4 = false := by
    simp [hw, encodeDpReg, ShiftedReg.word, -BitVec.getLsbD_eq_getElem]
  have hop : bitAt w 24 = op.getLsbD 3 ∧ bitAt w 23 = op.getLsbD 2 ∧ bitAt w 22 = op.getLsbD 1 ∧
      bitAt w 21 = op.getLsbD 0 ∧ bitAt w 20 = s := by
    simp [hw, encodeDpReg, ShiftedReg.word, -BitVec.getLsbD_eq_getElem]
  have hfields : regAt w 16 = rn ∧ regAt w 12 = rd ∧ shiftedRegOf w = o := by
    simp [hw, encodeDpReg, ShiftedReg.word, regAt, shiftedRegOf, fieldAt_or, fieldAt_placeAt_same,
      fieldAt_placeAt_below, fieldAt_placeAt_above, -BitVec.getLsbD_eq_getElem]
  rw [decodeWord_eq_decodeBody hcond]
  simp only [decodeBody, decodeDpReg, hclass, hop, hfields, Bool.false_eq_true, if_false, if_true]

theorem decodeWord_encodeMultiply (kind : BitVec 4) (c : Cond) (s : Bool) (r19 r15 rs rm : Reg)
    (hkind : kind.getLsbD 3 = false) :
    decodeWord (encodeMultiply kind c s r19 r15 rs rm) =
      if kind.getLsbD 2 then
        if kind.getLsbD 1 then
          if kind.getLsbD 0 then .smlal c s r19 r15 rs rm else .smull c s r19 r15 rs rm
        else if kind.getLsbD 0 then .umlal c s r19 r15 rs rm else .umull c s r19 r15 rs rm
      else if kind.getLsbD 0 then .mla c s r19 r15 rs rm else .mul c s r19 r15 rs rm := by
  set w := encodeMultiply kind c s r19 r15 rs rm with hw
  have hcond : Cond.ofBits (bitAt w 31) (bitAt w 30) (bitAt w 29) (bitAt w 28) = some c := by
    simp [hw, encodeMultiply, -BitVec.getLsbD_eq_getElem]
  have hclass : bitAt w 27 = false ∧ bitAt w 26 = false ∧ bitAt w 25 = false ∧ bitAt w 24 = false ∧
      bitAt w 7 = true ∧ bitAt w 6 = false ∧ bitAt w 5 = false ∧ bitAt w 4 = true := by
    simp [hw, encodeMultiply, hkind, -BitVec.getLsbD_eq_getElem]
  have hop : bitAt w 23 = kind.getLsbD 2 ∧ bitAt w 22 = kind.getLsbD 1 ∧ bitAt w 21 = kind.getLsbD 0 ∧
      bitAt w 20 = s := by
    simp [hw, encodeMultiply, -BitVec.getLsbD_eq_getElem]
  have hfields : regAt w 16 = r19 ∧ regAt w 12 = r15 ∧ regAt w 8 = rs ∧ regAt w 0 = rm := by
    simp [hw, encodeMultiply, regAt, fieldAt_or, fieldAt_placeAt_same, fieldAt_placeAt_below, fieldAt_placeAt_above]
  rw [decodeWord_eq_decodeBody hcond]
  simp only [decodeBody, decodeExtension, decodeMul, decodeMulLong, hclass, hop, hfields, Bool.false_eq_true,
    Bool.true_eq_false, if_false]
  cases kind.getLsbD 2 <;> cases kind.getLsbD 1 <;> cases kind.getLsbD 0 <;> rfl

theorem decodeWord_encodeSwap (byteSize : Bool) (c : Cond) (rn rd rm : Reg) :
    decodeWord (encodeSwap byteSize c rn rd rm) = if byteSize then .swpb c rn rd rm else .swp c rn rd rm := by
  set w := encodeSwap byteSize c rn rd rm with hw
  have hcond : Cond.ofBits (bitAt w 31) (bitAt w 30) (bitAt w 29) (bitAt w 28) = some c := by
    simp [hw, encodeSwap, -BitVec.getLsbD_eq_getElem]
  have hclass : bitAt w 27 = false ∧ bitAt w 26 = false ∧ bitAt w 25 = false ∧ bitAt w 24 = true ∧
      bitAt w 22 = byteSize ∧ bitAt w 7 = true ∧ bitAt w 6 = false ∧ bitAt w 5 = false ∧ bitAt w 4 = true := by
    simp [hw, encodeSwap, -BitVec.getLsbD_eq_getElem]
  have hfields : regAt w 16 = rn ∧ regAt w 12 = rd ∧ regAt w 0 = rm := by
    simp [hw, encodeSwap, regAt, fieldAt_or, fieldAt_placeAt_same, fieldAt_placeAt_below, fieldAt_placeAt_above]
  rw [decodeWord_eq_decodeBody hcond]
  simp only [decodeBody, decodeExtension, decodeSwap, hclass, hfields, Bool.false_eq_true, Bool.true_eq_false, if_false]
  cases byteSize <;> rfl

theorem decodeWord_encodeBx (c : Cond) (rm : Reg) : decodeWord (encodeBx c rm) = .bx c rm := by
  set w := encodeBx c rm with hw
  have hcond : Cond.ofBits (bitAt w 31) (bitAt w 30) (bitAt w 29) (bitAt w 28) = some c := by
    simp [hw, encodeBx, -BitVec.getLsbD_eq_getElem]
  have hclass : bitAt w 27 = false ∧ bitAt w 26 = false ∧ bitAt w 25 = false ∧ bitAt w 7 = false ∧
      bitAt w 4 = true := by
    simp [hw, encodeBx, -BitVec.getLsbD_eq_getElem]
  have hrm : regAt w 0 = rm := by
    simp [hw, encodeBx, regAt, fieldAt_or, fieldAt_placeAt_same, fieldAt_placeAt_below]
  rw [decodeWord_eq_decodeBody hcond]
  simp only [decodeBody, decodeBx, hclass, hrm, Bool.false_eq_true, Bool.true_eq_false, if_false, if_true]

/-- What a single transfer's word holds outside its offset field (bits 11:0), whatever the offset. -/
theorem fields_encodeSingle (i byteSize load : Bool) (c : Cond) (ix : Indexing) (rn rd : Reg) {off : Word}
    (hoff : ∀ k, 12 ≤ k → off.getLsbD k = false) :
    let w := encodeSingle i byteSize load c ix rn rd off
    Cond.ofBits (bitAt w 31) (bitAt w 30) (bitAt w 29) (bitAt w 28) = some c ∧
      (bitAt w 27 = false ∧ bitAt w 26 = true ∧ bitAt w 25 = i ∧ bitAt w 22 = byteSize ∧ bitAt w 20 = load) ∧
      indexingOf w = ix ∧ regAt w 16 = rn ∧ regAt w 12 = rd := by
  have hfree : ∀ lo n, 12 ≤ lo → fieldAt off lo n = 0 := fun lo n h =>
    (fieldAt_eq_iff off lo _).2 fun k => by simp [bitAt, hoff (lo + k) (by omega)]
  refine ⟨?_, ?_, ?_⟩
  · simp [encodeSingle, hoff, -BitVec.getLsbD_eq_getElem]
  · simp [encodeSingle, hoff, -BitVec.getLsbD_eq_getElem]
  · simp [encodeSingle, hoff, hfree, indexingOf, regAt, fieldAt_or, fieldAt_placeAt_same, fieldAt_placeAt_below,
      fieldAt_placeAt_above, -BitVec.getLsbD_eq_getElem]

theorem decodeWord_encodeSingle_imm (byteSize load : Bool) (c : Cond) (ix : Indexing) (rn rd : Reg)
    (imm12 : BitVec 12) :
    decodeWord (encodeSingle false byteSize load c ix rn rd (placeAt 0 imm12)) =
      if load then if byteSize then .ldrbImm c ix rn rd imm12 else .ldrImm c ix rn rd imm12
      else if byteSize then .strbImm c ix rn rd imm12 else .strImm c ix rn rd imm12 := by
  obtain ⟨hcond, hclass, hfields⟩ := fields_encodeSingle false byteSize load c ix rn rd (off := placeAt 0 imm12)
    fun k hk => by simp [hk, -BitVec.getLsbD_eq_getElem]
  have himm : fieldAt (encodeSingle false byteSize load c ix rn rd (placeAt 0 imm12)) 0 12 = imm12 := by
    simp [encodeSingle, fieldAt_or, fieldAt_placeAt_same, fieldAt_placeAt_below]
  rw [decodeWord_eq_decodeBody hcond]
  simp only [decodeBody, decodeSingleImm, hclass, hfields, himm, if_true]
  cases load <;> cases byteSize <;> rfl

/-- A shift descriptor takes the twelve bits of the offset field. -/
theorem getLsbD_shiftedReg_word_of_ge (o : ShiftedReg) {k : Nat} (hk : 12 ≤ k) : o.word.getLsbD k = false := by
  have hamount : o.amount.getLsbD (k - 7) = false := BitVec.getLsbD_of_ge _ _ (by omega)
  have hkind : o.kind.bits.getLsbD (k - 5) = false := BitVec.getLsbD_of_ge _ _ (by omega)
  have hrm : (Reg.bits o.rm).getLsbD k = false := BitVec.getLsbD_of_ge _ _ (by omega)
  simp [ShiftedReg.word, hamount, hkind, hrm, -BitVec.getLsbD_eq_getElem]

theorem decodeWord_encodeSingle_reg (byteSize load : Bool) (c : Cond) (ix : Indexing) (rn rd : Reg) (o : ShiftedReg) :
    decodeWord (encodeSingle true byteSize load c ix rn rd o.word) =
      if load then if byteSize then .ldrbReg c ix rn rd o else .ldrReg c ix rn rd o
      else if byteSize then .strbReg c ix rn rd o else .strReg c ix rn rd o := by
  obtain ⟨hcond, hclass, hfields⟩ := fields_encodeSingle true byteSize load c ix rn rd (off := o.word)
    fun k hk => getLsbD_shiftedReg_word_of_ge o hk
  have hoff : bitAt (encodeSingle true byteSize load c ix rn rd o.word) 4 = false ∧
      shiftedRegOf (encodeSingle true byteSize load c ix rn rd o.word) = o := by
    simp [encodeSingle, ShiftedReg.word, regAt, shiftedRegOf, fieldAt_or, fieldAt_placeAt_same, fieldAt_placeAt_below,
      fieldAt_placeAt_above, -BitVec.getLsbD_eq_getElem]
  rw [decodeWord_eq_decodeBody hcond]
  simp only [decodeBody, decodeSingleReg, hclass, hfields, hoff, Bool.true_eq_false, Bool.false_eq_true, if_false]
  cases load <;> cases byteSize <;> rfl

theorem decodeWord_encodeBlock (load : Bool) (c : Cond) (bm : BlockMode) (rn : Reg) (list : BitVec 16) :
    decodeWord (encodeBlock load c bm rn list) = if load then .ldm c bm rn list else .stm c bm rn list := by
  set w := encodeBlock load c bm rn list with hw
  have hcond : Cond.ofBits (bitAt w 31) (bitAt w 30) (bitAt w 29) (bitAt w 28) = some c := by
    simp [hw, encodeBlock, -BitVec.getLsbD_eq_getElem]
  have hclass : bitAt w 27 = true ∧ bitAt w 26 = false ∧ bitAt w 25 = false ∧ bitAt w 20 = load := by
    simp [hw, encodeBlock, -BitVec.getLsbD_eq_getElem]
  have hfields : blockModeOf w = bm ∧ regAt w 16 = rn ∧ fieldAt w 0 16 = list := by
    simp [hw, encodeBlock, regAt, blockModeOf, fieldAt_or, fieldAt_placeAt_same, fieldAt_placeAt_below,
      fieldAt_placeAt_above, -BitVec.getLsbD_eq_getElem]
  rw [decodeWord_eq_decodeBody hcond]
  simp only [decodeBody, decodeBlock, hclass, hfields, Bool.false_eq_true, if_false]
  cases load <;> rfl


/-! ## The error rows -/

/-- A word of an error bucket decodes to the error row it lies in. -/
theorem decodeWord_of_decodeError {i : Instr} {e : DecodeError} (hi : i.wellFormed = true)
    (he : i.decodeError = some e) : decodeWord (encode i) = i := by
  cases i
  case errReservedCondition w =>
    exact decodeWord_of_not_hasCondition ((Bool.not_eq_false' _).mpr hi)
  case errHalfword01 w | errHalfword10 w | errHalfword11 w | errUndefined w | errCoprocessorOrSwi w =>
    obtain ⟨hcond, hrow⟩ := Bool.and_eq_true_iff.1 hi
    obtain ⟨c, hc⟩ := decodeWord_of_hasCondition hcond
    rw [inRow_iff_bits (by decide)] at hrow
    simp [maskBits, List.range_succ, -BitVec.getLsbD_eq_getElem] at hrow
    simp [encode, hc, decodeBody, decodeExtension, hrow, -BitVec.getLsbD_eq_getElem]
  all_goals nomatch he

/-- Settles O9: each format by its lemma, an error row by the bits of its mask. -/
theorem decodeOfEncodeIsTheInstruction : Obligations.DecodeOfEncodeIsTheInstruction := by
  intro i hi
  cases i
  case mul | mla | umull | umlal | smull | smlal => exact decodeWord_encodeMultiply _ _ _ _ _ _ _ rfl
  case swp | swpb => exact decodeWord_encodeSwap ..
  case b | bl => exact decodeWord_encodeBranch ..
  case bx => exact decodeWord_encodeBx ..
  case ldrImm | strImm | ldrbImm | strbImm => exact decodeWord_encodeSingle_imm ..
  case ldrReg | strReg | ldrbReg | strbReg => exact decodeWord_encodeSingle_reg ..
  case ldm | stm => exact decodeWord_encodeBlock ..
  case errReservedCondition | errHalfword01 | errHalfword10 | errHalfword11 | errUndefined | errCoprocessorOrSwi =>
    exact decodeWord_of_decodeError hi rfl
  case andReg | eorReg | subReg | rsbReg | addReg | adcReg | sbcReg | rscReg | tstReg | teqReg | cmpReg | cmnReg |
      orrReg | movReg | bicReg | mvnReg => exact decodeWord_encodeDpReg ..
  all_goals exact decodeWord_encodeDpImm ..

end Sys2Proof
end

section
/-! PROOFS. The condition field (`30_encoding.md` rule R77): it selects the condition and nothing else. -/

namespace Sys2Proof

open Sys2Proof.Claims

/-! ## The overridden word -/

theorem bitAt_overrideCond (w : Word) (k : BitVec 4) (i : Nat) :
    bitAt (overrideCond w k) i = if i < 28 then bitAt w i else k.getLsbD (i - 28) := by
  have hmask : (0x0FFFFFFF#32) = (BitVec.allOnes 28).setWidth 32 := by decide
  rw [bitAt, overrideCond, hmask, BitVec.getLsbD_or, BitVec.getLsbD_and, BitVec.getLsbD_setWidth,
    BitVec.getLsbD_allOnes, BitVec.getLsbD_shiftLeft, BitVec.getLsbD_setWidth]
  by_cases hlow : i < 28
  · have hi : i < 32 := by omega
    simp [hlow, hi, -BitVec.getLsbD_eq_getElem]
  · by_cases hi : i < 32
    · have hk : i - 28 < 32 := by omega
      simp [hlow, hi, hk, -BitVec.getLsbD_eq_getElem]
    · simp [hlow, hi, BitVec.getLsbD_of_ge k (i - 28) (by omega), -BitVec.getLsbD_eq_getElem]

theorem bitAt_overrideCond_low (w : Word) (k : BitVec 4) {i : Nat} (hi : i < 28) :
    bitAt (overrideCond w k) i = bitAt w i := by
  rw [bitAt_overrideCond, if_pos hi]

theorem fieldAt_overrideCond (w : Word) (k : BitVec 4) {lo n : Nat} (h : lo + n ≤ 28) :
    fieldAt (overrideCond w k) lo n = fieldAt w lo n :=
  (fieldAt_eq_iff _ lo _).2 fun i => by
    rw [bitAt_overrideCond_low w k (by omega), (fieldAt_eq_iff w lo _).1 rfl i]

theorem regAt_overrideCond (w : Word) (k : BitVec 4) {lo : Nat} (h : lo + 4 ≤ 28) :
    regAt (overrideCond w k) lo = regAt w lo := by
  rw [regAt, fieldAt_overrideCond w k h, regAt]

theorem rotImmOf_overrideCond (w : Word) (k : BitVec 4) : rotImmOf (overrideCond w k) = rotImmOf w := by
  simp (disch := omega) only [rotImmOf, fieldAt_overrideCond]

theorem shiftedRegOf_overrideCond (w : Word) (k : BitVec 4) : shiftedRegOf (overrideCond w k) = shiftedRegOf w := by
  simp (disch := omega) only [shiftedRegOf, regAt_overrideCond, bitAt_overrideCond_low, fieldAt_overrideCond]

theorem indexingOf_overrideCond (w : Word) (k : BitVec 4) : indexingOf (overrideCond w k) = indexingOf w := by
  simp (disch := omega) only [indexingOf, bitAt_overrideCond_low]

theorem blockModeOf_overrideCond (w : Word) (k : BitVec 4) : blockModeOf (overrideCond w k) = blockModeOf w := by
  simp (disch := omega) only [blockModeOf, bitAt_overrideCond_low]

/-- The condition of an overridden word is the one put there. -/
theorem cond_overrideCond (w : Word) (k : BitVec 4) :
    Cond.ofBits (bitAt (overrideCond w k) 31) (bitAt (overrideCond w k) 30) (bitAt (overrideCond w k) 29)
      (bitAt (overrideCond w k) 28) = Cond.ofBits (k.getLsbD 3) (k.getLsbD 2) (k.getLsbD 1) (k.getLsbD 0) := by
  simp only [bitAt_overrideCond]
  rfl

/-! ## The decode tree on the overridden word -/

section
variable (c d : Cond) (w : Word)

theorem recond_dpImmOf (b24 b23 b22 b21 s : Bool) (rn rd : Reg) (o : RotImm) :
    recond d (dpImmOf b24 b23 b22 b21 c s rn rd o) = dpImmOf b24 b23 b22 b21 d s rn rd o := by
  unfold dpImmOf; split <;> rfl

theorem recond_dpRegOf (b24 b23 b22 b21 s : Bool) (rn rd : Reg) (o : ShiftedReg) :
    recond d (dpRegOf b24 b23 b22 b21 c s rn rd o) = dpRegOf b24 b23 b22 b21 d s rn rd o := by
  unfold dpRegOf; split <;> rfl

theorem decodeDpImm_overrideCond : decodeDpImm d (overrideCond w d.bits) = recond d (decodeDpImm c w) := by
  simp (disch := omega) only [decodeDpImm, recond_dpImmOf, bitAt_overrideCond_low, regAt_overrideCond,
    rotImmOf_overrideCond]

theorem decodeDpReg_overrideCond : decodeDpReg d (overrideCond w d.bits) = recond d (decodeDpReg c w) := by
  simp (disch := omega) only [decodeDpReg, recond_dpRegOf, bitAt_overrideCond_low, regAt_overrideCond,
    shiftedRegOf_overrideCond]

theorem decodeBx_overrideCond : decodeBx d (overrideCond w d.bits) = recond d (decodeBx c w) := by
  simp (disch := omega) only [decodeBx, regAt_overrideCond, recond]

theorem decodeSwap_overrideCond : decodeSwap d (overrideCond w d.bits) = recond d (decodeSwap c w) := by
  simp (disch := omega) only [decodeSwap, bitAt_overrideCond_low, regAt_overrideCond]
  cases bitAt w 22 <;> rfl

theorem decodeMulLong_overrideCond : decodeMulLong d (overrideCond w d.bits) = recond d (decodeMulLong c w) := by
  simp (disch := omega) only [decodeMulLong, bitAt_overrideCond_low, regAt_overrideCond]
  cases bitAt w 22 <;> cases bitAt w 21 <;> rfl

theorem decodeMul_overrideCond : decodeMul d (overrideCond w d.bits) = recond d (decodeMul c w) := by
  simp (disch := omega) only [decodeMul, bitAt_overrideCond_low, regAt_overrideCond]
  cases bitAt w 21 <;> rfl

theorem decodeExtension_overrideCond :
    decodeExtension d (overrideCond w d.bits) = recond d (decodeExtension c w) := by
  simp (disch := omega) only [decodeExtension, bitAt_overrideCond_low, decodeSwap_overrideCond c,
    decodeMulLong_overrideCond c, decodeMul_overrideCond c]
  cases bitAt w 6 <;> cases bitAt w 5
  case false.false => simp only [apply_ite (recond d)]
  all_goals rfl

theorem decodeSingleImm_overrideCond :
    decodeSingleImm d (overrideCond w d.bits) = recond d (decodeSingleImm c w) := by
  simp (disch := omega) only [decodeSingleImm, bitAt_overrideCond_low, indexingOf_overrideCond, regAt_overrideCond,
    fieldAt_overrideCond]
  cases bitAt w 20 <;> cases bitAt w 22 <;> rfl

theorem decodeSingleReg_overrideCond :
    decodeSingleReg d (overrideCond w d.bits) = recond d (decodeSingleReg c w) := by
  simp (disch := omega) only [decodeSingleReg, bitAt_overrideCond_low, indexingOf_overrideCond, regAt_overrideCond,
    shiftedRegOf_overrideCond]
  cases bitAt w 20 <;> cases bitAt w 22 <;> rfl

theorem decodeBlock_overrideCond : decodeBlock d (overrideCond w d.bits) = recond d (decodeBlock c w) := by
  simp (disch := omega) only [decodeBlock, bitAt_overrideCond_low, blockModeOf_overrideCond, regAt_overrideCond,
    fieldAt_overrideCond]
  cases bitAt w 20 <;> rfl

theorem decodeBranch_overrideCond : decodeBranch d (overrideCond w d.bits) = recond d (decodeBranch c w) := by
  simp (disch := omega) only [decodeBranch, bitAt_overrideCond_low, fieldAt_overrideCond]
  cases bitAt w 24 <;> rfl

/-- Below the condition field the overridden word reads as the word: the decode tree takes the same way and finds the
same fields. -/
theorem decodeBody_overrideCond : decodeBody d (overrideCond w d.bits) = recond d (decodeBody c w) := by
  simp (disch := omega) only [decodeBody, bitAt_overrideCond_low, decodeDpImm_overrideCond c,
    decodeDpReg_overrideCond c, decodeBx_overrideCond c, decodeExtension_overrideCond c,
    decodeSingleImm_overrideCond c, decodeSingleReg_overrideCond c, decodeBranch_overrideCond c,
    decodeBlock_overrideCond c]
  cases bitAt w 27 <;> cases bitAt w 26
  case true.true => rfl
  case false.true => simp only [apply_ite (recond d)]; rfl
  all_goals simp only [apply_ite (recond d)]

end

/-- Settles O11: the condition by `cond_overrideCond`, the rest by `decodeBody_overrideCond`. -/
theorem conditionFieldIsIndependentOfTheBody : Obligations.ConditionFieldIsIndependentOfTheBody := by
  intro w d
  refine ⟨fun hw => ?_, ?_⟩
  · obtain ⟨c, hc⟩ := decodeWord_of_hasCondition hw
    rw [hc, decodeWord_eq_decodeBody ((cond_overrideCond w d.bits).trans (cond_ofBits_bits d)),
      decodeBody_overrideCond c d w]
  · rw [decodeWord, cond_overrideCond]
    rfl

end Sys2Proof
end

section
/-! PROOFS. The words that decode to no instruction (`30_encoding.md` section 5): the reserved condition before every
other bucket, and the words that are left. -/

namespace Sys2Proof

/-- The reserved condition as the value of its field (rule R61). -/
theorem hasCondition_iff_field (w : Word) : hasCondition w = true ↔ w.extractLsb' 28 4 ≠ 15 := by
  have hmask : maskBits 0xF0000000 = [28, 29, 30, 31] := by decide
  have hfield : fieldAt w 28 4 = 15 ↔ inRow 0xF0000000 0xF0000000 w = true := by
    rw [fieldAt_eq_iff, inRow_iff_bits (by decide), hmask]
    simp [Fin.forall_fin_succ, -BitVec.getLsbD_eq_getElem]
  rw [Ne, hfield, hasCondition, Bool.not_eq_true', Bool.not_eq_true]

theorem decode_ok_iff (w : Word) : (∃ i, decode w = .ok i) ↔ (decodeWord w).decodeError = none := by
  unfold decode
  split <;> simp_all

/-- Settles O13: without a condition the reserved-condition error, with one the buckets of `decodeError_decodeBody`. -/
theorem reservedAndUndefinedWordsAreDecodeErrors : Obligations.ReservedAndUndefinedWordsAreDecodeErrors := by
  intro w
  have hclass0 : w.extractLsb' 25 3 = 0 ↔ bitAt w 25 = false ∧ bitAt w 26 = false ∧ bitAt w 27 = false :=
    fieldAt_three_eq_iff w 25 0
  have hclass1 : w.extractLsb' 26 2 = 1 ↔ bitAt w 26 = true ∧ bitAt w 27 = false := fieldAt_two_eq_iff w 26 1
  have hclass3 : w.extractLsb' 26 2 ≠ 3 ↔ ¬(bitAt w 26 = true ∧ bitAt w 27 = true) :=
    not_congr (fieldAt_two_eq_iff w 26 3)
  have hkind : w.extractLsb' 5 2 ≠ 0 ↔ bitAt w 5 = true ∨ bitAt w 6 = true :=
    (not_congr (fieldAt_two_eq_iff w 5 0)).trans (by simp [-not_and, not_and_or, -BitVec.getLsbD_eq_getElem])
  rw [decode_eq_error_iff, decode_eq_error_iff, decode_ok_iff, hclass0, hclass1, hclass3, hkind]
  by_cases hcond : hasCondition w = true
  · obtain ⟨c, hc⟩ := decodeWord_of_hasCondition hcond
    rw [hc, decodeError_decodeBody]
    have hfield := (hasCondition_iff_field w).1 hcond
    refine ⟨?_, ?_, ?_⟩
    · split_ifs <;> simp_all
    · split_ifs <;> simp_all
    · split_ifs <;> simp_all
  · have hfield := not_not.1 (mt (hasCondition_iff_field w).2 hcond)
    rw [decodeWord_of_not_hasCondition (Bool.eq_false_iff.2 hcond)]
    simp [Instr.decodeError, hfield]

end Sys2Proof
end

section
/-! PROOFS. Memory (`20_memory.md`): bytes and words, which addresses hold storage, and the canonical form. -/

namespace Sys2Proof.Machine

/-! ## Bytes and words -/

/-- Settles O5: `readByte_writeByte` at the address and beside it. -/
theorem byteWriteReplacesOneByte : Obligations.ByteWriteReplacesOneByte := by
  intro m a v hm
  refine ⟨fun hw => ?_, fun hw => ?_, fun b hb => readByte_writeByte_ne hm v hb, map_writeByte m a v,
    writeByte_wf hm a v⟩
  · rw [readByte_writeByte hm, if_pos ⟨rfl, hw⟩]
  · rw [Memory.writeByte, if_neg (Bool.eq_false_iff.1 hw)]

/-- Words with the same four bytes are equal. -/
theorem word_ext_bytes {v w : Word} (h : ∀ k, k < 4 → v.extractLsb' (8 * k) 8 = w.extractLsb' (8 * k) 8) : v = w := by
  apply BitVec.eq_of_getLsbD_eq
  intro i hi
  have hbit := congrArg (BitVec.getLsbD · (i % 8)) (h (i / 8) (by omega))
  simpa [BitVec.getLsbD_extractLsb', Nat.mod_lt, Nat.div_add_mod] using hbit

/-- Settles O7: byte by byte, and the word from its bytes. -/
theorem storedWordReadsBackLittleEndian : Obligations.StoredWordReadsBackLittleEndian := by
  refine ⟨fun m a k hk => extractLsb'_readWord m a hk, fun m a v hm => ⟨fun k hk => readByte_writeWord hm a v hk,
    fun b hb => readByte_writeWord_outside hm a v b hb, fun hw => word_ext_bytes fun k hk => ?_⟩⟩
  rw [extractLsb'_readWord _ _ hk, readByte_writeWord hm a v hk, if_pos (hw k hk)]

/-! ## The address map -/

theorem within_firmware_iff (m : MemMap) (a : Nat) : m.within .firmware a = true ↔ a < min m.firmwareLen 0x4000 := by
  rw [within_iff]
  simp [MemMap.base, firmwareBase, MemMap.extent, Region.capacity]

theorem within_rom_iff (m : MemMap) (a : Nat) :
    m.within .rom a = true ↔ 0x08000000 ≤ a ∧ a < 0x08000000 + min m.romLen 0x2000000 := within_iff m .rom a

theorem within_iwram_iff (m : MemMap) (a : Nat) :
    m.within .iwram a = true ↔ m.iwramBase.toNat ≤ a ∧ a < m.iwramBase.toNat + 0x8000 := within_iff m .iwram a

theorem within_ewram_iff (m : MemMap) (a : Nat) :
    m.within .ewram a = true ↔ m.ewramBase.toNat ≤ a ∧ a < m.ewramBase.toNat + 0x40000 := within_iff m .ewram a

theorem readByte_of_not_backed {m : Memory} {a : Word} (h : m.map.backed a.toNat = false) : m.readByte a = 0 := by
  rw [Memory.readByte, if_neg (Bool.eq_false_iff.1 h)]

theorem writeByte_of_not_backed {m : Memory} {a : Word} (h : m.map.backed a.toNat = false) (v : Byte) :
    m.writeByte a v = m := by
  rw [Memory.writeByte, if_neg fun hw => Bool.eq_false_iff.1 h (backed_of_writable hw)]

/-- Settles O6: the two sets by what each region says of an address, the rest from the address not being backed. -/
theorem unmappedReadsZeroAndDropsWrites : Obligations.UnmappedReadsZeroAndDropsWrites := by
  intro m a fw rom ram
  have hbacked : m.map.backed a.toNat = true ↔ fw ∨ rom ∨ ram := by
    simp only [MemMap.backed, Bool.or_eq_true, within_firmware_iff, within_rom_iff, within_iwram_iff, within_ewram_iff]
    tauto
  refine ⟨hbacked, ?_, fun h => ?_⟩
  · simp only [MemMap.writable, Bool.or_eq_true, Bool.and_eq_true, within_firmware_iff, within_rom_iff,
      within_iwram_iff, within_ewram_iff]
    rfl
  · have hnot := Bool.eq_false_iff.2 (mt hbacked.1 h)
    exact ⟨readByte_of_not_backed hnot, writeByte_of_not_backed hnot⟩

/-! ## The canonical form -/

/-- In a canonical memory every key is a backed address, so a key that is none reads as unlisted. -/
theorem cellAt_of_not_backed {m : Memory} (hm : m.wf = true) {a : Nat} (ha : ¬ (a < 2 ^ 32 ∧ m.map.backed a = true)) :
    cellAt m.cells a = 0 := by
  refine cellAt_of_none _ _ fun c hc e => ha ?_
  obtain ⟨_, hall⟩ := Bool.and_eq_true_iff.1 hm
  have hkey := List.all_eq_true.1 hall c hc
  simpa [e] using hkey

/-- In a canonical memory the cells hold what is read, at every address of the address space. -/
theorem cellAt_eq_readByte {m : Memory} (hm : m.wf = true) (a : Word) : cellAt m.cells a.toNat = m.readByte a := by
  by_cases hb : m.map.backed a.toNat = true
  · rw [Memory.readByte, if_pos hb]
  · rw [readByte_of_not_backed (Bool.eq_false_iff.2 hb), cellAt_of_not_backed hm fun h => hb h.2]

/-- Settles O8: the cells agree at every key, and rising lists that agree are equal. -/
theorem canonicalMemoriesThatReadAlikeAreEqual : Obligations.CanonicalMemoriesThatReadAlikeAreEqual := by
  intro m m' hm hm' hmap hread
  have hcells : m.cells = m'.cells := cells_ext (wf_cells hm) (wf_cells hm') fun a => by
    by_cases ha : a < 2 ^ 32
    · have hnat : (BitVec.ofNat 32 a).toNat = a := (BitVec.toNat_ofNat a 32).trans (Nat.mod_eq_of_lt ha)
      have hsame := hread (BitVec.ofNat 32 a)
      rwa [← cellAt_eq_readByte hm, ← cellAt_eq_readByte hm', hnat] at hsame
    · rw [cellAt_of_not_backed hm fun h => ha h.1, cellAt_of_not_backed hm' fun h => ha h.1]
  cases m; cases m'
  exact congrArg₂ Memory.mk hmap hcells

end Sys2Proof.Machine
end

section
/-! PROOFS. Reset and construction (`10_state.md` section 7, `20_memory.md` rule R49), and the host port
(`10_state.md` rule R34). -/

namespace Sys2Proof.Machine

/-! ## The cells of a constructed memory -/

theorem cellsAbove_imageCells {lo : Option Nat} {b : Nat} (l : List Byte) (h : ∀ x, lo = some x → x < b) :
    cellsAbove lo (imageCells b l) = true := by
  simpa using cellsAbove_image lo b l [] h (fun _ _ => rfl) rfl

/-- Every cell of a constructed memory is a byte of one of the two images. -/
theorem mem_cells_constructMemory {p : Config.Params} {c : Host.Cell} (h : c ∈ (constructMemory p).cells) :
    c.1 < p.firmwareImage.length ∨ 0x08000000 ≤ c.1 ∧ c.1 < 0x08000000 + p.romImage.length := by
  rcases List.mem_append.1 h with hc | hc
  · have := mem_imageCells _ _ c hc
    exact .inl (by simpa [firmwareBase] using this)
  · exact .inr (mem_imageCells _ _ c hc)

theorem lengths_of_paramsWf {p : Config.Params} (h : paramsWf p = true) :
    p.firmwareImage.length ≤ 0x4000 ∧ p.romImage.length ≤ 0x2000000 := wf_lengths h

theorem constructMemory_wf {p : Config.Params} (h : paramsWf p = true) : (constructMemory p).wf = true := by
  obtain ⟨hfw, hrom⟩ := lengths_of_paramsWf h
  refine Bool.and_eq_true_iff.2 ⟨?_, List.all_eq_true.2 fun c hc => ?_⟩
  · refine cellsAbove_image none _ _ _ nofun (fun x hx => cellsAbove_imageCells _ fun y hy => ?_)
      (cellsAbove_imageCells _ nofun)
    obtain rfl := Option.some.inj hy
    simp [firmwareBase, romBase] at hx ⊢
    omega
  · have hmap : (constructMemory p).map = paramsMap p := rfl
    have hkey := mem_cells_constructMemory hc
    simp only [hmap, paramsMap, MemMap.backed, Bool.and_eq_true, decide_eq_true_eq, Bool.or_eq_true,
      within_firmware_iff, within_rom_iff]
    omega

/-- Settles O3: the memory by `constructMemory_wf`, the map by the premise; the latches are empty. -/
theorem constructedStateIsOk : Obligations.ConstructedStateIsOk := by
  intro p hp
  rw [stateOk, Bool.and_eq_true, Bool.and_eq_true]
  exact ⟨⟨constructMemory_wf hp, hp⟩, rfl⟩

/-- Settles O2: canonical memory reads as its cells, and these are those of the image the address lies in. -/
theorem constructedMemoryHoldsTheImages : Obligations.ConstructedMemoryHoldsTheImages := by
  intro p hp
  refine ⟨fun a => ?_, rfl, rfl, rfl, rfl, rfl, rfl⟩
  obtain ⟨hfw, hrom⟩ := lengths_of_paramsWf hp
  have hmem : (constructState p).mem = constructMemory p := rfl
  rw [hmem, ← cellAt_eq_readByte (constructMemory_wf hp)]
  split_ifs with h1 h2
  · refine (cellAt_append_left _ _ _ fun c hc e => ?_).trans (cellAt_imageCells 0 _ _ (Nat.zero_le _))
    have := mem_imageCells _ _ c hc
    simp [romBase] at this
    omega
  · refine (cellAt_append_right _ _ _ fun c hc e => ?_).trans (cellAt_imageCells _ _ _ h2.1)
    have := mem_imageCells _ _ c hc
    simp [firmwareBase] at this
    omega
  · refine cellAt_of_none _ _ fun c hc e => ?_
    rw [← e] at h1 h2
    exact (mem_cells_constructMemory hc).elim h1 h2

/-- Settles O1: canonical memory reads as its cells, and the reset state has none. -/
theorem resetStateIsAsTheSpecSays : Obligations.ResetStateIsAsTheSpecSays := by
  refine ⟨by decide, rfl, rfl, rfl, rfl, fun a => ?_, rfl⟩
  rw [← cellAt_eq_readByte reset_mem_wf]
  rfl

/-- Settles O4: the reset state is a constructed one. -/
theorem resetStateIsOk : Obligations.ResetStateIsOk := constructedStateIsOk Config.defaultParams (by decide +kernel)

/-- Settles O59: each set of the port is one update of the state. -/
theorem hostPortSetsWhatItNames : Obligations.HostPortSetsWhatItNames := by
  intro s r v f g
  exact ⟨reg_setReg_same s r v, fun q hq => reg_setReg_ne s v hq, rfl, rfl, rfl, rfl, rfl⟩

end Sys2Proof.Machine
end

section
/-! PROOFS. What is refused, and under which reason (`60_exceptions.md` section 1): the refusal checks of each family of
instructions as equations, first check first. -/

namespace Sys2Proof.Machine

open Sys2Proof.Claims

/-- Past the condition, the reason the checks found is raised. -/
theorem refused_of_holds {c : Cond} {s : State} {r : Option UnimplementedReason} {reason : UnimplementedReason}
    (hc : condHolds c s.flags = true) (hr : r = some reason) (t : State) :
    whenCond c s (unlessRefused r t) = unimplemented reason := by
  rw [whenCond_of_holds hc, hr, unlessRefused_some, unimplemented]

/-! ## Data processing -/

section
variable {m : DpMnemonic} (c : Cond) (a : Bool) (rn rd : Reg) (o : Op2) (s : State)

theorem exec_writing (hm : m ∈ writing) : ∃ out, exec (m.instr c a rn rd o) s = dpWrite c a rd out s := by
  simp only [writing, List.mem_cons, List.not_mem_nil, or_false] at hm
  rcases hm with rfl | rfl | rfl | rfl | rfl | rfl | rfl | rfl | rfl | rfl | rfl | rfl
  exacts [⟨_, exec_opAnd ..⟩, ⟨_, exec_opEor ..⟩, ⟨_, exec_opSub ..⟩, ⟨_, exec_opRsb ..⟩, ⟨_, exec_opAdd ..⟩,
    ⟨_, exec_opAdc ..⟩, ⟨_, exec_opSbc ..⟩, ⟨_, exec_opRsc ..⟩, ⟨_, exec_opOrr ..⟩, ⟨_, exec_opMov ..⟩,
    ⟨_, exec_opBic ..⟩, ⟨_, exec_opMvn ..⟩]

theorem exec_comparing (hm : m ∈ comparing) : ∃ out, exec (m.instr c a rn rd o) s = dpCompare c a out s := by
  simp only [comparing, List.mem_cons, List.not_mem_nil, or_false] at hm
  rcases hm with rfl | rfl | rfl | rfl
  exacts [⟨_, exec_opTst ..⟩, ⟨_, exec_opTeq ..⟩, ⟨_, exec_opCmp ..⟩, ⟨_, exec_opCmn ..⟩]

end

/-- Settles O26: the twelve mnemonics share one ending. -/
theorem dataProcessingWriteToR15IsRefused : Obligations.DataProcessingWriteToR15IsRefused := by
  intro m hm c a rn o s hc
  obtain ⟨out, he⟩ := exec_writing c a rn 15 o s hm
  rw [he, dpWrite]
  exact refused_of_holds hc (if_pos rfl) _

/-! ## Multiply -/

section
variable {rd rn rs rm : Reg} {acc : Option Reg}

theorem mulRefusal_writesPc (h : rd = 15) : mulRefusal rd rs rm acc = some .writesPc := if_pos h

theorem mulRefusal_pcOperand (hrd : rd ≠ 15) (h : rm = 15 ∨ rs = 15 ∨ acc = some 15) :
    mulRefusal rd rs rm acc = some .pcOperand := by
  rw [mulRefusal, if_neg hrd, if_pos h]

theorem mulRefusal_operands (hrd : rd ≠ 15) (hrs : rs ≠ 15) (hacc : acc ≠ some 15) (h : rd = rm) :
    mulRefusal rd rs rm acc = some .multiplyOperandRestriction := by
  rw [mulRefusal, if_neg hrd, if_neg (not_or.2 ⟨h ▸ hrd, not_or.2 ⟨hrs, hacc⟩⟩), if_pos h]

theorem mulRefusal_eq_none (hrd : rd ≠ 15) (hrm : rm ≠ 15) (hrs : rs ≠ 15) (hacc : acc ≠ some 15) (h : rd ≠ rm) :
    mulRefusal rd rs rm acc = none := by
  rw [mulRefusal, if_neg hrd, if_neg (not_or.2 ⟨hrm, not_or.2 ⟨hrs, hacc⟩⟩), if_neg h]

theorem mullRefusal_writesPc (h : rd = 15 ∨ rn = 15) : mullRefusal rd rn rs rm = some .writesPc := if_pos h

theorem mullRefusal_pcOperand (hrd : rd ≠ 15) (hrn : rn ≠ 15) (h : rm = 15 ∨ rs = 15) :
    mullRefusal rd rn rs rm = some .pcOperand := by
  rw [mullRefusal, if_neg (not_or.2 ⟨hrd, hrn⟩), if_pos h]

theorem mullRefusal_operands (hrd : rd ≠ 15) (hrn : rn ≠ 15) (hrm : rm ≠ 15) (hrs : rs ≠ 15)
    (h : rd = rn ∨ rd = rm ∨ rn = rm) : mullRefusal rd rn rs rm = some .multiplyOperandRestriction := by
  rw [mullRefusal, if_neg (not_or.2 ⟨hrd, hrn⟩), if_neg (not_or.2 ⟨hrm, hrs⟩), if_pos h]

theorem mullRefusal_eq_none (hrd : rd ≠ 15) (hrn : rn ≠ 15) (hrm : rm ≠ 15) (hrs : rs ≠ 15) (hdn : rd ≠ rn)
    (hdm : rd ≠ rm) (hnm : rn ≠ rm) : mullRefusal rd rn rs rm = none := by
  rw [mullRefusal, if_neg (not_or.2 ⟨hrd, hrn⟩), if_neg (not_or.2 ⟨hrm, hrs⟩),
    if_neg (not_or.2 ⟨hdn, not_or.2 ⟨hdm, hnm⟩⟩)]

end

/-- The four long forms. -/
def longMultiplies : List (Cond → Bool → Reg → Reg → Reg → Reg → Instr) := [.umull, .umlal, .smull, .smlal]

theorem exec_longMultiplies {mk : Cond → Bool → Reg → Reg → Reg → Reg → Instr} (hmk : mk ∈ longMultiplies) (c : Cond)
    (a : Bool) (hi lo rs rm : Reg) (s : State) :
    ∃ v, exec (mk c a hi lo rs rm) s = mullWrite c a hi lo (mullRefusal hi lo rs rm) v s := by
  simp only [longMultiplies, List.mem_cons, List.not_mem_nil, or_false] at hmk
  rcases hmk with rfl | rfl | rfl | rfl <;> exact ⟨_, rfl⟩

/-- Settles O29: MUL and MLA by `mulRefusal`, the long forms by `mullRefusal`. -/
theorem multiplyRefusals : Obligations.MultiplyRefusals := by
  intro c a rd rn rs rm s hc
  refine ⟨fun h => ⟨refused_of_holds hc (mulRefusal_writesPc h) _, refused_of_holds hc (mulRefusal_writesPc h) _⟩,
    fun hrd h => refused_of_holds hc (mulRefusal_pcOperand hrd ?_) _,
    fun hrd h => refused_of_holds hc (mulRefusal_pcOperand hrd ?_) _,
    fun hrd hrs h => refused_of_holds hc (mulRefusal_operands (acc := none) hrd hrs nofun h) _,
    fun hrd hrs hrn h => refused_of_holds hc (mulRefusal_operands hrd hrs (mt Option.some.inj hrn) h) _,
    fun mk hmk => ?_⟩
  · exact h.imp_right .inl
  · exact h.imp_right (Or.imp_right (congrArg some))
  · obtain ⟨v, he⟩ := exec_longMultiplies hmk c a rd rn rs rm s
    rw [he]
    exact ⟨fun h => refused_of_holds hc (mullRefusal_writesPc h) _,
      fun hrd hrn h => refused_of_holds hc (mullRefusal_pcOperand hrd hrn h) _,
      fun hrd hrn hrm hrs h => refused_of_holds hc (mullRefusal_operands hrd hrn hrm hrs h) _⟩

/-! ## Swap -/

theorem exec_swaps {mk : Cond → Reg → Reg → Reg → Instr} (hmk : mk ∈ [Instr.swp, .swpb]) (c : Cond) (rn rd rm : Reg)
    (s : State) : ∃ wd, exec (mk c rn rd rm) s = swapAt wd c rn rd rm s := by
  simp only [List.mem_cons, List.not_mem_nil, or_false] at hmk
  rcases hmk with rfl | rfl <;> exact ⟨_, rfl⟩

/-- Settles O31: the two instructions share the three checks of `swapRefusal`. -/
theorem swapRefusals : Obligations.SwapRefusals := by
  intro c rn rd rm s hc mk hmk
  obtain ⟨wd, he⟩ := exec_swaps hmk c rn rd rm s
  rw [he]
  refine ⟨fun h => refused_of_holds hc ?_ _, fun hrd h => refused_of_holds hc ?_ _,
    fun hrd hrn hrm h => refused_of_holds hc ?_ _⟩
  · rw [swapRefusal, if_pos h]
  · rw [swapRefusal, if_neg hrd, if_pos h]
  · rw [swapRefusal, if_neg hrd, if_neg (not_or.2 ⟨hrn, hrm⟩), if_pos h]

/-! ## Single data transfer -/

theorem writesBack_iff (ix : Indexing) : writesBack ix = true ↔ ix.p = false ∨ ix.w = true := by
  rw [writesBack, Bool.or_eq_true, Bool.not_eq_true']

section
variable (c : Cond) (ix : Indexing) (rn rd : Reg) (o : Offset) (s : State)

theorem exec_ldr : exec (ldr c ix rn rd o) s = singleLoad .word c ix rn rd o.rm (o.value s) s := by cases o <;> rfl

theorem exec_ldrb : exec (ldrb c ix rn rd o) s = singleLoad .byte c ix rn rd o.rm (o.value s) s := by cases o <;> rfl

theorem exec_str : exec (str c ix rn rd o) s = singleStore .word c ix rn rd o.rm (o.value s) s := by cases o <;> rfl

theorem exec_strb : exec (strb c ix rn rd o) s = singleStore .byte c ix rn rd o.rm (o.value s) s := by cases o <;> rfl

end

section
variable {load : Bool} {ix : Indexing} {rn rd : Reg} {o : Option Reg}

theorem singleRefusal_load_writesPc (h : rd = 15) : singleRefusal true ix rn rd o = some .writesPc :=
  if_pos ⟨rfl, h⟩

theorem singleRefusal_base_writesPc (hw : writesBack ix = true) (h : rn = 15) :
    singleRefusal load ix rn rd o = some .writesPc := by
  rw [singleRefusal, if_pos (c := writesBack ix ∧ rn = Reg.pc) ⟨hw, h⟩, ite_self]

theorem singleRefusal_pcOperand (hload : load = true → rd ≠ 15) (hw : writesBack ix = true → rn ≠ 15)
    (h : o = some 15) : singleRefusal load ix rn rd o = some .pcOperand := by
  rw [singleRefusal, if_neg (not_and.2 hload), if_neg (not_and.2 hw), if_pos h]

theorem singleRefusal_conflict (hload : load = true → rd ≠ 15) (hw : writesBack ix = true) (hrn : rn ≠ 15)
    (ho : o ≠ some 15) (h : rn = rd ∨ o = some rn) : singleRefusal load ix rn rd o = some .baseRegisterConflict := by
  rw [singleRefusal, if_neg (not_and.2 hload), if_neg fun e => hrn e.2, if_neg ho]
  rcases h with h | h
  · rw [if_pos ⟨hw, h⟩]
  · rw [if_pos (c := writesBack ix ∧ o = some rn) ⟨hw, h⟩, ite_self]

theorem singleRefusal_eq_none (hload : load = true → rd ≠ 15) (ho : o ≠ some 15)
    (hw : writesBack ix = true → rn ≠ 15 ∧ rn ≠ rd ∧ o ≠ some rn) : singleRefusal load ix rn rd o = none := by
  rw [singleRefusal, if_neg (not_and.2 hload), if_neg (not_and.2 fun h => (hw h).1), if_neg ho,
    if_neg (not_and.2 fun h => (hw h).2.1), if_neg (not_and.2 fun h => (hw h).2.2)]

end

/-- Settles O34: the four mnemonics share the checks of `singleRefusal`, the first of them for a load only. -/
theorem singleTransferRefusals : Obligations.SingleTransferRefusals := by
  intro c ix rn rd o s hc wb
  have hwb : writesBack ix = true ↔ wb := writesBack_iff ix
  have hload {reason} (hr : singleRefusal true ix rn rd o.rm = some reason) :
      exec (ldr c ix rn rd o) s = unimplemented reason ∧ exec (ldrb c ix rn rd o) s = unimplemented reason := by
    rw [exec_ldr, exec_ldrb]
    exact ⟨refused_of_holds hc hr _, refused_of_holds hc hr _⟩
  have hstore {reason} (hr : singleRefusal false ix rn rd o.rm = some reason) :
      exec (str c ix rn rd o) s = unimplemented reason ∧ exec (strb c ix rn rd o) s = unimplemented reason := by
    rw [exec_str, exec_strb]
    exact ⟨refused_of_holds hc hr _, refused_of_holds hc hr _⟩
  refine ⟨fun h => hload (singleRefusal_load_writesPc h), fun hw h => ?_,
    fun hrn ho => ⟨hstore ?_, fun hrd => hload ?_⟩, fun hw hrn ho h => ⟨hstore ?_, fun hrd => hload ?_⟩⟩
  · obtain ⟨h1, h2⟩ := hload (singleRefusal_base_writesPc (hwb.2 hw) h)
    obtain ⟨h3, h4⟩ := hstore (singleRefusal_base_writesPc (hwb.2 hw) h)
    simp only [List.forall_mem_cons, List.not_mem_nil, IsEmpty.forall_iff, implies_true, and_true]
    exact ⟨h1, h2, h3, h4⟩
  · exact singleRefusal_pcOperand nofun (fun h => hrn (hwb.1 h)) ho
  · exact singleRefusal_pcOperand (fun _ => hrd) (fun h => hrn (hwb.1 h)) ho
  · exact singleRefusal_conflict nofun (hwb.2 hw) hrn ho h
  · exact singleRefusal_conflict (fun _ => hrd) (hwb.2 hw) hrn ho h

/-! ## Block data transfer -/

section
variable {load : Bool} {bm : BlockMode} {rn : Reg} {list : BitVec 16}

theorem blockRefusal_forceModeBits (h : bm.s = true) : blockRefusal load bm rn list = some .forceModeBits := if_pos h

theorem blockRefusal_emptyRegisterList (hs : bm.s = false) (h : list = 0#16) :
    blockRefusal load bm rn list = some .emptyRegisterList := by
  rw [blockRefusal, if_neg (Bool.eq_false_iff.1 hs), if_pos h]

theorem blockRefusal_pcOperand (hs : bm.s = false) (hlist : list ≠ 0#16) (h : rn = 15) :
    blockRefusal load bm rn list = some .pcOperand := by
  rw [blockRefusal, if_neg (Bool.eq_false_iff.1 hs), if_neg hlist, if_pos h]

theorem ne_zero_of_getLsbD {k : Nat} (h : list.getLsbD k = true) : list ≠ 0#16 := by
  rintro rfl
  simp at h

theorem blockRefusal_writesPc (hs : bm.s = false) (hrn : rn ≠ 15) (h : list.getLsbD 15 = true) :
    blockRefusal true bm rn list = some .writesPc := by
  rw [blockRefusal, if_neg (Bool.eq_false_iff.1 hs), if_neg (ne_zero_of_getLsbD h), if_neg hrn, if_pos ⟨rfl, h⟩]

theorem blockRefusal_conflict (hs : bm.s = false) (hrn : rn ≠ 15) (hload : load = true → list.getLsbD 15 = false)
    (hw : bm.w = true) (h : list.getLsbD rn.val = true) :
    blockRefusal load bm rn list = some .baseRegisterConflict := by
  rw [blockRefusal, if_neg (Bool.eq_false_iff.1 hs), if_neg (ne_zero_of_getLsbD h), if_neg hrn,
    if_neg fun e => Bool.eq_false_iff.1 (hload e.1) e.2, if_pos ⟨hw, h⟩]

end

/-- Settles O38: LDM and STM share the checks of `blockRefusal`, that of R15 in the list for LDM only. -/
theorem blockTransferRefusals : Obligations.BlockTransferRefusals := by
  intro c bm rn list s hc
  have hldm {reason} (hr : blockRefusal true bm rn list = some reason) :
      exec (.ldm c bm rn list) s = unimplemented reason := refused_of_holds hc hr _
  have hstm {reason} (hr : blockRefusal false bm rn list = some reason) :
      exec (.stm c bm rn list) s = unimplemented reason := refused_of_holds hc hr _
  refine ⟨?_, fun hs hrn h => hldm (blockRefusal_writesPc hs hrn h), fun hs hrn hw h =>
    ⟨hstm (blockRefusal_conflict hs hrn nofun hw h),
      fun hpc => hldm (blockRefusal_conflict hs hrn (fun _ => hpc) hw h)⟩⟩
  simp only [List.forall_mem_cons, List.not_mem_nil, IsEmpty.forall_iff, implies_true, and_true]
  exact ⟨⟨fun h => hldm (blockRefusal_forceModeBits h), fun hs h => hldm (blockRefusal_emptyRegisterList hs h),
      fun hs hl h => hldm (blockRefusal_pcOperand hs hl h)⟩,
    fun h => hstm (blockRefusal_forceModeBits h), fun hs h => hstm (blockRefusal_emptyRegisterList hs h),
      fun hs hl h => hstm (blockRefusal_pcOperand hs hl h)⟩

/-! ## Every instruction -/

/-- Settles O42: raising is all an error row does, in any state. -/
theorem errorWordsRaiseTheirDecodeError : Obligations.ErrorWordsRaiseTheirDecodeError := fun _ s =>
  ⟨exec_of_decodeError rfl s, exec_of_decodeError rfl s, exec_of_decodeError rfl s, exec_of_decodeError rfl s,
    exec_of_decodeError rfl s, exec_of_decodeError rfl s⟩

/-- The shape of every instruction with a condition: skipped, an error of the spec, or its effect. -/
theorem whenCond_ne_refused (c : Cond) (s t : State) (r : Option UnimplementedReason) (q : Refusal) :
    whenCond c s (unlessRefused r t) ≠ .refused q := by
  unfold whenCond
  split
  · cases r <;> nofun
  · nofun

/-- Settles O43: an error row faults, every other instruction has the shape of `whenCond_ne_refused`. -/
theorem noInstructionIsRefused : Obligations.NoInstructionIsRefused := by
  intro i s q
  cases i
  case errReservedCondition | errHalfword01 | errHalfword10 | errHalfword11 | errUndefined | errCoprocessorOrSwi =>
    nofun
  case tstImm | teqImm | cmpImm | cmnImm | tstReg | teqReg | cmpReg | cmnReg | b | bl | bx =>
    exact whenCond_ne_refused _ _ _ none q
  all_goals exact whenCond_ne_refused _ _ _ _ q

end Sys2Proof.Machine
end

section
/-! PROOFS. The words of the spec's vectors (`95_test_vectors.md`), the condition table (`41_condition_codes.md`) and
AddWithCarry (`42_data_processing.md` rule R127). -/

namespace Sys2Proof.Machine

/-- Settles O14: the decoder evaluates on each word. -/
theorem workedWordsDecode : Obligations.WorkedWordsDecode := by
  unfold Obligations.WorkedWordsDecode
  decide

/-- Settles O19: each row of `condHolds` is the expression of the table. -/
theorem conditionTableHolds : Obligations.ConditionTableHolds := by
  intro f
  simp [condHolds, and_comm]

/-! ## AddWithCarry -/

section
variable (x y : Word) (k : Bool)

theorem toNat_result_addWithCarry :
    (addWithCarry x y k).result.toNat = (x.toNat + y.toNat + k.toNat) % 2 ^ 32 := BitVec.toNat_ofNat ..

theorem carry_addWithCarry_iff :
    (addWithCarry x y k).flags.c = true ↔ 2 ^ 32 ≤ x.toNat + y.toNat + k.toNat := decide_eq_true_iff

theorem overflow_addWithCarry_iff : (addWithCarry x y k).flags.v = true ↔
    x.toInt + y.toInt + (k.toNat : Int) ≠ (addWithCarry x y k).result.toInt := decide_eq_true_iff

/-- The closed form of the overflow flag (rule R127): both operands have one sign and the result the other. -/
theorem overflow_addWithCarry_iff_msb : (addWithCarry x y k).flags.v = true ↔
    x.msb = y.msb ∧ (addWithCarry x y k).result.msb ≠ x.msb := by
  have hx := x.isLt
  have hy := y.isLt
  have hk := Bool.toNat_le k
  have hr := toNat_result_addWithCarry x y k
  rw [overflow_addWithCarry_iff, BitVec.msb_eq_decide, BitVec.msb_eq_decide, BitVec.msb_eq_decide,
    BitVec.toInt_eq_toNat_cond, BitVec.toInt_eq_toNat_cond, BitVec.toInt_eq_toNat_cond, hr]
  simp only [ne_eq, decide_eq_decide]
  split_ifs <;> omega

end

/-- Settles O18: the parts above; the subtraction through `result_addWithCarry_not` and `flags_addWithCarry_not`. -/
theorem addWithCarryIsExact : Obligations.AddWithCarryIsExact := by
  intro x y k o u
  refine ⟨toNat_result_addWithCarry x y k, carry_addWithCarry_iff x y k, BitVec.msb_eq_getLsbD_last o.result,
    beq_iff_eq, overflow_addWithCarry_iff x y k, overflow_addWithCarry_iff_msb x y k, result_addWithCarry_not x y, ?_⟩
  rw [flags_addWithCarry_not, decide_eq_true_iff]

end Sys2Proof.Machine
end

section
/-! PROOFS. Multiply and single data transfer (`43_multiply.md`, `46_single_data_transfer.md`): the next states once the
condition holds and no check refuses. -/

namespace Sys2Proof.Machine

open Sys2Proof.Claims

/-! ## Multiply -/

theorem mulWrite_of_holds {c : Cond} {rd : Reg} {s : State} {r : Option UnimplementedReason}
    (hc : condHolds c s.flags = true) (hr : r = none) (a : Bool) (v : Word) :
    mulWrite c a rd r v s = .next { after s (with1 s rd v)
        (if a then ⟨v.msb, decide (v = 0), Config.mulCarryDraw s.draws, s.flags.v⟩ else s.flags) with
      draws := if a then s.draws + 1 else s.draws } := by
  rw [mulWrite, whenCond_of_holds hc, hr, unlessRefused_none]
  cases a <;> rfl

theorem mul_eq_ofNat (x y : Word) : x * y = BitVec.ofNat 32 (x.toNat * y.toNat) := by
  rw [BitVec.ofNat_mul, BitVec.ofNat_toNat, BitVec.ofNat_toNat, BitVec.setWidth_eq, BitVec.setWidth_eq]

/-- Settles O27: both by `mulWrite_of_holds`, the result as the number it is. -/
theorem multiplyComplete : Obligations.MultiplyComplete := by
  intro c a rd rn rs rm s hc hrd hrm hrs hdm done
  refine ⟨?_, fun hrn => ?_⟩
  · rw [← mul_eq_ofNat]
    exact mulWrite_of_holds hc (mulRefusal_eq_none (acc := none) hrd hrm hrs nofun hdm) a _
  · rw [BitVec.ofNat_add, ← mul_eq_ofNat, BitVec.ofNat_toNat, BitVec.setWidth_eq]
    exact mulWrite_of_holds hc (mulRefusal_eq_none hrd hrm hrs (mt Option.some.inj hrn) hdm) a _

theorem mullWrite_of_holds {c : Cond} {hi lo : Reg} {s : State} {r : Option UnimplementedReason}
    (hc : condHolds c s.flags = true) (hr : r = none) (a : Bool) (v : BitVec 64) :
    mullWrite c a hi lo r v s = .next { after s
        ((with1 s lo (v.setWidth 32)).set hi.val ((v >>> 32).setWidth 32) hi.isLt)
        (if a then ⟨v.msb, decide (v = 0), Config.mullCarryDraw s.draws, Config.mullOverflowDraw s.draws⟩
          else s.flags) with
      draws := if a then s.draws + 1 else s.draws } := by
  have hlow : v.extractLsb' 0 32 = v.setWidth 32 := (BitVec.setWidth_eq_extractLsb' (by decide)).symm
  have hhigh : v.extractLsb' 32 32 = (v >>> 32).setWidth 32 := rfl
  rw [mullWrite, whenCond_of_holds hc, hr, unlessRefused_none, hlow, hhigh]
  cases a <;> rfl

/-- The accumulator as the number it is: the high register above the low one (rules R155, R157). -/
theorem longAccumulator_eq_ofNat (hi lo : Reg) (s : State) :
    longAccumulator hi lo s = BitVec.ofNat 64 (2 ^ 32 * (s.reg hi).toNat + (s.reg lo).toNat) := by
  apply BitVec.eq_of_toNat_eq
  have h1 := (s.reg hi).isLt
  have h2 := (s.reg lo).isLt
  rw [longAccumulator, BitVec.toNat_append, BitVec.toNat_ofNat, ← Nat.shiftLeft_add_eq_or_of_lt h2, Nat.shiftLeft_eq]
  omega

/-- Settles O28: all by `mullWrite_of_holds`, the results as the numbers they are. -/
theorem multiplyLongComplete : Obligations.MultiplyLongComplete := by
  intro c a hi lo rs rm s hc hhi hlo hrm hrs hhl hhm hlm done acc up sp
  have hlong := mullWrite_of_holds (hi := hi) (lo := lo) hc (mullRefusal_eq_none hhi hlo hrm hrs hhl hhm hlm) a
  refine ⟨hlong _, ?_, hlong _, ?_⟩
  · rw [BitVec.ofNat_add, ← longAccumulator_eq_ofNat]
    exact hlong _
  · rw [BitVec.ofInt_add, BitVec.ofInt_natCast, ← longAccumulator_eq_ofNat]
    exact hlong _

/-! ## Single data transfer -/

section
variable {c : Cond} {ix : Indexing} {rn rd : Reg} {o : Option Reg} {s : State} (hc : condHolds c s.flags = true)
  (wd : Width) (off : Word)
include hc

theorem singleLoad_of_holds (hr : singleRefusal true ix rn rd o = none) :
    singleLoad wd c ix rn rd o off s =
      let v := s.mem.load wd (transferAddress ix (s.reg rn) off)
      .next (after s (if writesBack ix then (with1 s rd v).set rn.val (indexedAddress ix (s.reg rn) off) rn.isLt
        else with1 s rd v) s.flags) := by
  rw [singleLoad, whenCond_of_holds hc, hr, unlessRefused_none, State.baseWriteBack]
  cases writesBack ix <;> rfl

theorem singleStore_of_holds (hr : singleRefusal false ix rn rd o = none) :
    singleStore wd c ix rn rd o off s =
      .next { after s (if writesBack ix then with1 s rn (indexedAddress ix (s.reg rn) off) else s.regs) s.flags with
        mem := s.mem.store wd (transferAddress ix (s.reg rn) off) (s.reg rd) } := by
  rw [singleStore, whenCond_of_holds hc, hr, unlessRefused_none, State.baseWriteBack]
  cases writesBack ix <;> rfl

end

/-- Settles O32: both mnemonics by `singleLoad_of_holds`. -/
theorem singleLoadsComplete : Obligations.SingleLoadsComplete := by
  intro c ix rn rd o s hc wb hrd ho hconf base idx ea done
  have hr : singleRefusal true ix rn rd o.rm = none :=
    singleRefusal_eq_none (fun _ => hrd) ho fun h => hconf ((writesBack_iff ix).1 h)
  rw [exec_ldr, exec_ldrb, singleLoad_of_holds hc _ _ hr, singleLoad_of_holds hc _ _ hr]
  simp only [writesBack_iff]
  exact ⟨rfl, rfl⟩

/-- Settles O33: both mnemonics by `singleStore_of_holds`. -/
theorem singleStoresComplete : Obligations.SingleStoresComplete := by
  intro c ix rn rd o s hc wb ho hconf base idx ea done
  have hr : singleRefusal false ix rn rd o.rm = none :=
    singleRefusal_eq_none nofun ho fun h => hconf ((writesBack_iff ix).1 h)
  rw [exec_str, exec_strb, singleStore_of_holds hc _ _ hr, singleStore_of_holds hc _ _ hr, ← store_byte]
  simp only [writesBack_iff]
  exact ⟨rfl, rfl⟩

end Sys2Proof.Machine
end

section
/-! PROOFS. The frames of the instructions: what each family leaves unchanged, through the inversion lemma of its shared
ending. -/

namespace Sys2Proof.Machine

open Sys2Proof.Claims

/-! ## Every effect -/

/-- No instruction touches the memory map: only the host fixes it, when it constructs the machine. -/
theorem Effect.map {s t : State} (h : Effect s t) : t.mem.map = s.mem.map := by cases h <;> simp

theorem Effect.sameHidden {s t : State} (h : Effect s t) : sameHidden s t := ⟨h.latches.1, h.latches.2, h.map⟩

theorem sameBytes_of_mem_eq {s t : State} (h : t.mem = s.mem) : sameBytes s t := fun a => by rw [h]

theorem sameRegsBut_skip (s : State) (l : List Reg) : sameRegsBut s s.skip l := fun _ _ => rfl

/-! ## Data processing -/

/-- From `s` to `t` only registers, report and flags changed, and the flags only to `f` and only with S = 1. -/
structure SetsFlagsOnly (a : Bool) (f : Flags) (s t : State) : Prop where
  mem : t.mem = s.mem
  draws : t.draws = s.draws
  status : t.status = { s.status with flags := t.flags }
  flags : t.flags = s.flags ∨ a = true ∧ t.flags = f

theorem SetsFlagsOnly.flags_of_not_alter {a : Bool} {f : Flags} {s t : State} (h : SetsFlagsOnly a f s t)
    (ha : a = false) : t.flags = s.flags := h.flags.resolve_right fun hs => Bool.eq_false_iff.1 ha hs.1

theorem setsFlagsOnly_skip (a : Bool) (f : Flags) (s : State) : SetsFlagsOnly a f s s.skip :=
  ⟨rfl, rfl, rfl, .inl rfl⟩

theorem setsFlagsOnly_setFlagsIf (a : Bool) (f : Flags) {s u : State} (hmem : u.mem = s.mem)
    (hdraws : u.draws = s.draws) (hstatus : u.status = s.status) : SetsFlagsOnly a f s (u.setFlagsIf a f).finish := by
  cases a
  · exact ⟨hmem, hdraws, hstatus ▸ rfl, .inl (congrArg StatusWord.flags hstatus)⟩
  · exact ⟨hmem, hdraws, hstatus ▸ rfl, .inr ⟨rfl, rfl⟩⟩

section
variable {c : Cond} {a : Bool} {rd : Reg} {out : AluOut} {s t : State}

theorem dpWrite_setsFlagsOnly (h : dpWrite c a rd out s = .next t) : SetsFlagsOnly a out.flags s t := by
  rcases dpWrite_next h with ⟨_, rfl⟩ | ⟨_, _, rfl⟩
  · exact setsFlagsOnly_skip ..
  · exact setsFlagsOnly_setFlagsIf a out.flags rfl rfl rfl

theorem dpCompare_setsFlagsOnly (h : dpCompare c a out s = .next t) : SetsFlagsOnly a out.flags s t := by
  rcases dpCompare_next h with ⟨_, rfl⟩ | ⟨_, rfl⟩
  · exact setsFlagsOnly_skip ..
  · exact setsFlagsOnly_setFlagsIf a out.flags rfl rfl rfl

theorem dpWrite_regs (h : dpWrite c a rd out s = .next t) : sameRegsBut s t [rd] ∧ t.pc = s.pc := by
  refine ⟨?_, (effect_dpWrite h).pc_of_not_redirected (not_redirected_of_finish h)⟩
  rcases dpWrite_next h with ⟨_, rfl⟩ | ⟨_, _, rfl⟩
  · exact sameRegsBut_skip s _
  · intro q hq
    simp [reg_setReg_ne s out.result (List.ne_of_not_mem_cons hq)]

theorem dpCompare_regs (h : dpCompare c a out s = .next t) : sameRegsBut s t [] := by
  rcases dpCompare_next h with ⟨_, rfl⟩ | ⟨_, rfl⟩
  · exact sameRegsBut_skip s _
  · intro q _
    simp

end

theorem exec_dp_setsFlagsOnly {m : DpMnemonic} (hm : m ∈ writing ++ comparing) {c : Cond} {a : Bool} {rn rd : Reg}
    {o : Op2} {s t : State} (h : exec (m.instr c a rn rd o) s = .next t) : ∃ f, SetsFlagsOnly a f s t := by
  rcases List.mem_append.1 hm with hm | hm
  · obtain ⟨out, he⟩ := exec_writing c a rn rd o s hm
    exact ⟨_, dpWrite_setsFlagsOnly (he ▸ h)⟩
  · obtain ⟨out, he⟩ := exec_comparing c a rn rd o s hm
    exact ⟨_, dpCompare_setsFlagsOnly (he ▸ h)⟩

/-- The logical opcodes, of either ending, have the flags of `logicalOut`. -/
theorem exec_logical {m : DpMnemonic} (hm : m ∈ [opAnd, opEor, opTst, opTeq, opOrr, opMov, opBic, opMvn]) (c : Cond)
    (a : Bool) (rn rd : Reg) (o : Op2) (s : State) : ∃ carry r,
      exec (m.instr c a rn rd o) s = dpWrite c a rd (logicalOut s.flags carry r) s ∨
      exec (m.instr c a rn rd o) s = dpCompare c a (logicalOut s.flags carry r) s := by
  simp only [List.mem_cons, List.not_mem_nil, or_false] at hm
  rcases hm with rfl | rfl | rfl | rfl | rfl | rfl | rfl | rfl
  exacts [⟨_, _, .inl (exec_opAnd ..)⟩, ⟨_, _, .inl (exec_opEor ..)⟩, ⟨_, _, .inr (exec_opTst ..)⟩,
    ⟨_, _, .inr (exec_opTeq ..)⟩, ⟨_, _, .inl (exec_opOrr ..)⟩, ⟨_, _, .inl (exec_opMov ..)⟩,
    ⟨_, _, .inl (exec_opBic ..)⟩, ⟨_, _, .inl (exec_opMvn ..)⟩]

/-- A logical opcode keeps V, whichever ending it has. -/
theorem exec_logical_overflow {m : DpMnemonic} (hm : m ∈ [opAnd, opEor, opTst, opTeq, opOrr, opMov, opBic, opMvn])
    {c : Cond} {a : Bool} {rn rd : Reg} {o : Op2} {s t : State} (h : exec (m.instr c a rn rd o) s = .next t) :
    t.flags.v = s.flags.v := by
  obtain ⟨carry, r, he⟩ := exec_logical hm c a rn rd o s
  have hset : SetsFlagsOnly a (logicalOut s.flags carry r).flags s t :=
    he.elim (fun he => dpWrite_setsFlagsOnly (he ▸ h)) fun he => dpCompare_setsFlagsOnly (he ▸ h)
  rcases hset.flags with hf | ⟨_, hf⟩
  · rw [hf]
  · rw [hf, flags_logicalOut, logicalFlags]

/-- Settles O44: through the two endings of rule R120. -/
theorem dataProcessingFrame : Obligations.DataProcessingFrame := by
  intro c a rn rd o s t
  refine ⟨fun m hm h => ?_, fun m hm h => ?_, fun m hm h => exec_logical_overflow hm h, fun m hm h => ?_⟩
  · obtain ⟨out, he⟩ := exec_writing c a rn rd o s hm
    exact dpWrite_regs (he ▸ h)
  · obtain ⟨out, he⟩ := exec_comparing c a rn rd o s hm
    exact dpCompare_regs (he ▸ h)
  · obtain ⟨f, hset⟩ := exec_dp_setsFlagsOnly hm h
    refine ⟨sameBytes_of_mem_eq hset.mem, (exec_effect h).sameHidden, hset.flags_of_not_alter, ?_, ?_, hset.draws⟩
    · rw [State.tag, hset.status]
    · rw [hset.status]

/-! ## Multiply -/

/-- What a multiply leaves of everything but registers: with S = 0 all of it. -/
structure TakesDrawOnly (a : Bool) (s t : State) : Prop where
  mem : t.mem = s.mem
  alter : a = false → t.flags = s.flags ∧ t.draws = s.draws
  tag : t.tag = s.tag
  opaqueBits : t.status.opaqueBits = s.status.opaqueBits

theorem takesDrawOnly_skip (a : Bool) (s : State) : TakesDrawOnly a s s.skip := ⟨rfl, fun _ => ⟨rfl, rfl⟩, rfl, rfl⟩

theorem takesDrawOnly_multiplyFlags (a : Bool) (f : Flags) {s u : State} (hmem : u.mem = s.mem)
    (hdraws : u.draws = s.draws) (hstatus : u.status = s.status) :
    TakesDrawOnly a s (u.multiplyFlags a f).finish := by
  have htag := congrArg StatusWord.tag hstatus
  have hopaque := congrArg StatusWord.opaqueBits hstatus
  cases a
  · exact ⟨hmem, fun _ => ⟨congrArg StatusWord.flags hstatus, hdraws⟩, htag, hopaque⟩
  · exact ⟨hmem, nofun, htag, hopaque⟩

section
variable {c : Cond} {a : Bool} {rd hi lo : Reg} {r : Option UnimplementedReason} {s t : State}

theorem mulWrite_frame {v : Word} (h : mulWrite c a rd r v s = .next t) :
    sameRegsBut s t [rd] ∧ t.flags.v = s.flags.v ∧ TakesDrawOnly a s t := by
  rcases mulWrite_next h with ⟨_, rfl⟩ | ⟨_, _, rfl⟩
  · exact ⟨sameRegsBut_skip s _, rfl, takesDrawOnly_skip a s⟩
  · refine ⟨fun q hq => ?_, ?_, takesDrawOnly_multiplyFlags a _ rfl rfl rfl⟩
    · simp [reg_setReg_ne s v (List.ne_of_not_mem_cons hq)]
    · cases a <;> rfl

theorem mullWrite_frame {v : BitVec 64} (h : mullWrite c a hi lo r v s = .next t) :
    sameRegsBut s t [hi, lo] ∧ TakesDrawOnly a s t := by
  rcases mullWrite_next h with ⟨_, rfl⟩ | ⟨_, _, rfl⟩
  · exact ⟨sameRegsBut_skip s _, takesDrawOnly_skip a s⟩
  · refine ⟨fun q hq => ?_, takesDrawOnly_multiplyFlags a _ rfl rfl rfl⟩
    obtain ⟨hhi, hlo⟩ := not_or.1 (mt List.mem_pair.2 hq)
    simp [reg_setReg_ne _ _ hhi, reg_setReg_ne _ _ hlo]

end

/-- MUL and MLA. -/
def shortMultiplies : List (Cond → Bool → Reg → Reg → Reg → Reg → Instr) := [.mul, .mla]

theorem exec_shortMultiplies {mk : Cond → Bool → Reg → Reg → Reg → Reg → Instr} (hmk : mk ∈ shortMultiplies) (c : Cond)
    (a : Bool) (rd rn rs rm : Reg) (s : State) :
    ∃ r v, exec (mk c a rd rn rs rm) s = mulWrite c a rd r v s := by
  simp only [shortMultiplies, List.mem_cons, List.not_mem_nil, or_false] at hmk
  rcases hmk with rfl | rfl <;> exact ⟨_, _, rfl⟩

/-- What a multiply of either length leaves of everything but registers, and that R15 is never its destination. -/
theorem exec_multiply_rest {mk : Cond → Bool → Reg → Reg → Reg → Reg → Instr}
    (hmk : mk ∈ shortMultiplies ++ longMultiplies) {c : Cond} {a : Bool} {x y rs rm : Reg} {s t : State}
    (h : exec (mk c a x y rs rm) s = .next t) : TakesDrawOnly a s t ∧ t.pc = s.pc := by
  have heffect := exec_effect h
  rcases List.mem_append.1 hmk with hmk | hmk
  · obtain ⟨r, v, he⟩ := exec_shortMultiplies hmk c a x y rs rm s
    rw [he] at h
    exact ⟨(mulWrite_frame h).2.2, heffect.pc_of_not_redirected (not_redirected_of_finish h)⟩
  · obtain ⟨v, he⟩ := exec_longMultiplies hmk c a x y rs rm s
    rw [he] at h
    exact ⟨(mullWrite_frame h).2, heffect.pc_of_not_redirected (not_redirected_of_finish h)⟩

/-- Settles O45: through the two endings of the multiplies. -/
theorem multiplyFrame : Obligations.MultiplyFrame := by
  intro c a x y rs rm s t
  refine ⟨fun mk hmk h => ?_, fun mk hmk h => ?_, fun mk hmk h => ?_⟩
  · obtain ⟨r, v, he⟩ := exec_shortMultiplies hmk c a x y rs rm s
    obtain ⟨hregs, hv, _⟩ := mulWrite_frame (he ▸ h)
    exact ⟨hregs, hv⟩
  · obtain ⟨v, he⟩ := exec_longMultiplies hmk c a x y rs rm s
    exact (mullWrite_frame (he ▸ h)).1
  · obtain ⟨hdraw, hpc⟩ := exec_multiply_rest hmk h
    exact ⟨sameBytes_of_mem_eq hdraw.mem, (exec_effect h).sameHidden, hpc, hdraw.alter, hdraw.tag, hdraw.opaqueBits⟩

/-! ## Loads -/

/-- R15, the whole status word and the count of draws are as before. -/
def SameRest (s t : State) : Prop := t.pc = s.pc ∧ t.status = s.status ∧ t.draws = s.draws

theorem singleLoad_frame {wd : Width} {c : Cond} {ix : Indexing} {rn rd : Reg} {o : Option Reg} {off : Word}
    {s t : State} (h : singleLoad wd c ix rn rd o off s = .next t) :
    sameRegsBut s t (if writesBack ix then [rd, rn] else [rd]) ∧ sameBytes s t ∧ sameHidden s t ∧ SameRest s t := by
  have heffect := effect_singleLoad h
  have hpc := heffect.pc_of_not_redirected (not_redirected_of_finish h)
  rcases singleLoad_next h with ⟨_, rfl⟩ | ⟨_, _, rfl⟩
  · exact ⟨sameRegsBut_skip s _, fun _ => rfl, heffect.sameHidden, hpc, rfl, rfl⟩
  · refine ⟨fun q hq => ?_, sameBytes_of_mem_eq (by simp), heffect.sameHidden, hpc, by simp, by simp⟩
    have hrd : q ≠ rd := by rintro rfl; split_ifs at hq <;> simp at hq
    have hrn : ¬ (writesBack ix = true ∧ q = rn) := by rintro ⟨hw, rfl⟩; simp [hw] at hq
    rw [reg_finish, reg_baseWriteBack, if_neg hrn, reg_setReg_ne _ _ hrd]

theorem execLdm_frame {c : Cond} {bm : BlockMode} {rn : Reg} {list : BitVec 16} {s t : State}
    (h : execLdm c bm rn list s = .next t) :
    sameRegsBut s t (if bm.w then rn :: listedRegs list else listedRegs list) ∧ sameBytes s t ∧ sameHidden s t ∧
      SameRest s t := by
  have heffect := effect_execLdm h
  have hpc := heffect.pc_of_not_redirected (not_redirected_of_finish h)
  rcases execLdm_next h with ⟨_, rfl⟩ | ⟨_, _, rfl⟩
  · exact ⟨sameRegsBut_skip s _, fun _ => rfl, heffect.sameHidden, hpc, rfl, rfl⟩
  · refine ⟨fun q hq => ?_, sameBytes_of_mem_eq (by simp), heffect.sameHidden, hpc, by simp, by simp⟩
    have hlist : q ∉ listedRegs list := fun hm => hq (by split_ifs <;> simp [hm])
    have hrn : ¬ (bm.w = true ∧ q = rn) := by rintro ⟨hw, rfl⟩; simp [hw] at hq
    rw [reg_finish, reg_loadRegs_blockBase_of_notMem _ _ _ _ _ _ _ hlist, if_neg hrn]

/-- Settles O46: the single loads by their shared ending, LDM by its own. -/
theorem loadFrame : Obligations.LoadFrame := by
  intro c s t
  refine ⟨fun ix rn rd o mk hmk h => ?_, fun bm rn list h => execLdm_frame h⟩
  simp only [List.mem_cons, List.not_mem_nil, or_false] at hmk
  rcases hmk with rfl | rfl
  · exact singleLoad_frame (exec_ldr c ix rn rd o s ▸ h)
  · exact singleLoad_frame (exec_ldrb c ix rn rd o s ▸ h)

/-! ## Stores -/

/-- How many bytes a store of a width reaches. -/
def widthBytes : Width → Nat
  | .byte => 1
  | .word => 4

theorem readByte_store_outside {m : Memory} (hm : m.wf = true) (wd : Width) (a v : Word) {b : Word}
    (hb : ∀ k, k < widthBytes wd → b ≠ a + BitVec.ofNat 32 k) : (m.store wd a v).readByte b = m.readByte b := by
  cases wd
  · have hba : b ≠ a := by simpa using hb 0 Nat.one_pos
    exact readByte_writeByte_ne hm _ hba
  · exact readByte_writeWord_outside hm a v b hb

theorem singleStore_bytes {wd : Width} {c : Cond} {ix : Indexing} {rn rd : Reg} {o : Option Reg} {off : Word}
    {s t : State} (hm : s.mem.wf = true) (h : singleStore wd c ix rn rd o off s = .next t) :
    sameBytesOutside s t (transferAddress ix (s.reg rn) off) (widthBytes wd) := by
  rcases singleStore_next h with ⟨_, rfl⟩ | ⟨_, _, rfl⟩
  · exact fun _ _ => rfl
  · intro b hb
    simpa using readByte_store_outside hm wd _ _ hb

theorem singleStore_frame {wd : Width} {c : Cond} {ix : Indexing} {rn rd : Reg} {o : Option Reg} {off : Word}
    {s t : State} (h : singleStore wd c ix rn rd o off s = .next t) :
    sameRegsBut s t (if writesBack ix then [rn] else []) ∧ sameHidden s t ∧ SameRest s t := by
  have heffect := effect_singleStore h
  have hpc := heffect.pc_of_not_redirected (not_redirected_of_finish h)
  rcases singleStore_next h with ⟨_, rfl⟩ | ⟨_, _, rfl⟩
  · exact ⟨sameRegsBut_skip s _, heffect.sameHidden, hpc, rfl, rfl⟩
  · refine ⟨fun q hq => ?_, heffect.sameHidden, hpc, by simp, by simp⟩
    have hrn : ¬ (writesBack ix = true ∧ q = rn) := by rintro ⟨hw, rfl⟩; simp [hw] at hq
    rw [reg_finish, reg_baseWriteBack, if_neg hrn, reg_setMem]

theorem execStm_frame {c : Cond} {bm : BlockMode} {rn : Reg} {list : BitVec 16} {s t : State} (hm : s.mem.wf = true)
    (h : execStm c bm rn list s = .next t) :
    sameBytesOutside s t (blockStart bm (s.reg rn) (listBytes list)) (4 * (listedRegs list).length) ∧
      sameRegsBut s t (if bm.w then [rn] else []) ∧ sameHidden s t ∧ SameRest s t := by
  have heffect := effect_execStm h
  have hpc := heffect.pc_of_not_redirected (not_redirected_of_finish h)
  rcases execStm_next h with ⟨_, rfl⟩ | ⟨_, _, rfl⟩
  · exact ⟨fun _ _ => rfl, sameRegsBut_skip s _, heffect.sameHidden, hpc, rfl, rfl⟩
  · refine ⟨fun b hb => ?_, fun q hq => ?_, heffect.sameHidden, hpc, by simp, by simp⟩
    · obtain ⟨_, _, _, hkept⟩ := storeRegs_spec s (listedRegs list) (blockStart bm (s.reg rn) (listBytes list)) s.mem hm
        (length_listedRegs_le list)
      simpa using hkept b (.inr hb)
    · have hrn : ¬ (bm.w = true ∧ q = rn) := by rintro ⟨hw, rfl⟩; simp [hw] at hq
      rw [reg_finish, reg_blockBase, if_neg hrn, reg_setMem]

/-- Settles O47: the single stores by their shared ending, STM by its own. -/
theorem storeFrame : Obligations.StoreFrame := by
  intro c s t hm
  refine ⟨fun ix rn rd o => ⟨fun h => ?_, fun h => ?_, fun mk hmk h => ?_⟩, fun bm rn list h => execStm_frame hm h⟩
  · exact singleStore_bytes hm (exec_str c ix rn rd o s ▸ h)
  · exact singleStore_bytes hm (exec_strb c ix rn rd o s ▸ h)
  · simp only [List.mem_cons, List.not_mem_nil, or_false] at hmk
    rcases hmk with rfl | rfl
    · exact singleStore_frame (exec_str c ix rn rd o s ▸ h)
    · exact singleStore_frame (exec_strb c ix rn rd o s ▸ h)

/-! ## Swap -/

theorem swapAt_frame {wd : Width} {c : Cond} {rn rd rm : Reg} {s t : State} (h : swapAt wd c rn rd rm s = .next t) :
    sameRegsBut s t [rd] ∧ sameHidden s t ∧ SameRest s t := by
  have heffect := effect_swapAt h
  have hpc := heffect.pc_of_not_redirected (not_redirected_of_finish h)
  rcases swapAt_next h with ⟨_, rfl⟩ | ⟨_, _, rfl⟩
  · exact ⟨sameRegsBut_skip s _, heffect.sameHidden, hpc, rfl, rfl⟩
  · refine ⟨fun q hq => ?_, heffect.sameHidden, hpc, by simp, by simp⟩
    simp [reg_setReg_ne _ _ (List.ne_of_not_mem_cons hq)]

theorem swapAt_bytes {wd : Width} {c : Cond} {rn rd rm : Reg} {s t : State} (hm : s.mem.wf = true)
    (h : swapAt wd c rn rd rm s = .next t) : sameBytesOutside s t (s.reg rn) (widthBytes wd) := by
  rcases swapAt_next h with ⟨_, rfl⟩ | ⟨_, _, rfl⟩
  · exact fun _ _ => rfl
  · intro b hb
    simpa using readByte_store_outside hm wd _ _ hb

/-- Settles O48: the two instructions are the swap at the two widths. -/
theorem swapFrame : Obligations.SwapFrame := by
  intro c rn rd rm s t hm
  refine ⟨fun h => swapAt_bytes (wd := .word) hm h, fun h => swapAt_bytes (wd := .byte) hm h, fun mk hmk h => ?_⟩
  obtain ⟨wd, he⟩ := exec_swaps hmk c rn rd rm s
  exact swapAt_frame (he ▸ h)

/-! ## Branch -/

/-- The shape of the three branches: skipped, or redirected. -/
theorem branch_next {c : Cond} {s t u : State} {a : Word} (h : whenCond c s (.next (u.redirect a)) = .next t) :
    t = s.skip ∨ t = u.redirect a :=
  (whenCond_next h).imp And.right fun h => (Host.Outcome.next.inj h.2).symm

theorem branch_rest {c : Cond} {s t u : State} {a : Word} (h : whenCond c s (.next (u.redirect a)) = .next t)
    (hmem : u.mem = s.mem) (hdraws : u.draws = s.draws) : sameBytes s t ∧ t.draws = s.draws := by
  rcases branch_next h with rfl | rfl
  · exact ⟨fun _ => rfl, rfl⟩
  · exact ⟨sameBytes_of_mem_eq hmem, hdraws⟩

/-- Settles O49: each branch by `branch_next`. -/
theorem branchFrame : Obligations.BranchFrame := by
  intro c s t
  refine ⟨fun o h => ?_, fun o h => ?_, fun rm h => ?_, fun i hi h => ?_⟩
  · rcases branch_next h with rfl | rfl
    · exact ⟨sameRegsBut_skip s _, rfl⟩
    · exact ⟨fun q hq => reg_redirect_ne _ _ (List.ne_of_not_mem_cons hq), rfl⟩
  · rcases branch_next h with rfl | rfl
    · exact ⟨sameRegsBut_skip s _, rfl⟩
    · refine ⟨fun q hq => ?_, rfl⟩
      obtain ⟨hlr, hpc⟩ := not_or.1 (mt List.mem_pair.2 hq)
      rw [reg_redirect_ne _ _ hpc, reg_setReg_ne _ _ hlr]
  · rcases branch_next h with rfl | rfl
    · exact ⟨sameRegsBut_skip s _, rfl, rfl⟩
    · exact ⟨fun q hq => reg_redirect_ne _ _ (List.ne_of_not_mem_cons hq), rfl, rfl⟩
  · have hrest : sameBytes s t ∧ t.draws = s.draws := by
      cases i
      case b | bl | bx => exact branch_rest h rfl rfl
      all_goals nomatch hi
    exact ⟨hrest.1, (exec_effect h).sameHidden, hrest.2⟩

end Sys2Proof.Machine
end

section
/-! PROOFS. The step as a whole (`40_pipeline_sequencer.md`): how it answers, how the pipeline moves over two and three
steps, and the rules that every step keeps (`10_state.md` rules R27 to R29, R32). -/

namespace Sys2Proof.Machine

open Sys2Proof.Claims

/-! ## What a step answers -/

/-- Settles O50: each answer of `exec` through `afterExec`. -/
theorem stepRunsTheDecodedInstruction : Obligations.StepRunsTheDecodedInstruction := by
  intro s w ht hw s'
  have hstep : step s = afterExec (exec (decodeWord w) s') := step_of_decodeLatch ht hw
  rw [hstep]
  exact ⟨fun _ h => congrArg afterExec h, fun _ h => congrArg afterExec h, fun _ h => congrArg afterExec h⟩

/-- Settles O51: step 0 of rule R92 comes before everything else. -/
theorem thumbStateStopsTheStep : Obligations.ThumbStateStopsTheStep := by
  intro s h
  rw [step, advanceWith, h]
  rfl

/-! ## The pipeline over several steps -/

/-- Settles O54: the move of the pipeline twice. -/
theorem executingInstructionSeesItsAddressPlus8 : Obligations.ExecutingInstructionSeesItsAddressPlus8 := by
  intro s t u hst ht htu hu
  obtain ⟨htpc, htf, _⟩ := (stepMovesOrFlushesThePipeline s t hst).2 ht
  obtain ⟨hupc, _, hud⟩ := (stepMovesOrFlushesThePipeline t u htu).2 hu
  have hpc : u.pc = s.pc + 8 := by rw [hupc, htpc]; bv_omega
  exact ⟨hud.trans htf, hpc, hpc⟩

/-- A step from `s` to `t` that executes nothing: the pipeline moves by one and all else stays. -/
structure Bubble (s t : State) : Prop where
  step : step s = .next t
  report : t.report = .bubble
  mem : t.mem = s.mem
  status : t.status = s.status
  reg : ∀ q, q ≠ 15 → t.reg q = s.reg q
  pc : t.pc = s.pc + 4
  fetchLatch : t.fetchLatch = some (s.mem.readWord s.pc)
  decodeLatch : t.decodeLatch = s.fetchLatch

/-- In ARM state with an empty decode latch the next step is a bubble (rules R92, R101). -/
theorem exists_bubble {s : State} (ht : s.tag = .arm) (hd : s.decodeLatch = none) : ∃ t, Bubble s t := by
  have hstep : step s = .next (pcUpdate ((fetchAndShift s).setReport .bubble)) := by
    simp [step, advanceWith, ht, advanceArm, hd]
  obtain ⟨hpc, hfetch, hdecode⟩ := pcUpdate_moved (s := s) (u := (fetchAndShift s).setReport .bubble)
    (by simp) rfl rfl rfl
  exact ⟨_, hstep, by simp, by simp, by simp, fun q hq => reg_pcUpdate_ne _ hq, hpc, hfetch, hdecode⟩

/-- Settles O55: two bubbles, then the word fetched by the first of them. -/
theorem pipelineRefillsInTwoSteps : Obligations.PipelineRefillsInTwoSteps := by
  intro s ht hempty
  obtain ⟨hf, hd⟩ : s.fetchLatch = none ∧ s.decodeLatch = none := by simpa [pipelineEmpty] using hempty
  obtain ⟨t, hst⟩ := exists_bubble ht hd
  obtain ⟨u, htu⟩ := exists_bubble (s := t) (by rw [State.tag, hst.status]; exact ht) (hst.decodeLatch.trans hf)
  have hpc : u.pc = s.pc + 8 := by rw [htu.pc, hst.pc]; bv_omega
  have hword : u.decodeLatch = some (s.mem.readWord s.pc) := htu.decodeLatch.trans hst.fetchLatch
  refine ⟨t, u, hst.step, htu.step, hst.report, htu.report, htu.mem.trans hst.mem, htu.status.trans hst.status,
    fun q hq => (htu.reg q hq).trans (hst.reg q hq), hpc, hword, ?_, fun v hv => ?_⟩
  · rw [htu.fetchLatch, hst.pc, hst.mem]
  · obtain ⟨_, ⟨hnone, _⟩ | ⟨w, x, hw, hx, hvx⟩⟩ := step_next hv
    · rw [hword] at hnone
      nomatch hnone
    · obtain rfl := Option.some.inj (hword.symm.trans hw)
      exact ⟨x, hx, hvx⟩

/-! ## The states a run may be in -/

/-- Every store keeps the canonical form, and nothing but a store writes memory. -/
theorem Effect.mem_wf {s t : State} (h : Effect s t) (hm : s.mem.wf = true) : t.mem.wf = true := by
  cases h
  case swap wd a v _ _ _ | store wd a v _ _ _ _ _ => simpa using store_wf hm wd a v
  case storeBlock a _ _ l _ _ _ => simpa using storeRegs_wf s hm a l
  all_goals simpa using hm

/-- What a step does to memory: what the effect it had does, or nothing. -/
theorem step_mem {s t : State} (h : step s = .next t) :
    t.mem = s.mem ∨ ∃ u, Effect (fetchAndShift s) u ∧ t.mem = u.mem := by
  obtain ⟨_, ⟨_, rfl⟩ | ⟨w, u, _, he, rfl⟩⟩ := step_next h
  · exact .inl (mem_pcUpdate _)
  · exact .inr ⟨u, exec_effect he, mem_pcUpdate u⟩

theorem step_map {s t : State} (h : step s = .next t) : t.mem.map = s.mem.map := by
  rcases step_mem h with e | ⟨u, hu, e⟩
  · rw [e]
  · rw [e, hu.map, mem_fetchAndShift]

theorem step_mem_wf {s t : State} (h : step s = .next t) (hm : s.mem.wf = true) : t.mem.wf = true := by
  rcases step_mem h with e | ⟨u, hu, e⟩
  · rwa [e]
  · rw [e]
    exact hu.mem_wf hm

/-- A step that moves the pipeline fills the fetch latch, one that flushes empties the decode latch. -/
theorem step_latchesOk {s t : State} (h : step s = .next t) : latchesOk t = true := by
  obtain ⟨hflush, hmove⟩ := stepMovesOrFlushesThePipeline s t h
  by_cases hr : t.report = .executed .redirected
  · rw [latchesOk, (hflush hr).2.1, Option.isNone_none, Bool.or_true]
  · rw [latchesOk, (hmove hr).2.1, Option.isSome_some, Bool.true_or]

/-- Settles O56: memory, map and latches each by its lemma. -/
theorem everyStepKeepsTheStateOk : Obligations.EveryStepKeepsTheStateOk := by
  intro s t hs h
  rw [stateOk, Bool.and_eq_true, Bool.and_eq_true] at hs ⊢
  obtain ⟨⟨hm, hmap⟩, _⟩ := hs
  exact ⟨⟨step_mem_wf h hm, by rwa [step_map h]⟩, step_latchesOk h⟩

/-! ## The status word -/

theorem tag_pcUpdate (s : State) : (pcUpdate s).tag = s.tag := by rw [State.tag, status_pcUpdate]

theorem flags_pcUpdate (s : State) : (pcUpdate s).flags = s.flags := by rw [State.flags, status_pcUpdate]

theorem Effect.opaqueBits {s t : State} (h : Effect s t) : t.status.opaqueBits = s.status.opaqueBits := by
  cases h
  case write a _ _ | compare a _ | multiply a _ _ | multiplyLong a _ _ _ => cases a <;> rfl
  all_goals simp

theorem Effect.tag_of_not_redirected {s t : State} (h : Effect s t) (hr : t.report ≠ .executed .redirected) :
    t.tag = s.tag := by
  cases h
  case write a _ _ | compare a _ | multiply a _ _ | multiplyLong a _ _ _ => cases a <;> rfl
  case exchange => simp at hr
  all_goals simp [State.tag]

/-- Of the instructions that redirect only BX writes T. -/
theorem exec_tag {i : Instr} {s t : State} (h : exec i s = .next t) (hbx : ∀ c rm, i ≠ .bx c rm) : t.tag = s.tag := by
  by_cases hr : t.report = .executed .redirected
  · have hi := ((exec_redirected_iff h).1 hr).1
    cases i
    case b | bl => rcases branch_next h with rfl | rfl <;> rfl
    case bx c rm => exact absurd rfl (hbx c rm)
    all_goals nomatch hi
  · exact (exec_effect h).tag_of_not_redirected hr

/-- Settles O57: the opaque bits and the map by every effect, T by `exec_tag`. -/
theorem onlyExchangeChangesTheStateTag : Obligations.OnlyExchangeChangesTheStateTag := by
  intro s t h
  have hmap := step_map h
  obtain ⟨_, ⟨_, rfl⟩ | ⟨w, u, hw, he, rfl⟩⟩ := step_next h
  · exact ⟨by simp, hmap, fun _ => tag_pcUpdate _⟩
  · have hopaque := (exec_effect he).opaqueBits
    refine ⟨by simpa using hopaque, hmap, fun hbx => ?_⟩
    have htag := exec_tag he (hbx w hw)
    exact (tag_pcUpdate u).trans htag

/-! ## The flags -/

/-- The shape of the transfers and swaps: finished from a state with the old status word. -/
theorem flags_of_finish {c : Cond} {r : Option UnimplementedReason} {s t u : State}
    (h : whenCond c s (unlessRefused r u.finish) = .next t) (hu : u.status = s.status) : t.flags = s.flags := by
  rcases whenCond_next h with ⟨_, rfl⟩ | ⟨_, h⟩
  · rfl
  · obtain ⟨_, rfl⟩ := unlessRefused_next h
    rw [State.flags, status_finish, hu]

/-- A family without an alter-flags bit, or with the bit clear, keeps the flags. -/
theorem exec_flags_of_not_altersFlags {i : Instr} {s t : State} (h : exec i s = .next t)
    (ha : altersFlags i = false) : t.flags = s.flags := by
  cases i
  case tstImm | teqImm | cmpImm | cmnImm | tstReg | teqReg | cmpReg | cmnReg =>
    exact (dpCompare_setsFlagsOnly h).flags_of_not_alter ha
  case mul | mla =>
    obtain ⟨_, _, hdraw⟩ := mulWrite_frame h
    exact (hdraw.alter ha).1
  case umull | umlal | smull | smlal =>
    obtain ⟨_, hdraw⟩ := mullWrite_frame h
    exact (hdraw.alter ha).1
  case swp | swpb | ldrImm | ldrbImm | ldrReg | ldrbReg | strImm | strbImm | strReg | strbReg | ldm | stm =>
    exact flags_of_finish h (by simp)
  case b | bl | bx => rcases branch_next h with rfl | rfl <;> rfl
  case errReservedCondition | errHalfword01 | errHalfword10 | errHalfword11 | errUndefined | errCoprocessorOrSwi =>
    nomatch h
  all_goals exact (dpWrite_setsFlagsOnly h).flags_of_not_alter ha

/-- An instruction that changed a flag has a condition, and it held. -/
theorem exec_cond_of_flags_ne {i : Instr} {s t : State} (h : exec i s = .next t) (hne : t.flags ≠ s.flags) :
    ∃ c, i.cond = some c ∧ condHolds c s.flags = true := by
  cases hi : i.cond with
  | none =>
    cases i
    case errReservedCondition | errHalfword01 | errHalfword10 | errHalfword11 | errUndefined | errCoprocessorOrSwi =>
      nomatch h
    all_goals nomatch hi
  | some c =>
    refine ⟨c, rfl, ?_⟩
    by_contra hc
    rw [exec_of_not_condHolds hi (Bool.eq_false_iff.2 hc)] at h
    obtain rfl := Host.Outcome.next.inj h
    exact hne rfl

/-- Settles O58: a step that executes nothing keeps the flags, one that executes a word by the two lemmas above. -/
theorem flagsChangeOnlyWithTheAlterBit : Obligations.FlagsChangeOnlyWithTheAlterBit := by
  intro s t h hne
  obtain ⟨_, ⟨_, rfl⟩ | ⟨w, u, hw, he, rfl⟩⟩ := step_next h
  · exact absurd (flags_pcUpdate _) hne
  · rw [flags_pcUpdate] at hne
    obtain ⟨c, hc, hholds⟩ := exec_cond_of_flags_ne he hne
    have halters : altersFlags (decodeWord w) = true := Bool.of_not_eq_false fun ha => by
      have hsame := exec_flags_of_not_altersFlags he ha
      exact hne hsame
    exact ⟨w, c, hw, halters, hc, hholds⟩

end Sys2Proof.Machine
end
